-- ==== Sys2Proof/Word.lean ====
section
/-!
DEFINITION. The word types of the machine and their two readings (00_scope.md rule R8, 10_state.md rules R20 and R23).
-/

namespace Sys2Proof

/-- One byte: the unit of both memories (rules R30, R31). -/
abbrev Byte := BitVec 8

/-- A register value, address, extended immediate or pc value (rule R8). -/
abbrev Word := BitVec 32

/-- A register number: the 5-bit field `rd`, `rs1` or `rs2` of an instruction word (rule R115). -/
abbrev RegIdx := BitVec 5

/-- `u32(v)`: the unsigned reading (rule R8). -/
abbrev u32 (v : Word) : Nat := v.toNat

/-- `s32(v)`: the two's-complement reading (rule R8). -/
abbrev s32 (v : Word) : Int := v.toInt

end Sys2Proof
end

