-- ==== Sys2Proof/Machine/Flags.lean ====
section
/-!
DEFINITION. The machine has no status flags (10_state.md rule R27): a comparison delivers its result into a register
(slt, sltu, slti, sltiu) or into the control flow (the branches). These are those comparisons.
-/

namespace Sys2Proof.Machine

/-- `s32(a) < s32(b)` (rules R160, R175, R245, R246). -/
def lessSigned (a b : Word) : Bool := decide (s32 a < s32 b)

/-- `u32(a) < u32(b)` (rules R161, R176, R247, R248). -/
def lessUnsigned (a b : Word) : Bool := decide (u32 a < u32 b)

/-- The result of a set instruction: 1 or 0 (rules R160, R161, R175, R176). -/
def flagWord (c : Bool) : Word := if c then 1#32 else 0#32

end Sys2Proof.Machine
end

