-- ==== Sys2Proof/Config.lean ====
section
/-!
DEFINITION. What the implementation fixes and the spec leaves open (00_scope.md rule R7): the free values, which are
constants without a body, and the named parameters with the alternatives the spec gives each of them. The defaults
the machine runs with are chosen in Sys2Proof/Decode.lean (`opcodeMap`, `ujMidBits`) and Sys2Proof/Machine/Params.lean (`params`).
-/

namespace Sys2Proof

/-- The two shifts whose result for an amount of 32 or more is open (40_alu_register.md rule R151). -/
inductive ShiftOp where
  | sll
  | srl
  deriving DecidableEq, Repr

/-- SRA_REINSERT: the bit the `sra` loop puts back at the top (rule R159, decision D5). -/
inductive SraReinsert where
  | sign
  | low
  deriving DecidableEq, Repr

/-- UJ_MID_BITS: whether bits 10..4 of immUJ come from the word or are 0 (rule R122, decision D4). -/
inductive UjMidBits where
  | present
  | absent
  deriving DecidableEq, Repr

/-- BRANCH_CHECK: whether an untaken branch checks its address (rule R240, decision D20). -/
inductive BranchCheck where
  | always
  | takenOnly
  deriving DecidableEq, Repr

/-- FREE_OUT_OF_HEAP: what freeing an address outside the heap does (rule R91, decision D19). -/
inductive FreeOutOfHeap where
  | noop
  | scan
  deriving DecidableEq, Repr

/-- The func3 and func7 numbers that select a register-register instruction (rule R127). -/
structure RKey where
  func3 : BitVec 3
  func7 : BitVec 7
  deriving DecidableEq, Repr

/-- OPCODE_MAP: the opcode, func3 and func7 numbers (rules R7 and R126 to R130, decisions D1 and D2). Which of its fields
dispatch a class is fixed by rules R127 to R130. -/
structure OpcodeMap where
  /-- Class R, register-register ALU. -/
  opcR : BitVec 7
  /-- Class I, immediate ALU. -/
  opcI : BitVec 7
  /-- Class I, load. -/
  opcLoad : BitVec 7
  opcJalr : BitVec 7
  /-- Class S, store. -/
  opcS : BitVec 7
  /-- Class SB, branch. -/
  opcSB : BitVec 7
  /-- Class U, lui. -/
  opcU : BitVec 7
  /-- Class UJ, jal. -/
  opcUJ : BitVec 7
  add : RKey
  sub : RKey
  xor : RKey
  or : RKey
  and : RKey
  sll : RKey
  srl : RKey
  sra : RKey
  slt : RKey
  sltu : RKey
  addi : BitVec 3
  xori : BitVec 3
  ori : BitVec 3
  andi : BitVec 3
  slti : BitVec 3
  sltiu : BitVec 3
  lb : BitVec 3
  lbu : BitVec 3
  lh : BitVec 3
  lw : BitVec 3
  jalr : BitVec 3
  sb : BitVec 3
  sh : BitVec 3
  sw : BitVec 3
  beq : BitVec 3
  bne : BitVec 3
  blt : BitVec 3
  bge : BitVec 3
  bltu : BitVec 3
  bgeu : BitVec 3
  deriving DecidableEq, Repr

/-- The map gives no two classes, and no two instructions of a class, the same numbers. -/
abbrev OpcodeMap.wf (m : OpcodeMap) : Prop :=
  [m.opcR, m.opcI, m.opcLoad, m.opcJalr, m.opcS, m.opcSB, m.opcU, m.opcUJ].Nodup ∧
    [m.add, m.sub, m.xor, m.or, m.and, m.sll, m.srl, m.sra, m.slt, m.sltu].Nodup ∧
    [m.addi, m.xori, m.ori, m.andi, m.slti, m.sltiu].Nodup ∧ [m.lb, m.lbu, m.lh, m.lw].Nodup ∧
    [m.sb, m.sh, m.sw].Nodup ∧ [m.beq, m.bne, m.blt, m.bge, m.bltu, m.bgeu].Nodup

/-- The input oracle (rules R7, R73, R354): what the host supplies while each read-port load in turn waits for its answer,
and the answers under no law. Read number n is the (n+1)-th that is answered. Log entries 11 and 12. -/
structure HostInput where
  /-- The characters the host adds to its stream while read n waits. -/
  chunk : Nat → List Byte
  /-- Whether the host then signals the end of its input. It may go on all the same: the spec does not say that an end is
  final, and the model leaves it open (log entry 11). -/
  ends : Nat → Bool
  /-- The answer to read n where no law gives one (rule R73). -/
  draw : Nat → Word
  /-- How many characters read n then consumes, where the spec does not say. -/
  drawLength : Nat → Nat

/-- The named parameters of the machine, which its operations take as an argument (rule R7). -/
structure Params where
  /-- HEAP_BASE, the heap's first address (rule R52). -/
  heapBase : Nat
  /-- heap_init, by offset from HEAP_BASE (rule R37). -/
  heapInit : Nat → Byte
  /-- shiftOversize, for an amount of 32 or more (rule R151). -/
  shiftOversize : ShiftOp → Word → Word → Word
  /-- SRA_REINSERT (rule R159). -/
  sraReinsert : SraReinsert
  /-- UJ_MID_BITS (rule R122). -/
  ujMidBits : UjMidBits
  /-- BRANCH_CHECK (rule R240). -/
  branchCheck : BranchCheck
  /-- MALLOC_SIZE_FROM_VALUE (rule R70). -/
  mallocSizeFromValue : Bool
  /-- FREE_OUT_OF_HEAP (rule R91). -/
  freeOutOfHeap : FreeOutOfHeap
  /-- OPCODE_MAP (rule R126). -/
  opcodeMap : OpcodeMap
  /-- The input oracle (rule R73). -/
  hostInput : HostInput

/-- Rule R52's constraints on HEAP_BASE: the heap holds no port address and ends at or below 2^32. The rule's other
way to miss the ports, `HEAP_BASE + 8192 ≤ 2048`, has no solution. -/
abbrev Params.wf (p : Params) : Prop := 2101 ≤ p.heapBase ∧ p.heapBase + 8192 ≤ 4294967296

namespace Config

/-- Free value behind HEAP_BASE (rule R52, decision D9): nothing constrains it. Log entry 1. -/
opaque heapBaseDraw : Nat

/-- HEAP_BASE: some address that meets the two constraints of rule R52, each of which some `heapBaseDraw` gives.
Log entry 1. -/
def heapBase : Nat := heapBaseDraw % 4294957004 + 2101

/-- Free value: heap_init, the byte at each offset 0..8191 of the heap before any store (rule R37, decision D10).
Log entry 2. -/
opaque heapInit : Nat → Byte

/-- Free value: `img`, the instruction image of a launch (rule R342), at each address 0..1023. Log entry 3. -/
opaque image : Nat → Byte

/-- Free value: `shiftOversize(op, value, amount)`, for an amount of 32 or more (rule R151, decision D6). Log entry 4. -/
opaque shiftOversize : ShiftOp → Word → Word → Word

/-- Free value: the characters of the host's stream (rules R73, R354, decision D28). Log entry 11. -/
opaque hostChunk : Nat → List Byte

/-- Free value: at which reads the host signals the end of its input (rule R354). Log entry 11. -/
opaque hostEnds : Nat → Bool

/-- Free value: the answer of a read under no law (rule R73, decision D28). Log entry 12. -/
opaque inputDraw : Nat → Word

/-- Free value: how many characters such a read consumes, where the spec does not say (rules R73 to R75). Log entry 12. -/
opaque inputConsumed : Nat → Nat

/-- The input oracle of a run: any at all. -/
def hostInput : HostInput := ⟨hostChunk, hostEnds, inputDraw, inputConsumed⟩

end Config

end Sys2Proof
end

