-- ==== Sys2Proof/Syntax.lean ====
section
/-!
DEFINITION. The 32 instructions (00_scope.md rule R3), one constructor per row of spec/opcode_table.json, with the
operand fields of their format (30_encoding.md rules R123 and R124). An immediate is held as the bits the word gives it,
before extension: 12 bits for immI and immS, 13 for immSB and 21 for immUJ (bit 0 of both is 0), 20 for lui's imm20.
-/

namespace Sys2Proof

/-- The instructions in scope (rule R3). -/
inductive Instr where
  -- register-register ALU, format R (rules R150 to R161)
  | add (rd rs1 rs2 : RegIdx)
  | sub (rd rs1 rs2 : RegIdx)
  | xor (rd rs1 rs2 : RegIdx)
  | or (rd rs1 rs2 : RegIdx)
  | and (rd rs1 rs2 : RegIdx)
  | sll (rd rs1 rs2 : RegIdx)
  | srl (rd rs1 rs2 : RegIdx)
  | sra (rd rs1 rs2 : RegIdx)
  | slt (rd rs1 rs2 : RegIdx)
  | sltu (rd rs1 rs2 : RegIdx)
  -- immediate ALU, format I (rules R170 to R176)
  | addi (rd rs1 : RegIdx) (imm : BitVec 12)
  | xori (rd rs1 : RegIdx) (imm : BitVec 12)
  | ori (rd rs1 : RegIdx) (imm : BitVec 12)
  | andi (rd rs1 : RegIdx) (imm : BitVec 12)
  | slti (rd rs1 : RegIdx) (imm : BitVec 12)
  | sltiu (rd rs1 : RegIdx) (imm : BitVec 12)
  -- loads, format I (rules R190 to R199)
  | lb (rd rs1 : RegIdx) (imm : BitVec 12)
  | lbu (rd rs1 : RegIdx) (imm : BitVec 12)
  | lh (rd rs1 : RegIdx) (imm : BitVec 12)
  | lw (rd rs1 : RegIdx) (imm : BitVec 12)
  -- jump and link register, format I (rule R210)
  | jalr (rd rs1 : RegIdx) (imm : BitVec 12)
  -- stores, format S (rules R220 to R227)
  | sb (rs1 rs2 : RegIdx) (imm : BitVec 12)
  | sh (rs1 rs2 : RegIdx) (imm : BitVec 12)
  | sw (rs1 rs2 : RegIdx) (imm : BitVec 12)
  -- branches, format SB (rules R240 to R248)
  | beq (rs1 rs2 : RegIdx) (off : BitVec 13)
  | bne (rs1 rs2 : RegIdx) (off : BitVec 13)
  | blt (rs1 rs2 : RegIdx) (off : BitVec 13)
  | bge (rs1 rs2 : RegIdx) (off : BitVec 13)
  | bltu (rs1 rs2 : RegIdx) (off : BitVec 13)
  | bgeu (rs1 rs2 : RegIdx) (off : BitVec 13)
  -- load upper immediate, format U (rule R260)
  | lui (rd : RegIdx) (imm : BitVec 20)
  -- jump and link, format UJ (rule R270)
  | jal (rd : RegIdx) (off : BitVec 21)
  deriving DecidableEq, Repr

end Sys2Proof
end

