-- ==== Sys2Proof/WellFormed.lean ====
section
/-!
DEFINITION. Which instruction terms some word encodes: immSB and immUJ are always even (30_encoding.md rule R125), and
every other field takes every value of its width.
-/

namespace Sys2Proof

/-- Bit 0 of immSB is 0 (rule R120). -/
def evenBranchOffset (off : BitVec 13) : Bool := !off.getLsbD 0

/-- Bit 0 of immUJ is 0 (rule R122). -/
def evenJumpOffset (off : BitVec 21) : Bool := !off.getLsbD 0

/-- The terms some word encodes (rules R123 to R125). -/
def Instr.wellFormed : Instr → Bool
  | .add _ _ _ => true
  | .sub _ _ _ => true
  | .xor _ _ _ => true
  | .or _ _ _ => true
  | .and _ _ _ => true
  | .sll _ _ _ => true
  | .srl _ _ _ => true
  | .sra _ _ _ => true
  | .slt _ _ _ => true
  | .sltu _ _ _ => true
  | .addi _ _ _ => true
  | .xori _ _ _ => true
  | .ori _ _ _ => true
  | .andi _ _ _ => true
  | .slti _ _ _ => true
  | .sltiu _ _ _ => true
  | .lb _ _ _ => true
  | .lbu _ _ _ => true
  | .lh _ _ _ => true
  | .lw _ _ _ => true
  | .jalr _ _ _ => true
  | .sb _ _ _ => true
  | .sh _ _ _ => true
  | .sw _ _ _ => true
  | .beq _ _ off => evenBranchOffset off
  | .bne _ _ off => evenBranchOffset off
  | .blt _ _ off => evenBranchOffset off
  | .bge _ _ off => evenBranchOffset off
  | .bltu _ _ off => evenBranchOffset off
  | .bgeu _ _ off => evenBranchOffset off
  | .lui _ _ => true
  | .jal _ off => evenJumpOffset off

end Sys2Proof
end

