-- ==== Sys2Proof/Decode.lean ====
section
/-!
DEFINITION. From instruction bytes to an instruction, and back: fields, immediates, dispatch and encoders of
30_encoding.md (rules R115 to R135), the opcode table, and the bytes of a word (00_scope.md rule R10).
The numbers of opcodes, func3 and func7 are the parameter OPCODE_MAP (rule R126, decision D1, log entry 10), an argument of
`decodeWith` and `encodeWith`; `decode` and `encode` take its default.
-/

namespace Sys2Proof

-- ## Bytes of an instruction word (rules R10 and R114)

/-- `w = b0 | b1 << 8 | b2 << 16 | b3 << 24` (rule R10). -/
def wordOfBytes (b0 b1 b2 b3 : Byte) : Word :=
  b0.setWidth 32 ||| b1.setWidth 32 <<< 8 ||| b2.setWidth 32 <<< 16 ||| b3.setWidth 32 <<< 24

/-- The four bytes of a word as the instruction store holds them, lowest address first (rule R10). -/
def bytesOfInstr (w : Word) : List Byte :=
  [w.extractLsb' 0 8, w.extractLsb' 8 8, w.extractLsb' 16 8, w.extractLsb' 24 8]

-- ## Fields and immediates

/-- UJ_MID_BITS as the machine runs: the default `present` (rule R122, decision D4). DESIGN CHOICE of the spec, log entry 6. -/
def ujMidBits : UjMidBits := .present

/-- `opcode = w[6:0]` (rule R115). -/
def opcodeOf (w : Word) : BitVec 7 := w.extractLsb' 0 7

/-- `rd = w[11:7]` (rule R115). -/
def rdOf (w : Word) : RegIdx := w.extractLsb' 7 5

/-- `func3 = w[14:12]` (rule R115). -/
def func3Of (w : Word) : BitVec 3 := w.extractLsb' 12 3

/-- `rs1 = w[19:15]` (rule R115). -/
def rs1Of (w : Word) : RegIdx := w.extractLsb' 15 5

/-- `rs2 = w[24:20]` (rule R115). -/
def rs2Of (w : Word) : RegIdx := w.extractLsb' 20 5

/-- `func7 = w[31:25]` (rule R115). -/
def func7Of (w : Word) : BitVec 7 := w.extractLsb' 25 7

/-- The 12 bits of immI, `w[31:20]` (rule R118). -/
def immIOf (w : Word) : BitVec 12 := w.extractLsb' 20 12

/-- The 12 bits of immS, `w[31:25]` over `w[11:7]` (rule R119). -/
def immSOf (w : Word) : BitVec 12 :=
  (w.extractLsb' 25 7).setWidth 12 <<< 5 ||| (w.extractLsb' 7 5).setWidth 12

/-- The 13 bits of immSB: `w[31]`, `w[7]`, `w[30:25]`, `w[11:8]` and a 0 (rule R120). -/
def immSBOf (w : Word) : BitVec 13 :=
  (w.extractLsb' 7 1).setWidth 13 <<< 11 ||| (w.extractLsb' 8 4).setWidth 13 <<< 1 |||
    (w.extractLsb' 25 6).setWidth 13 <<< 5 ||| (w.extractLsb' 31 1).setWidth 13 <<< 12

/-- The top 20 bits of immU, `w[31:12]` (rule R121). -/
def immUOf (w : Word) : BitVec 20 := w.extractLsb' 12 20

/-- MID, bits 10..4 of immUJ: `w[30:24]`, or 0 when UJ_MID_BITS = absent (rule R122). -/
def immUJMid (m : UjMidBits) (w : Word) : BitVec 7 :=
  match m with
  | .present => w.extractLsb' 24 7
  | .absent => 0#7

/-- The 21 bits of immUJ: `w[31]`, `w[19:12]`, `w[20]`, MID, `w[23:21]` and a 0 (rule R122). -/
def immUJOf (m : UjMidBits) (w : Word) : BitVec 21 :=
  (w.extractLsb' 31 1).setWidth 21 <<< 20 ||| (w.extractLsb' 12 8).setWidth 21 <<< 12 |||
    (w.extractLsb' 20 1).setWidth 21 <<< 11 ||| (w.extractLsb' 21 3).setWidth 21 <<< 1 |||
    (immUJMid m w).setWidth 21 <<< 4

/-- The Decoded Instruction record: every field and all five immediates, whatever the opcode (rules R111, R115, R117). -/
structure Fields where
  opcode : BitVec 7
  rd : RegIdx
  func3 : BitVec 3
  rs1 : RegIdx
  rs2 : RegIdx
  func7 : BitVec 7
  immI : BitVec 12
  immS : BitVec 12
  immSB : BitVec 13
  immU : BitVec 20
  immUJ : BitVec 21
  deriving DecidableEq, Repr

/-- The record of a word under a reading of UJ_MID_BITS; it depends on the word alone (rule R134). -/
def fieldsOf (m : UjMidBits) (w : Word) : Fields where
  opcode := opcodeOf w
  rd := rdOf w
  func3 := func3Of w
  rs1 := rs1Of w
  rs2 := rs2Of w
  func7 := func7Of w
  immI := immIOf w
  immS := immSOf w
  immSB := immSBOf w
  immU := immUOf w
  immUJ := immUJOf m w

/-- The pair of numbers that selects a register-register instruction (rule R127). -/
def Fields.rKey (f : Fields) : RKey := ⟨f.func3, f.func7⟩

-- ## The opcode numbers

/-- OPCODE_MAP as the machine runs: the default, the RV32I base values (rules R126 to R130, decision D1). DESIGN CHOICE of
the spec, log entry 10. -/
def opcodeMap : OpcodeMap where
  opcR := 0x33#7
  opcI := 0x13#7
  opcLoad := 0x03#7
  opcJalr := 0x67#7
  opcS := 0x23#7
  opcSB := 0x63#7
  opcU := 0x37#7
  opcUJ := 0x6F#7
  add := ⟨0#3, 0x00#7⟩
  sub := ⟨0#3, 0x20#7⟩
  xor := ⟨4#3, 0x00#7⟩
  or := ⟨6#3, 0x00#7⟩
  and := ⟨7#3, 0x00#7⟩
  sll := ⟨1#3, 0x00#7⟩
  srl := ⟨5#3, 0x00#7⟩
  sra := ⟨5#3, 0x20#7⟩
  slt := ⟨2#3, 0x00#7⟩
  sltu := ⟨3#3, 0x00#7⟩
  addi := 0#3
  xori := 4#3
  ori := 6#3
  andi := 7#3
  slti := 2#3
  sltiu := 3#3
  lb := 0#3
  lbu := 4#3
  lh := 1#3
  lw := 2#3
  jalr := 0#3
  sb := 0#3
  sh := 1#3
  sw := 2#3
  beq := 0#3
  bne := 1#3
  blt := 4#3
  bge := 5#3
  bltu := 6#3
  bgeu := 7#3

-- ## Dispatch: each function takes the numbers as its first argument

/-- Class R by func3 and func7, both exactly as the map lists them (rule R127). -/
def dispatchR (m : OpcodeMap) (f : Fields) : Option Instr :=
  if f.rKey = m.add then some (.add f.rd f.rs1 f.rs2)
  else if f.rKey = m.sub then some (.sub f.rd f.rs1 f.rs2)
  else if f.rKey = m.xor then some (.xor f.rd f.rs1 f.rs2)
  else if f.rKey = m.or then some (.or f.rd f.rs1 f.rs2)
  else if f.rKey = m.and then some (.and f.rd f.rs1 f.rs2)
  else if f.rKey = m.sll then some (.sll f.rd f.rs1 f.rs2)
  else if f.rKey = m.srl then some (.srl f.rd f.rs1 f.rs2)
  else if f.rKey = m.sra then some (.sra f.rd f.rs1 f.rs2)
  else if f.rKey = m.slt then some (.slt f.rd f.rs1 f.rs2)
  else if f.rKey = m.sltu then some (.sltu f.rd f.rs1 f.rs2)
  else none

/-- Immediate ALU by func3 (rule R128). -/
def dispatchI (m : OpcodeMap) (f : Fields) : Option Instr :=
  if f.func3 = m.addi then some (.addi f.rd f.rs1 f.immI)
  else if f.func3 = m.xori then some (.xori f.rd f.rs1 f.immI)
  else if f.func3 = m.ori then some (.ori f.rd f.rs1 f.immI)
  else if f.func3 = m.andi then some (.andi f.rd f.rs1 f.immI)
  else if f.func3 = m.slti then some (.slti f.rd f.rs1 f.immI)
  else if f.func3 = m.sltiu then some (.sltiu f.rd f.rs1 f.immI)
  else none

/-- Loads by func3 (rule R129). -/
def dispatchLoad (m : OpcodeMap) (f : Fields) : Option Instr :=
  if f.func3 = m.lb then some (.lb f.rd f.rs1 f.immI)
  else if f.func3 = m.lbu then some (.lbu f.rd f.rs1 f.immI)
  else if f.func3 = m.lh then some (.lh f.rd f.rs1 f.immI)
  else if f.func3 = m.lw then some (.lw f.rd f.rs1 f.immI)
  else none

/-- jalr has one func3 (rule R130). -/
def dispatchJalr (m : OpcodeMap) (f : Fields) : Option Instr :=
  if f.func3 = m.jalr then some (.jalr f.rd f.rs1 f.immI) else none

/-- Stores by func3 (rule R130). -/
def dispatchS (m : OpcodeMap) (f : Fields) : Option Instr :=
  if f.func3 = m.sb then some (.sb f.rs1 f.rs2 f.immS)
  else if f.func3 = m.sh then some (.sh f.rs1 f.rs2 f.immS)
  else if f.func3 = m.sw then some (.sw f.rs1 f.rs2 f.immS)
  else none

/-- Branches by func3 (rule R130). -/
def dispatchSB (m : OpcodeMap) (f : Fields) : Option Instr :=
  if f.func3 = m.beq then some (.beq f.rs1 f.rs2 f.immSB)
  else if f.func3 = m.bne then some (.bne f.rs1 f.rs2 f.immSB)
  else if f.func3 = m.blt then some (.blt f.rs1 f.rs2 f.immSB)
  else if f.func3 = m.bge then some (.bge f.rs1 f.rs2 f.immSB)
  else if f.func3 = m.bltu then some (.bltu f.rs1 f.rs2 f.immSB)
  else if f.func3 = m.bgeu then some (.bgeu f.rs1 f.rs2 f.immSB)
  else none

/-- Dispatch by opcode, func3 and func7; every record not selected is an unimplemented instruction (rules R126 to R131). -/
def dispatch (m : OpcodeMap) (f : Fields) : Option Instr :=
  if f.opcode = m.opcR then dispatchR m f
  else if f.opcode = m.opcI then dispatchI m f
  else if f.opcode = m.opcLoad then dispatchLoad m f
  else if f.opcode = m.opcJalr then dispatchJalr m f
  else if f.opcode = m.opcS then dispatchS m f
  else if f.opcode = m.opcSB then dispatchSB m f
  else if f.opcode = m.opcU then some (.lui f.rd f.immU)
  else if f.opcode = m.opcUJ then some (.jal f.rd f.immUJ)
  else none

/-- The instruction a word selects under an OPCODE_MAP and a reading of UJ_MID_BITS (rules R111, R134). -/
def decodeWith (m : OpcodeMap) (uj : UjMidBits) (w : Word) : Option Instr := dispatch m (fieldsOf uj w)

/-- The instruction a word selects on this machine, or none: an unimplemented instruction (rules R131, R134). -/
def decode (w : Word) : Option Instr := decodeWith opcodeMap ujMidBits w

/-- What the bytes at the front of a list hold. -/
inductive DecodeResult where
  /-- An instruction, and the bytes after it. -/
  | instr (i : Instr) (rest : List Byte)
  /-- A word that selects none of the 32 instructions (rule R131). -/
  | unimplementedInstruction (w : Word)
  /-- Fewer than the four bytes every instruction has (rule R114). -/
  | truncated
  deriving DecidableEq, Repr

/-- Decoding is total on byte lists: four bytes, little-endian, then dispatch (rules R10, R110, R114). -/
def decodeBytes : List Byte → DecodeResult
  | b0 :: b1 :: b2 :: b3 :: rest =>
    match decode (wordOfBytes b0 b1 b2 b3) with
    | some i => .instr i rest
    | none => .unimplementedInstruction (wordOfBytes b0 b1 b2 b3)
  | _ => .truncated

/-- The low `nbits` bits of `w` as an instruction word, the bits above them 0. -/
def tableWord (nbits w : Nat) : Word := BitVec.ofNat 32 (w % 2 ^ nbits)

/-- The host's question: the instruction the decoder reads from the word `w` of a table row with `nbits` bits, laid out
as the instruction store holds it (lowest byte first). -/
def decodeTableWord (nbits w : Nat) : Option Instr :=
  match decodeBytes (bytesOfInstr (tableWord nbits w)) with
  | .instr i _ => some i
  | .unimplementedInstruction _ => none
  | .truncated => none

-- ## Encoders (rule R135)

/-- Format R. -/
def encR (op : BitVec 7) (rd : RegIdx) (f3 : BitVec 3) (rs1 rs2 : RegIdx) (f7 : BitVec 7) : Word :=
  op.setWidth 32 ||| rd.setWidth 32 <<< 7 ||| f3.setWidth 32 <<< 12 ||| rs1.setWidth 32 <<< 15 |||
    rs2.setWidth 32 <<< 20 ||| f7.setWidth 32 <<< 25

/-- Format I. -/
def encI (op : BitVec 7) (rd : RegIdx) (f3 : BitVec 3) (rs1 : RegIdx) (imm : BitVec 12) : Word :=
  op.setWidth 32 ||| rd.setWidth 32 <<< 7 ||| f3.setWidth 32 <<< 12 ||| rs1.setWidth 32 <<< 15 |||
    imm.setWidth 32 <<< 20

/-- Format S. -/
def encS (op : BitVec 7) (f3 : BitVec 3) (rs1 rs2 : RegIdx) (imm : BitVec 12) : Word :=
  op.setWidth 32 ||| (imm.extractLsb' 0 5).setWidth 32 <<< 7 ||| f3.setWidth 32 <<< 12 ||| rs1.setWidth 32 <<< 15 |||
    rs2.setWidth 32 <<< 20 ||| (imm.extractLsb' 5 7).setWidth 32 <<< 25

/-- Format SB. -/
def encSB (op : BitVec 7) (f3 : BitVec 3) (rs1 rs2 : RegIdx) (imm : BitVec 13) : Word :=
  op.setWidth 32 ||| (imm.extractLsb' 11 1).setWidth 32 <<< 7 ||| (imm.extractLsb' 1 4).setWidth 32 <<< 8 |||
    f3.setWidth 32 <<< 12 ||| rs1.setWidth 32 <<< 15 ||| rs2.setWidth 32 <<< 20 |||
    (imm.extractLsb' 5 6).setWidth 32 <<< 25 ||| (imm.extractLsb' 12 1).setWidth 32 <<< 31

/-- Format U; the operand is imm20 = `immU >> 12` (rule R260). -/
def encU (op : BitVec 7) (rd : RegIdx) (imm : BitVec 20) : Word :=
  op.setWidth 32 ||| rd.setWidth 32 <<< 7 ||| imm.setWidth 32 <<< 12

/-- Format UJ. -/
def encUJ (op : BitVec 7) (rd : RegIdx) (imm : BitVec 21) : Word :=
  op.setWidth 32 ||| rd.setWidth 32 <<< 7 ||| (imm.extractLsb' 12 8).setWidth 32 <<< 12 |||
    (imm.extractLsb' 11 1).setWidth 32 <<< 20 ||| (imm.extractLsb' 1 10).setWidth 32 <<< 21 |||
    (imm.extractLsb' 20 1).setWidth 32 <<< 31

/-- The word of a well-formed instruction under an OPCODE_MAP, with UJ_MID_BITS = present (rule R135). -/
def encodeWith (m : OpcodeMap) : Instr → Word
  | .add rd rs1 rs2 => encR m.opcR rd m.add.func3 rs1 rs2 m.add.func7
  | .sub rd rs1 rs2 => encR m.opcR rd m.sub.func3 rs1 rs2 m.sub.func7
  | .xor rd rs1 rs2 => encR m.opcR rd m.xor.func3 rs1 rs2 m.xor.func7
  | .or rd rs1 rs2 => encR m.opcR rd m.or.func3 rs1 rs2 m.or.func7
  | .and rd rs1 rs2 => encR m.opcR rd m.and.func3 rs1 rs2 m.and.func7
  | .sll rd rs1 rs2 => encR m.opcR rd m.sll.func3 rs1 rs2 m.sll.func7
  | .srl rd rs1 rs2 => encR m.opcR rd m.srl.func3 rs1 rs2 m.srl.func7
  | .sra rd rs1 rs2 => encR m.opcR rd m.sra.func3 rs1 rs2 m.sra.func7
  | .slt rd rs1 rs2 => encR m.opcR rd m.slt.func3 rs1 rs2 m.slt.func7
  | .sltu rd rs1 rs2 => encR m.opcR rd m.sltu.func3 rs1 rs2 m.sltu.func7
  | .addi rd rs1 imm => encI m.opcI rd m.addi rs1 imm
  | .xori rd rs1 imm => encI m.opcI rd m.xori rs1 imm
  | .ori rd rs1 imm => encI m.opcI rd m.ori rs1 imm
  | .andi rd rs1 imm => encI m.opcI rd m.andi rs1 imm
  | .slti rd rs1 imm => encI m.opcI rd m.slti rs1 imm
  | .sltiu rd rs1 imm => encI m.opcI rd m.sltiu rs1 imm
  | .lb rd rs1 imm => encI m.opcLoad rd m.lb rs1 imm
  | .lbu rd rs1 imm => encI m.opcLoad rd m.lbu rs1 imm
  | .lh rd rs1 imm => encI m.opcLoad rd m.lh rs1 imm
  | .lw rd rs1 imm => encI m.opcLoad rd m.lw rs1 imm
  | .jalr rd rs1 imm => encI m.opcJalr rd m.jalr rs1 imm
  | .sb rs1 rs2 imm => encS m.opcS m.sb rs1 rs2 imm
  | .sh rs1 rs2 imm => encS m.opcS m.sh rs1 rs2 imm
  | .sw rs1 rs2 imm => encS m.opcS m.sw rs1 rs2 imm
  | .beq rs1 rs2 off => encSB m.opcSB m.beq rs1 rs2 off
  | .bne rs1 rs2 off => encSB m.opcSB m.bne rs1 rs2 off
  | .blt rs1 rs2 off => encSB m.opcSB m.blt rs1 rs2 off
  | .bge rs1 rs2 off => encSB m.opcSB m.bge rs1 rs2 off
  | .bltu rs1 rs2 off => encSB m.opcSB m.bltu rs1 rs2 off
  | .bgeu rs1 rs2 off => encSB m.opcSB m.bgeu rs1 rs2 off
  | .lui rd imm => encU m.opcU rd imm
  | .jal rd off => encUJ m.opcUJ rd off

/-- The word of a well-formed instruction, with the numbers of opcode_table.json (rule R135). -/
def encode (i : Instr) : Word := encodeWith opcodeMap i

-- ## The opcode table, as the spec prints it

/-- A row of spec/opcode_table.json: a word `w` is of the row when `w &&& mask = value`. -/
structure OpcodeRow where
  mnemonic : String
  mask : Word
  value : Word
  deriving DecidableEq, Repr

/-- Rows of spec/opcode_table.json (rule R127). -/
def opcodeRowsR : List OpcodeRow := [
  ⟨"add", 0xFE00707F#32, 0x00000033#32⟩,
  ⟨"sub", 0xFE00707F#32, 0x40000033#32⟩,
  ⟨"xor", 0xFE00707F#32, 0x00004033#32⟩,
  ⟨"or", 0xFE00707F#32, 0x00006033#32⟩,
  ⟨"and", 0xFE00707F#32, 0x00007033#32⟩,
  ⟨"sll", 0xFE00707F#32, 0x00001033#32⟩,
  ⟨"srl", 0xFE00707F#32, 0x00005033#32⟩,
  ⟨"sra", 0xFE00707F#32, 0x40005033#32⟩,
  ⟨"slt", 0xFE00707F#32, 0x00002033#32⟩,
  ⟨"sltu", 0xFE00707F#32, 0x00003033#32⟩]

/-- Rows of spec/opcode_table.json (rule R128). -/
def opcodeRowsI : List OpcodeRow := [
  ⟨"addi", 0x0000707F#32, 0x00000013#32⟩,
  ⟨"xori", 0x0000707F#32, 0x00004013#32⟩,
  ⟨"ori", 0x0000707F#32, 0x00006013#32⟩,
  ⟨"andi", 0x0000707F#32, 0x00007013#32⟩,
  ⟨"slti", 0x0000707F#32, 0x00002013#32⟩,
  ⟨"sltiu", 0x0000707F#32, 0x00003013#32⟩]

/-- Rows of spec/opcode_table.json (rule R129). -/
def opcodeRowsLoad : List OpcodeRow := [
  ⟨"lb", 0x0000707F#32, 0x00000003#32⟩,
  ⟨"lbu", 0x0000707F#32, 0x00004003#32⟩,
  ⟨"lh", 0x0000707F#32, 0x00001003#32⟩,
  ⟨"lw", 0x0000707F#32, 0x00002003#32⟩]

/-- Rows of spec/opcode_table.json (rule R130). -/
def opcodeRowsJalr : List OpcodeRow := [
  ⟨"jalr", 0x0000707F#32, 0x00000067#32⟩]

/-- Rows of spec/opcode_table.json (rule R130). -/
def opcodeRowsS : List OpcodeRow := [
  ⟨"sb", 0x0000707F#32, 0x00000023#32⟩,
  ⟨"sh", 0x0000707F#32, 0x00001023#32⟩,
  ⟨"sw", 0x0000707F#32, 0x00002023#32⟩]

/-- Rows of spec/opcode_table.json (rule R130). -/
def opcodeRowsSB : List OpcodeRow := [
  ⟨"beq", 0x0000707F#32, 0x00000063#32⟩,
  ⟨"bne", 0x0000707F#32, 0x00001063#32⟩,
  ⟨"blt", 0x0000707F#32, 0x00004063#32⟩,
  ⟨"bge", 0x0000707F#32, 0x00005063#32⟩,
  ⟨"bltu", 0x0000707F#32, 0x00006063#32⟩,
  ⟨"bgeu", 0x0000707F#32, 0x00007063#32⟩]

/-- Rows of spec/opcode_table.json (rule R130). -/
def opcodeRowsU : List OpcodeRow := [
  ⟨"lui", 0x0000007F#32, 0x00000037#32⟩]

/-- Rows of spec/opcode_table.json (rule R130). -/
def opcodeRowsUJ : List OpcodeRow := [
  ⟨"jal", 0x0000007F#32, 0x0000006F#32⟩]

/-- The whole opcode table. -/
def opcodeTable : List OpcodeRow :=
  opcodeRowsR ++ opcodeRowsI ++ opcodeRowsLoad ++ opcodeRowsJalr ++ opcodeRowsS ++ opcodeRowsSB ++ opcodeRowsU ++
    opcodeRowsUJ

/-- The word is of the row. -/
abbrev OpcodeRow.matches (r : OpcodeRow) (w : Word) : Prop := w &&& r.mask = r.value

/-- The mnemonic of an instruction, as the table spells it. -/
def mnemonicOf : Instr → String
  | .add _ _ _ => "add"
  | .sub _ _ _ => "sub"
  | .xor _ _ _ => "xor"
  | .or _ _ _ => "or"
  | .and _ _ _ => "and"
  | .sll _ _ _ => "sll"
  | .srl _ _ _ => "srl"
  | .sra _ _ _ => "sra"
  | .slt _ _ _ => "slt"
  | .sltu _ _ _ => "sltu"
  | .addi _ _ _ => "addi"
  | .xori _ _ _ => "xori"
  | .ori _ _ _ => "ori"
  | .andi _ _ _ => "andi"
  | .slti _ _ _ => "slti"
  | .sltiu _ _ _ => "sltiu"
  | .lb _ _ _ => "lb"
  | .lbu _ _ _ => "lbu"
  | .lh _ _ _ => "lh"
  | .lw _ _ _ => "lw"
  | .jalr _ _ _ => "jalr"
  | .sb _ _ _ => "sb"
  | .sh _ _ _ => "sh"
  | .sw _ _ _ => "sw"
  | .beq _ _ _ => "beq"
  | .bne _ _ _ => "bne"
  | .blt _ _ _ => "blt"
  | .bge _ _ _ => "bge"
  | .bltu _ _ _ => "bltu"
  | .bgeu _ _ _ => "bgeu"
  | .lui _ _ => "lui"
  | .jal _ _ => "jal"

end Sys2Proof
end

