-- ==== Sys2Proof/Machine/Params.lean ====
section
/-!
DEFINITION. The values of the named parameters that the machine runs with (00_scope.md rule R7): HEAP_BASE, heap_init,
shiftOversize and the input oracle stay open, the others take the spec's defaults.
-/

namespace Sys2Proof.Machine

/-- The parameters in force. HEAP_BASE, heap_init, shiftOversize and the input oracle are the constants of Config, which
nothing constrains further (log entries 1, 2, 4, 11, 12). The others are defaults, each a DESIGN CHOICE of the spec:
SRA_REINSERT = sign (D5, log entry 5), UJ_MID_BITS = present (D4, log entry 6), BRANCH_CHECK = always (D20, log entry 7),
MALLOC_SIZE_FROM_VALUE = false (D17, log entry 8), FREE_OUT_OF_HEAP = noop (D19, log entry 9), OPCODE_MAP = RV32I (D1, log
entry 10). -/
def params : Params where
  heapBase := Config.heapBase
  heapInit := Config.heapInit
  shiftOversize := Config.shiftOversize
  sraReinsert := .sign
  ujMidBits := ujMidBits
  branchCheck := .always
  mallocSizeFromValue := false
  freeOutOfHeap := .noop
  opcodeMap := opcodeMap
  hostInput := Config.hostInput

end Sys2Proof.Machine
end

