-- ==== Sys2Proof/Machine/State.lean ====
section
/-!
DEFINITION. The complete machine state (10_state.md rule R36), its value at reset (rule R37), the output events
(20_memory.md rule R62) and the reasons a step can stop (60_exceptions.md rules R300 and R306).
-/

namespace Sys2Proof.Machine

/-- A memory: the bytes that have been placed or written, by address, in one canonical form (`Memory.wf`: addresses
strictly rising). An address that is not listed holds no written byte; what it reads as is the launch's byte, a free
value (`State.istoreByte`, `State.heapByte`). Log entry 22. -/
abbrev Memory := List Host.Cell

/-- The two fatal categories; the source gives them no numbers (rule R304). -/
inductive FatalCause where
  /-- Raised by dispatch for a word outside the 32 instructions (rule R301). -/
  | unimplementedInstruction
  /-- Raised by a control-flow target or a load or store address out of its range (rule R302). -/
  | illegalOperation
  deriving DecidableEq, Repr

/-- Running, or one of the terminal states of the hardware (rules R35, R300). The model-only `Refused(reason)` of rule
R300 is the refused outcome of a step (log entry 15). -/
inductive RunStatus where
  | running
  /-- Fetch with the pc at 1024 or above (rule R25). -/
  | exited
  /-- Store to port 2060 (rule R66). -/
  | halted
  /-- A fatal condition, with what rules R301 and R302 record: the word, or the offending target or address, and the
  pc of the instruction. -/
  | fatal (cause : FatalCause) (value : Word) (atPc : Word)
  deriving DecidableEq, Repr

/-- The output events (rule R62). Their text is the host's (log entry 19). -/
inductive OutEvent where
  /-- `Char(b)`. -/
  | char (b : Byte)
  /-- `Dec(s)`, a signed 32-bit integer. -/
  | dec (n : Int)
  /-- `Hex(u)`, an unsigned 32-bit integer. -/
  | hex (n : Nat)
  /-- `HaltNotice`. -/
  | haltNotice
  /-- `DumpPc(p)`. -/
  | dumpPc (p : Word)
  /-- `DumpRegs(p, r0..r31)`. -/
  | dumpRegs (p : Word) (r : Vector Word 32)
  /-- `DumpByte(b)`. -/
  | dumpByte (b : Byte)
  /-- `FatalDump(cause, p, r0..r31)` (rule R303). -/
  | fatalDump (cause : FatalCause) (p : Word) (r : Vector Word 32)
  deriving DecidableEq, Repr

/-- The machine state: the record of rule R36, and the position in the host's input stream, which rule R34 (3) names. The
stream itself is a parameter (`Params.hostInput`; rule R73), no state. Log entry 11. -/
structure State where
  /-- x[0..31]; read and written through `State.readReg` and `State.writeReg`, which hard-wire x0 (rules R20, R21). Log
  entry 24. -/
  regs : Vector Word 32
  /-- The program counter: the address of the instruction being executed (rule R23). -/
  pc : Word
  /-- The instruction store, addresses 0..1023 (rule R30). -/
  istore : Memory
  /-- The payload bytes of the 128 banks, by data address HEAP_BASE..HEAP_BASE+8191 (rule R31). -/
  heap : Memory
  /-- The allocation tag of each bank, 0 = free (rule R31). -/
  tags : Vector Word 128
  /-- The allocation id generator (rule R32). -/
  nextId : Nat
  /-- The output events, oldest first (rule R62). -/
  out : List OutEvent
  /-- Running or terminal (rule R35). -/
  status : RunStatus
  /-- The position in the host's input stream: how many of its characters have been consumed (rule R34 (3)). Log entry 11. -/
  inputPos : Nat
  /-- How many read-port loads have been answered, so that the next one takes the next answer (rules R34 (3), R73). Log
  entry 11. -/
  reads : Nat
  deriving DecidableEq, Repr

/-- The machine when its first instruction is fetched (rules R37 and R340). The image and the heap contents of the
launch are the free values that unlisted addresses read as (log entries 2 and 3). -/
def State.reset : State where
  regs := Vector.replicate 32 0#32
  pc := 0#32
  istore := []
  heap := []
  tags := Vector.replicate 128 0#32
  nextId := 1
  out := []
  status := .running
  inputPos := 0
  reads := 0

/-- Why the machine stops. -/
inductive Fault where
  /-- Raised by `step` alone, in a terminal state: once terminal, the machine takes no further step (rule R35). Safe:
  the hardware takes no step there either. Log entry 16. -/
  | terminated (status : RunStatus)
  deriving DecidableEq, Repr

/-- Why a step has no meaning. All but the first are the spec's own refusals (rule R306): safe, since nothing can be
proved of a run that reaches one (log entry 23). -/
inductive Refusal where
  /-- An instruction of the table without a meaning; raised by `exec` alone, and by no arm of this model. Safe. -/
  | notModelled (mnemonic : String)
  /-- Raised by `step`: fetch at a pc in [0, 1024) that is no multiple of 4 (rules R26, R110). Safe. -/
  | misalignedFetch
  /-- Raised by lh, lw, sh and sw: the bytes of the access leave the owning bank (rule R57). Safe. -/
  | crossBankAccess
  /-- Raised by a store to port 2088 whose value is no heap address (rule R69). Safe. -/
  | dumpAddressOutOfHeap
  /-- Raised by a store to port 2096 that would stamp id 2^32 (rule R84). Safe. -/
  | allocIdExhausted
  deriving DecidableEq, Repr

/-- The outcome of an instruction or a step. -/
abbrev Res := Host.Outcome State Fault Refusal

end Sys2Proof.Machine
end

