-- ==== Sys2Proof/Machine/Ops.lean ====
section
/-!
DEFINITION. The named operations over registers, pc, memories, output and status, and the one operation that takes a
fatal condition. There is no return from a fatal condition: nothing executes after one (60_exceptions.md rule R310).
-/

namespace Sys2Proof.Machine

-- ## Memories in canonical form

/-- The canonical form: addresses strictly rising, so none is listed twice. -/
abbrev Memory.wf (m : Memory) : Prop := m.Pairwise (fun c d => c.1 < d.1)

/-- Every listed address lies in [lo, hi). -/
abbrev Memory.within (m : Memory) (lo hi : Nat) : Prop := ∀ c ∈ m, lo ≤ c.1 ∧ c.1 < hi

/-- The byte placed or written at an address, none where there is none. -/
def Memory.get : Memory → Nat → Option Byte
  | [], _ => none
  | (k, b) :: rest, a => if k = a then some b else Memory.get rest a

/-- Place or write the byte at an address, keeping the addresses rising. -/
def Memory.set : Memory → Nat → Byte → Memory
  | [], a, v => [(a, v)]
  | (k, b) :: rest, a, v =>
    if a < k then (a, v) :: (k, b) :: rest
    else if a = k then (a, v) :: rest
    else (k, b) :: Memory.set rest a v

-- ## Primitive updates of the state: each changes the fields it names and no other

/-- The next state with another pc. -/
def State.setPc (s : State) (t : Word) : State := { s with pc := t }

/-- Another run status. -/
def State.setStatus (s : State) (st : RunStatus) : State := { s with status := st }

/-- `emit(E)`: append an output event (rules R11, R62). -/
def State.emit (s : State) (e : OutEvent) : State := { s with out := s.out ++ [e] }

/-- `x[i] <- v`: a write to x0 is discarded (rules R11, R21). -/
def State.writeReg (s : State) (r : RegIdx) (v : Word) : State :=
  if r = 0#5 then s else { s with regs := s.regs.set r.toNat v r.isLt }

/-- One heap byte, at a data address (rule R31). -/
def State.setHeapByte (s : State) (a : Nat) (b : Byte) : State := { s with heap := s.heap.set a b }

/-- One byte of the instruction store: only the load of an image does this (rules R30, R342). -/
def State.setImageByte (s : State) (a : Nat) (b : Byte) : State := { s with istore := s.istore.set a b }

/-- The tags and the id generator, which change together (rules R84, R92). -/
def State.setBanks (s : State) (tags : Vector Word 128) (nextId : Nat) : State :=
  { s with tags := tags, nextId := nextId }

/-- One more read-port load answered, `k` characters consumed (rules R34 (3), R73). -/
def State.tookInput (s : State) (k : Nat) : State := { s with inputPos := s.inputPos + k, reads := s.reads + 1 }

-- ## Registers and pc

/-- `x[i]`: x0 reads 0 (rules R11, R21). -/
def State.readReg (s : State) (r : RegIdx) : Word :=
  if r = 0#5 then 0#32 else s.regs[r.toNat]'r.isLt

/-- `x[0], ..., x[31]` as the dumps show them (rules R68, R303). -/
def State.regView (s : State) : Vector Word 32 := Vector.ofFn fun i => s.readReg (BitVec.ofFin i)

/-- The default advance, `pc <- pc + 4` (rules R24, R112). -/
def State.advance (s : State) : State := s.setPc (s.pc + 4#32)

/-- Write a result and advance: the end of every instruction of rule R113 whose rd is not 0. -/
def State.retire (s : State) (rd : RegIdx) (v : Word) : State := (s.writeReg rd v).advance

-- ## Memories as the instructions see them

/-- The byte of the instruction store at an address: the one placed there, else the image's (rules R30, R37). -/
def State.istoreByte (s : State) (a : Nat) : Byte := (s.istore.get a).getD (Config.image a)

/-- `H(a)`, the heap byte at a data address: the one last written there, else heap_init's (rules R31, R37, R100). -/
def State.heapByte (p : Params) (s : State) (a : Nat) : Byte := (s.heap.get a).getD (p.heapInit (a - p.heapBase))

/-- The heap range, [HEAP_BASE, HEAP_BASE + 8192) (rules R50, R55). The first clause follows from the second by rule R52
(`Params.wf`; `inHeap_iff`); it stands first so that no check of an address below 2101 asks for the open constant. -/
abbrev inHeap (p : Params) (a : Word) : Prop :=
  2101 ≤ u32 a ∧ p.heapBase ≤ u32 a ∧ u32 a < p.heapBase + 8192

/-- `k`, the bank that owns a heap address (rule R55). -/
def bankOf (p : Params) (a : Word) : Nat := (u32 a - p.heapBase) / 64

/-- `j`, the place of a heap address in its bank (rule R55). -/
def bankOffset (p : Params) (a : Word) : Nat := (u32 a - p.heapBase) % 64

/-- The access of `n` bytes at a heap address runs past the end of its bank (rule R57). -/
abbrev crossesBank (p : Params) (a : Word) (n : Nat) : Prop := bankOffset p a + n > 64

/-- `n` heap bytes from an address up (rule R55). -/
def State.heapBytes (p : Params) (s : State) (a : Nat) : Nat → List Byte
  | 0 => []
  | n + 1 => s.heapByte p a :: State.heapBytes p s (a + 1) n

/-- The bytes in order, from an address up (rule R56). -/
def State.setHeapBytes (s : State) (a : Nat) : List Byte → State
  | [] => s
  | b :: bs => State.setHeapBytes (s.setHeapByte a b) (a + 1) bs

-- ## Ends of a run

/-- Take a fatal condition (rules R301 to R303): the dump of the pc and the registers as they stand, then the terminal
state; nothing else changes, the pc included. -/
def State.raiseFatal (s : State) (cause : FatalCause) (value : Word) : State :=
  (s.emit (.fatalDump cause s.pc s.regView)).setStatus (.fatal cause value s.pc)

/-- `raise IllegalOperation(addr)` (rule R302). -/
def raiseIllegal (s : State) (addr : Word) : Res := .next (s.raiseFatal .illegalOperation addr)

/-- `raise UnimplementedInstruction(w)` (rule R301). -/
def raiseUnimplemented (s : State) (w : Word) : Res := .next (s.raiseFatal .unimplementedInstruction w)

/-- The halt of port 2060: the notice, then the terminal state; the pc is not advanced (rule R66). -/
def State.halt (s : State) : State := (s.emit .haltNotice).setStatus .halted

/-- The process exit status of a terminal state (rule R300). -/
def RunStatus.exitStatus : RunStatus → Option Nat
  | .running => none
  | .exited => some 0
  | .halted => some 1
  | .fatal _ _ _ => some 1

-- ## Control flow

/-- A control-flow target or checked address lies in [0, 1020] (rules R210, R240, R270). -/
abbrev inWindow (t : Word) : Prop := u32 t ≤ 1020

/-- The jump of jal and jalr: the check comes before the link write, and rd = 0 suppresses only the link (rules R113,
R210, R270). -/
def jumpAndLink (rd : RegIdx) (t : Word) (s : State) : Res :=
  if inWindow t then .next ((s.writeReg rd (s.pc + 4#32)).setPc t) else raiseIllegal s t

/-- A branch: `t` is the target, `c` the address checked (rule R240). -/
def branch (p : Params) (taken : Bool) (t c : Word) (s : State) : Res :=
  if (p.branchCheck = .always ∨ taken = true) ∧ ¬ inWindow c then raiseIllegal s c
  else if taken = true then .next (s.setPc t)
  else .next s.advance

-- ## Placing an image (rule R342): the host's move, which no step makes

/-- Place the bytes of an image from an address up. -/
def State.placeImage (s : State) (a : Nat) : List Byte → State
  | [] => s
  | b :: bs => State.placeImage (s.setImageByte a b) (a + 1) bs

end Sys2Proof.Machine
end

