-- ==== Sys2Proof/Machine/Operands.lean ====
section
/-!
DEFINITION. Operand forms: extension (00_scope.md rule R9), the extended immediates (30_encoding.md rules R118 to R122),
effective addresses (42_loads.md rule R191, 44_stores.md rule R221), shifts (40_alu_register.md rules R151 to R159), the
bytes of a stored value (20_memory.md rule R56) and the combining of loaded bytes (42_loads.md rules R194 to R196).
-/

namespace Sys2Proof.Machine

-- ## Immediates

/-- immI and immS: sign extension from bit 11 (rules R118, R119). -/
def immWord12 (imm : BitVec 12) : Word := imm.signExtend 32

/-- immSB: sign extension from bit 12 (rule R120). -/
def immWordSB (off : BitVec 13) : Word := off.signExtend 32

/-- immU: the 20 bits at the top, bits 11..0 zero (rule R121). -/
def immWordU (imm : BitVec 20) : Word := imm.setWidth 32 <<< 12

/-- immUJ: sign extension from bit 20 (rule R122). -/
def immWordUJ (off : BitVec 21) : Word := off.signExtend 32

-- ## Addresses

/-- Base plus 12-bit signed displacement, modulo 2^32: the only addressing mode (rules R191, R221). -/
def effAddr (s : State) (rs1 : RegIdx) (imm : BitVec 12) : Word := s.readReg rs1 + immWord12 imm

/-- The target of a branch (rule R240). -/
def branchTarget (s : State) (off : BitVec 13) : Word := s.pc + immWordSB off

/-- The address beq checks, by its quirk: the doubled immediate (rule R241). -/
def beqCheck (s : State) (off : BitVec 13) : Word := s.pc + (immWordSB off <<< 1)

/-- The target of jal (rule R270). -/
def jalTarget (s : State) (off : BitVec 21) : Word := s.pc + immWordUJ off

-- ## Shifts: the amount is the whole register value (rule R151)

/-- sll: open for an amount of 32 or more (rules R151, R157). -/
def shiftLeftLogical (p : Params) (a n : Word) : Word := if u32 n ≤ 31 then a <<< u32 n else p.shiftOversize .sll a n

/-- srl: open for an amount of 32 or more (rules R151, R158). -/
def shiftRightLogical (p : Params) (a n : Word) : Word := if u32 n ≤ 31 then a >>> u32 n else p.shiftOversize .srl a n

/-- One pass of the sra loop: shift right by one and put a bit back at the top (rule R159). -/
def sraPass (r : SraReinsert) (v : Word) : Word :=
  match r with
  | .sign => (v >>> 1) ||| (if v.getLsbD 31 then 0x80000000#32 else 0#32)
  | .low => (v >>> 1) ||| (if v.getLsbD 0 then 0x80000000#32 else 0#32)

/-- The sra loop as the source runs it, `n` passes (rule R159). The meaning uses `shiftRightArith`, which is stated to
equal it (log entry 21). -/
def sraLoop (r : SraReinsert) : Nat → Word → Word
  | 0, v => v
  | n + 1, v => sraLoop r n (sraPass r v)

/-- sra in the closed form rule R159 gives: an arithmetic shift by min(n, 31), or a rotate by n mod 32. -/
def shiftRightArith (r : SraReinsert) (a n : Word) : Word :=
  match r with
  | .sign => a.sshiftRight (min (u32 n) 31)
  | .low => a.rotateRight (u32 n % 32)

-- ## Bytes of a stored value and of a loaded one

/-- `v[8k+7:8k]` for k = 0 .. n-1, least-significant byte first (rules R54, R56). -/
def storeBytes (v : Word) (n : Nat) : List Byte := (List.range n).map fun k => v.extractLsb' (8 * k) 8

/-- lb: `sext_8(B0)` (rule R195). -/
def combineSigned (bs : List Byte) : Word := (bs.headD 0#8).signExtend 32

/-- lbu: `zext_8(B0)` (rule R196). -/
def combineUnsigned (bs : List Byte) : Word := (bs.headD 0#8).setWidth 32

/-- lh and lw: ORB, the zero-extended OR of the bytes, none of them shifted (rule R194). -/
def combineOr (bs : List Byte) : Word := (bs.foldl (fun b c => b ||| c) 0#8).setWidth 32

end Sys2Proof.Machine
end

