-- ==== Sys2Proof/Machine/Alu.lean ====
section
/-!
DEFINITION. The register-register ALU instructions (40_alu_register.md), the immediate ALU instructions
(41_alu_immediate.md) and lui (46_lui.md): one result in rd, nothing at all where rd is 0, and the pc advances by 4.
-/

namespace Sys2Proof.Machine

/-- The shape of the 17 instructions: with rd = 0 the computation is skipped (30_encoding.md rule R113). -/
def writeResult (rd : RegIdx) (v : Word) (s : State) : Res :=
  if rd = 0#5 then .next s.advance else .next (s.retire rd v)

/-- Register-register form: both operands are read before the write (rule R150). -/
def aluReg (op : Word → Word → Word) (rd rs1 rs2 : RegIdx) (s : State) : Res :=
  writeResult rd (op (s.readReg rs1) (s.readReg rs2)) s

/-- Register-immediate form, on the extended immI (rule R170). -/
def aluImm (op : Word → Word → Word) (rd rs1 : RegIdx) (imm : BitVec 12) (s : State) : Res :=
  writeResult rd (op (s.readReg rs1) (immWord12 imm)) s

-- ## Register-register

/-- Rule R152. -/
def execAdd (rd rs1 rs2 : RegIdx) (s : State) : Res := aluReg (fun a b => a + b) rd rs1 rs2 s

/-- Rule R153. -/
def execSub (rd rs1 rs2 : RegIdx) (s : State) : Res := aluReg (fun a b => a - b) rd rs1 rs2 s

/-- Rule R154. -/
def execXor (rd rs1 rs2 : RegIdx) (s : State) : Res := aluReg (fun a b => a ^^^ b) rd rs1 rs2 s

/-- Rule R155. -/
def execOr (rd rs1 rs2 : RegIdx) (s : State) : Res := aluReg (fun a b => a ||| b) rd rs1 rs2 s

/-- Rule R156. -/
def execAnd (rd rs1 rs2 : RegIdx) (s : State) : Res := aluReg (fun a b => a &&& b) rd rs1 rs2 s

/-- Rule R157, under any parameters. -/
def sllWith (p : Params) (rd rs1 rs2 : RegIdx) (s : State) : Res := aluReg (shiftLeftLogical p) rd rs1 rs2 s

/-- Rule R158, under any parameters. -/
def srlWith (p : Params) (rd rs1 rs2 : RegIdx) (s : State) : Res := aluReg (shiftRightLogical p) rd rs1 rs2 s

/-- Rule R159, under any parameters. -/
def sraWith (p : Params) (rd rs1 rs2 : RegIdx) (s : State) : Res := aluReg (shiftRightArith p.sraReinsert) rd rs1 rs2 s

/-- Rule R157. -/
def execSll (rd rs1 rs2 : RegIdx) (s : State) : Res := sllWith params rd rs1 rs2 s

/-- Rule R158. -/
def execSrl (rd rs1 rs2 : RegIdx) (s : State) : Res := srlWith params rd rs1 rs2 s

/-- Rule R159. -/
def execSra (rd rs1 rs2 : RegIdx) (s : State) : Res := sraWith params rd rs1 rs2 s

/-- Rule R160. -/
def execSlt (rd rs1 rs2 : RegIdx) (s : State) : Res := aluReg (fun a b => flagWord (lessSigned a b)) rd rs1 rs2 s

/-- Rule R161. -/
def execSltu (rd rs1 rs2 : RegIdx) (s : State) : Res := aluReg (fun a b => flagWord (lessUnsigned a b)) rd rs1 rs2 s

-- ## Immediate

/-- Rule R171. -/
def execAddi (rd rs1 : RegIdx) (imm : BitVec 12) (s : State) : Res := aluImm (fun a i => a + i) rd rs1 imm s

/-- Rule R172. -/
def execXori (rd rs1 : RegIdx) (imm : BitVec 12) (s : State) : Res := aluImm (fun a i => a ^^^ i) rd rs1 imm s

/-- Rule R173. -/
def execOri (rd rs1 : RegIdx) (imm : BitVec 12) (s : State) : Res := aluImm (fun a i => a ||| i) rd rs1 imm s

/-- Rule R174. -/
def execAndi (rd rs1 : RegIdx) (imm : BitVec 12) (s : State) : Res := aluImm (fun a i => a &&& i) rd rs1 imm s

/-- Rule R175. -/
def execSlti (rd rs1 : RegIdx) (imm : BitVec 12) (s : State) : Res :=
  aluImm (fun a i => flagWord (lessSigned a i)) rd rs1 imm s

/-- Rule R176: the sign-extended immediate, read as unsigned. -/
def execSltiu (rd rs1 : RegIdx) (imm : BitVec 12) (s : State) : Res :=
  aluImm (fun a i => flagWord (lessUnsigned a i)) rd rs1 imm s

-- ## Upper immediate

/-- Rule R260. -/
def execLui (rd : RegIdx) (imm : BitVec 20) (s : State) : Res := writeResult rd (immWordU imm) s

end Sys2Proof.Machine
end

