-- ==== Sys2Proof/Machine/Control.lean ====
section
/-!
DEFINITION. The control-flow instructions: jalr (43_jalr.md), the conditional branches (45_branches.md) and jal (47_jal.md).
-/

namespace Sys2Proof.Machine

/-- Rules R210 and R211: the target is computed from the old x[rs1], and no bit of it is cleared. -/
def execJalr (rd rs1 : RegIdx) (imm : BitVec 12) (s : State) : Res := jumpAndLink rd (effAddr s rs1 imm) s

/-- Rule R270. -/
def execJal (rd : RegIdx) (off : BitVec 21) (s : State) : Res := jumpAndLink rd (jalTarget s off) s

/-- The five branches that check the address they jump to (rule R240). -/
def branchOn (p : Params) (cond : Word → Word → Bool) (rs1 rs2 : RegIdx) (off : BitVec 13) (s : State) : Res :=
  branch p (cond (s.readReg rs1) (s.readReg rs2)) (branchTarget s off) (branchTarget s off) s

/-- Rules R241 and R243, under any parameters: beq checks the doubled offset and jumps by the single one. -/
def beqWith (p : Params) (rs1 rs2 : RegIdx) (off : BitVec 13) (s : State) : Res :=
  branch p (decide (s.readReg rs1 = s.readReg rs2)) (branchTarget s off) (beqCheck s off) s

/-- Rule R244, under any parameters. -/
def bneWith (p : Params) (rs1 rs2 : RegIdx) (off : BitVec 13) (s : State) : Res :=
  branchOn p (fun a b => decide (a ≠ b)) rs1 rs2 off s

/-- Rule R245, under any parameters. -/
def bltWith (p : Params) (rs1 rs2 : RegIdx) (off : BitVec 13) (s : State) : Res :=
  branchOn p lessSigned rs1 rs2 off s

/-- Rule R246, under any parameters. -/
def bgeWith (p : Params) (rs1 rs2 : RegIdx) (off : BitVec 13) (s : State) : Res :=
  branchOn p (fun a b => !lessSigned a b) rs1 rs2 off s

/-- Rule R247, under any parameters. -/
def bltuWith (p : Params) (rs1 rs2 : RegIdx) (off : BitVec 13) (s : State) : Res :=
  branchOn p lessUnsigned rs1 rs2 off s

/-- Rule R248, under any parameters. -/
def bgeuWith (p : Params) (rs1 rs2 : RegIdx) (off : BitVec 13) (s : State) : Res :=
  branchOn p (fun a b => !lessUnsigned a b) rs1 rs2 off s

/-- Rule R243. -/
def execBeq (rs1 rs2 : RegIdx) (off : BitVec 13) (s : State) : Res := beqWith params rs1 rs2 off s

/-- Rule R244. -/
def execBne (rs1 rs2 : RegIdx) (off : BitVec 13) (s : State) : Res := bneWith params rs1 rs2 off s

/-- Rule R245. -/
def execBlt (rs1 rs2 : RegIdx) (off : BitVec 13) (s : State) : Res := bltWith params rs1 rs2 off s

/-- Rule R246. -/
def execBge (rs1 rs2 : RegIdx) (off : BitVec 13) (s : State) : Res := bgeWith params rs1 rs2 off s

/-- Rule R247. -/
def execBltu (rs1 rs2 : RegIdx) (off : BitVec 13) (s : State) : Res := bltuWith params rs1 rs2 off s

/-- Rule R248. -/
def execBgeu (rs1 rs2 : RegIdx) (off : BitVec 13) (s : State) : Res := bgeuWith params rs1 rs2 off s

end Sys2Proof.Machine
end

