-- ==== Sys2Proof/Machine/Alloc.lean ====
section
/-!
DEFINITION. The first-fit bank allocator (20_memory.md rules R80 to R92), written as the spec's scans are. Each scan has a
step count as its first argument; 128 steps are enough, since every pass moves at least one bank on.
-/

namespace Sys2Proof.Machine

/-- `tag[k]`; banks past 127 do not exist, and no scan asks for one (rule R31). -/
def tagAt (t : Vector Word 128) (k : Nat) : Word := if h : k < 128 then t[k]'h else 0#32

/-- `tag[k] <- v`. -/
def setTag (t : Vector Word 128) (k : Nat) (v : Word) : Vector Word 128 := if h : k < 128 then t.set k v h else t

/-- Banks required: `max(1, ceil(size / 64))` (rules R80, R81). -/
def banksNeeded (size : Nat) : Nat := max 1 ((size + 63) / 64)

/-- The single-bank scan from bank `k` (rule R82). -/
def firstFree (t : Vector Word 128) : Nat → Nat → Option Nat
  | 0, _ => none
  | fuel + 1, k => if tagAt t k = 0#32 then some k else firstFree t fuel (k + 1)

/-- The inner loop of the run scan: `j` and `run` where the count of consecutive free banks stops (rule R83). -/
def freeRun (t : Vector Word 128) (need : Nat) : Nat → Nat → Nat → Nat × Nat
  | 0, j, run => (j, run)
  | fuel + 1, j, run =>
    if j ≤ 127 ∧ tagAt t j = 0#32 ∧ run < need then freeRun t need fuel (j + 1) (run + 1) else (j, run)

/-- The run scan from bank `k`: the first bank of the first run of `need` free banks (rule R83). -/
def firstFit (t : Vector Word 128) (need : Nat) : Nat → Nat → Option Nat
  | 0, _ => none
  | fuel + 1, k =>
    if 127 < k then none
    else if tagAt t k ≠ 0#32 then firstFit t need fuel (k + 1)
    else if (freeRun t need 128 k 0).2 = need then some k
    else if 127 < (freeRun t need 128 k 0).1 then none
    else firstFit t need fuel (freeRun t need 128 k 0).1

/-- The scan an allocation makes: rule R82 for one bank, rule R83 for more (rule R80). -/
def allocScan (t : Vector Word 128) (need : Nat) : Option Nat :=
  if need = 1 then firstFree t 128 0 else firstFit t need 128 0

/-- Stamp an id on the banks k .. k+n-1 (rules R82, R83). -/
def stamp (t : Vector Word 128) (k n : Nat) (id : Word) : Vector Word 128 :=
  Vector.ofFn fun i => if k ≤ i.val ∧ i.val < k + n then id else t[i]

/-- What an allocation request comes to. -/
inductive AllocResult where
  /-- The first bank taken, the stamped tags and the next id (rule R84). -/
  | took (bank : Nat) (tags : Vector Word 128) (nextId : Nat)
  /-- No fitting run: no bank changes and no id is minted (rule R85). -/
  | full
  /-- The id to stamp would be 2^32 or more (rule R84). -/
  | idExhausted
  deriving DecidableEq, Repr

/-- `Alloc(size)` over the tags and the id generator (rules R80 to R85). -/
def alloc (t : Vector Word 128) (nextId size : Nat) : AllocResult :=
  match allocScan t (banksNeeded size) with
  | none => .full
  | some k =>
    if 4294967296 ≤ nextId then .idExhausted
    else .took k (stamp t k (banksNeeded size) (BitVec.ofNat 32 nextId)) (nextId + 1)

/-- The address of a bank, `HEAP_BASE + 64·k` (rule R31). -/
def bankAddr (p : Params) (k : Nat) : Word := BitVec.ofNat 32 (p.heapBase + 64 * k)

/-- The walk of rule R92 from bank `i`: clear every consecutive bank that carries the id. -/
def clearRun (id : Word) : Nat → Nat → Vector Word 128 → Vector Word 128
  | 0, _, t => t
  | fuel + 1, i, t => if i ≤ 127 ∧ tagAt t i = id then clearRun id fuel (i + 1) (setTag t i 0#32) else t

/-- Release from bank `k` on; nothing changes where bank `k` is free (rule R92). -/
def release (t : Vector Word 128) (k : Nat) : Vector Word 128 :=
  if tagAt t k = 0#32 then t else clearRun (tagAt t k) 128 k t

/-- The bank a free request selects: the owner of a heap address (rule R90), and outside the heap none, or by the
literal scan the first or the last bank (rule R91). -/
def freeBank (p : Params) (a : Word) : Option Nat :=
  if inHeap p a then some (bankOf p a)
  else
    match p.freeOutOfHeap with
    | .noop => none
    | .scan => if u32 a < p.heapBase then some 0 else some 127

/-- `Free(a)` over the tags (rules R90 to R93). -/
def freeTags (p : Params) (t : Vector Word 128) (a : Word) : Vector Word 128 :=
  match freeBank p a with
  | none => t
  | some k => release t k

end Sys2Proof.Machine
end

