-- ==== Sys2Proof/Machine/Input.lean ====
section
/-!
DEFINITION. The answers of the two read ports (20_memory.md rules R73 to R75), taken from the host's stream, which is a
parameter (`Params.hostInput`). A read that the stream does not settle is held for ever; a read whose answer the spec
leaves under no law (end of input, a malformed or out-of-range integer, a character above 127) takes the oracle's draw (log
entries 11 to 13).
-/

namespace Sys2Proof.Machine

/-- What a read of the host's stream comes to. -/
inductive ReadAnswer where
  /-- The host does not answer: the machine is held, no state changed (rules R73, R353). -/
  | held
  /-- The answer, and how many characters it consumes. -/
  | answer (v : Word) (count : Nat)
  deriving DecidableEq, Repr

-- ## The stream

/-- Every character the host has supplied when read `n` is answered. DESIGN CHOICE: what it supplies after an end of input
is part of the stream too, for the spec does not say that an end is final (rules R73, R354, 91 N10; log entry 11). -/
def hostText (h : HostInput) : Nat → List Byte
  | 0 => h.chunk 0
  | n + 1 => hostText h n ++ h.chunk (n + 1)

/-- The remaining input of the next read (rules R34 (3), R74, R75). -/
def State.unread (p : Params) (s : State) : List Byte := (hostText p.hostInput s.reads).drop s.inputPos

/-- The host signals the end of its input at the next read, behind the remaining input (rule R354). DESIGN CHOICE: this says
nothing of the reads after it (log entry 11). -/
def State.inputEnded (p : Params) (s : State) : Bool := p.hostInput.ends s.reads

/-- The oracle's draw for the next read (rule R73). -/
def State.drawn (p : Params) (s : State) : Word := p.hostInput.draw s.reads

-- ## Characters and numerals

/-- Whitespace: space, and tab, newline, vertical tab, form feed, carriage return (rule R74, PRESUMED there from the C
set; log entry 13). -/
def isSpace (b : Byte) : Bool := b = 0x20#8 || (9 ≤ b.toNat && b.toNat ≤ 13)

/-- A decimal digit. -/
def isDigit (b : Byte) : Bool := 48 ≤ b.toNat && b.toNat ≤ 57

/-- The value of a string of decimal digits. -/
def digitsValue (ds : List Byte) : Nat := ds.foldl (fun n d => 10 * n + (d.toNat - 48)) 0

/-- The sign of a numeral and what follows it: a leading `-` or `+`, or none (rule R75; log entry 13). -/
def splitSign : List Byte → Bool × List Byte
  | [] => (false, [])
  | c :: cs => if c = 0x2D#8 then (true, cs) else if c = 0x2B#8 then (false, cs) else (false, c :: cs)

/-- The value of a signed numeral. -/
def signedValue (neg : Bool) (ds : List Byte) : Int := if neg then -(digitsValue ds : Int) else (digitsValue ds : Int)

/-- The value fits in a signed 32-bit integer (rule R75). -/
abbrev fitsS32 (n : Int) : Prop := -2147483648 ≤ n ∧ n ≤ 2147483647

-- ## The two reads

/-- An answer under no law: the draw, and a number of characters consumed that is open too (rule R73; log entry 12). -/
def drawAnswer (p : Params) (s : State) : ReadAnswer :=
  .answer (s.drawn p) (min (p.hostInput.drawLength s.reads) (s.unread p).length)

/-- `InChar()`: the first character that is not whitespace, consumed with all before it; its code where that is 0..127,
else a draw (rule R74). -/
def readChar (p : Params) (s : State) : ReadAnswer :=
  match (s.unread p).dropWhile isSpace with
  | c :: rest => .answer (if c.toNat ≤ 127 then c.setWidth 32 else s.drawn p) ((s.unread p).length - rest.length)
  | [] => if s.inputEnded p then drawAnswer p s else .held

/-- The integer read after whitespace and sign, `t` beginning at the digits. It is held while the numeral could still go on;
it gives the value where there are digits and the value fits, else a draw (rule R75). -/
def readDigits (p : Params) (s : State) (neg : Bool) (t : List Byte) : ReadAnswer :=
  if t.dropWhile isDigit = [] ∧ s.inputEnded p = false then .held
  else if t.takeWhile isDigit ≠ [] ∧ fitsS32 (signedValue neg (t.takeWhile isDigit)) then
    .answer (BitVec.ofInt 32 (signedValue neg (t.takeWhile isDigit)))
      ((s.unread p).length - (t.dropWhile isDigit).length)
  else drawAnswer p s

/-- `InInt()`: one signed decimal integer after optional whitespace (rule R75). -/
def readInt (p : Params) (s : State) : ReadAnswer :=
  readDigits p s (splitSign ((s.unread p).dropWhile isSpace)).1 (splitSign ((s.unread p).dropWhile isSpace)).2

end Sys2Proof.Machine
end

