-- ==== Sys2Proof/Machine/Ports.lean ====
section
/-!
DEFINITION. The control ports (20_memory.md rules R60 to R76): nine write ports, which every store is offered first, and
two read ports, which every load asks first.
-/

namespace Sys2Proof.Machine

/-- The nine write ports (rule R60). -/
inductive WritePort where
  /-- 2048, console character (rule R63). -/
  | char
  /-- 2052, signed decimal (rule R64). -/
  | dec
  /-- 2056, unsigned hexadecimal (rule R65). -/
  | hex
  /-- 2060, halt (rule R66). -/
  | halt
  /-- 2080, dump counter (rule R67). -/
  | dumpPc
  /-- 2084, dump counter and registers (rule R68). -/
  | dumpRegs
  /-- 2088, dump heap byte (rule R69). -/
  | dumpByte
  /-- 2096, allocate (rule R70). -/
  | alloc
  /-- 2100, free (rule R71). -/
  | free
  deriving DecidableEq, Repr

/-- The port at a store's effective address, whatever the store's width (rule R60). -/
def WritePort.ofAddr (a : Word) : Option WritePort :=
  if a = 2048#32 then some .char
  else if a = 2052#32 then some .dec
  else if a = 2056#32 then some .hex
  else if a = 2060#32 then some .halt
  else if a = 2080#32 then some .dumpPc
  else if a = 2084#32 then some .dumpRegs
  else if a = 2088#32 then some .dumpByte
  else if a = 2096#32 then some .alloc
  else if a = 2100#32 then some .free
  else none

/-- The two read ports (rule R72). -/
inductive ReadPort where
  /-- 2066, read character (rule R74). -/
  | char
  /-- 2070, read integer (rule R75). -/
  | int
  deriving DecidableEq, Repr

/-- The port at a load's effective address, whatever the load's width (rule R72). -/
def ReadPort.ofAddr (a : Word) : Option ReadPort :=
  if a = 2066#32 then some .char else if a = 2070#32 then some .int else none

/-- The size an allocation request asks for (rule R70). -/
def allocSize (p : Params) (v : Word) : Nat := if p.mallocSizeFromValue then u32 v else 4

/-- Port 2096: x28 receives the address, or 0 on failure, and the pc advances (rules R70, R84, R85). -/
def portAlloc (p : Params) (v : Word) (s : State) : Res :=
  match alloc s.tags s.nextId (allocSize p v) with
  | .took k tags nextId => .next ((s.setBanks tags nextId).retire 28#5 (bankAddr p k))
  | .full => .next (s.retire 28#5 0#32)
  | .idExhausted => .refused .allocIdExhausted

/-- Port 2088: the heap byte at the address the value names (rule R69). -/
def portDumpByte (p : Params) (v : Word) (s : State) : Res :=
  if inHeap p v then .next (s.emit (.dumpByte (s.heapByte p (u32 v)))).advance
  else .refused .dumpAddressOutOfHeap

/-- `PortWrite(a, v)` at a port, `v` the whole source register (rules R61, R63 to R71, R223). -/
def portWrite (p : Params) (port : WritePort) (v : Word) (s : State) : Res :=
  match port with
  | .char => .next (s.emit (.char (v.extractLsb' 0 8))).advance
  | .dec => .next (s.emit (.dec (s32 v))).advance
  | .hex => .next (s.emit (.hex (u32 v))).advance
  | .halt => .next s.halt
  | .dumpPc => .next (s.emit (.dumpPc s.pc)).advance
  | .dumpRegs => .next (s.emit (.dumpRegs s.pc s.regView)).advance
  | .dumpByte => portDumpByte p v s
  | .alloc => portAlloc p v s
  | .free => .next (s.setBanks (freeTags p s.tags v) s.nextId).advance

/-- The answer a read port gives (rule R73). -/
def portAnswer (p : Params) (port : ReadPort) (s : State) : ReadAnswer :=
  match port with
  | .char => readChar p s
  | .int => readInt p s

/-- A load from a read port: the answer goes to rd unmodified, or the machine is held as it stands (rules R193, R353). -/
def portLoad (p : Params) (port : ReadPort) (rd : RegIdx) (s : State) : Res :=
  match portAnswer p port s with
  | .held => .next s
  | .answer v k => .next ((s.tookInput k).retire rd v)

end Sys2Proof.Machine
end

