-- ==== Sys2Proof/Machine/Load.lean ====
section
/-!
DEFINITION. The load instructions (42_loads.md).
-/

namespace Sys2Proof.Machine

/-- A load of `n` bytes from an effective address, rd not 0: the read ports, then the heap range, then the bank boundary
(rules R190, R192, R193, R308). -/
def loadAt (p : Params) (n : Nat) (combine : List Byte → Word) (rd : RegIdx) (ea : Word) (s : State) : Res :=
  match ReadPort.ofAddr ea with
  | some port => portLoad p port rd s
  | none =>
    if inHeap p ea then
      if crossesBank p ea n then .refused .crossBankAccess
      else .next (s.retire rd (combine (s.heapBytes p (u32 ea) n)))
    else raiseIllegal s ea

/-- The shape of the four loads; with rd = 0 there is no access at all (rules R190, R199). -/
def load (p : Params) (n : Nat) (combine : List Byte → Word) (rd rs1 : RegIdx) (imm : BitVec 12) (s : State) : Res :=
  if rd = 0#5 then .next s.advance else loadAt p n combine rd (effAddr s rs1 imm) s

/-- Rule R195, under any parameters. -/
def lbWith (p : Params) (rd rs1 : RegIdx) (imm : BitVec 12) (s : State) : Res := load p 1 combineSigned rd rs1 imm s

/-- Rule R196, under any parameters. -/
def lbuWith (p : Params) (rd rs1 : RegIdx) (imm : BitVec 12) (s : State) : Res := load p 1 combineUnsigned rd rs1 imm s

/-- Rule R197, under any parameters. -/
def lhWith (p : Params) (rd rs1 : RegIdx) (imm : BitVec 12) (s : State) : Res := load p 2 combineOr rd rs1 imm s

/-- Rule R198, under any parameters. -/
def lwWith (p : Params) (rd rs1 : RegIdx) (imm : BitVec 12) (s : State) : Res := load p 4 combineOr rd rs1 imm s

/-- Rule R195. -/
def execLb (rd rs1 : RegIdx) (imm : BitVec 12) (s : State) : Res := lbWith params rd rs1 imm s

/-- Rule R196. -/
def execLbu (rd rs1 : RegIdx) (imm : BitVec 12) (s : State) : Res := lbuWith params rd rs1 imm s

/-- Rule R197. -/
def execLh (rd rs1 : RegIdx) (imm : BitVec 12) (s : State) : Res := lhWith params rd rs1 imm s

/-- Rule R198. -/
def execLw (rd rs1 : RegIdx) (imm : BitVec 12) (s : State) : Res := lwWith params rd rs1 imm s

end Sys2Proof.Machine
end

