-- ==== Sys2Proof/Machine/Store.lean ====
section
/-!
DEFINITION. The store instructions (44_stores.md).
-/

namespace Sys2Proof.Machine

/-- A store of the low `n` bytes of `v` to an effective address: the write ports, then the heap range, then the bank
boundary (rules R220, R222, R223, R308). -/
def storeAt (p : Params) (n : Nat) (ea v : Word) (s : State) : Res :=
  match WritePort.ofAddr ea with
  | some port => portWrite p port v s
  | none =>
    if inHeap p ea then
      if crossesBank p ea n then .refused .crossBankAccess
      else .next (s.setHeapBytes (u32 ea) (storeBytes v n)).advance
    else raiseIllegal s ea

/-- The shape of the three stores (rule R220). -/
def store (p : Params) (n : Nat) (rs1 rs2 : RegIdx) (imm : BitVec 12) (s : State) : Res :=
  storeAt p n (effAddr s rs1 imm) (s.readReg rs2) s

/-- Rule R224, under any parameters. -/
def sbWith (p : Params) (rs1 rs2 : RegIdx) (imm : BitVec 12) (s : State) : Res := store p 1 rs1 rs2 imm s

/-- Rule R225, under any parameters. -/
def shWith (p : Params) (rs1 rs2 : RegIdx) (imm : BitVec 12) (s : State) : Res := store p 2 rs1 rs2 imm s

/-- Rule R226, under any parameters. -/
def swWith (p : Params) (rs1 rs2 : RegIdx) (imm : BitVec 12) (s : State) : Res := store p 4 rs1 rs2 imm s

/-- Rule R224. -/
def execSb (rs1 rs2 : RegIdx) (imm : BitVec 12) (s : State) : Res := sbWith params rs1 rs2 imm s

/-- Rule R225. -/
def execSh (rs1 rs2 : RegIdx) (imm : BitVec 12) (s : State) : Res := shWith params rs1 rs2 imm s

/-- Rule R226. -/
def execSw (rs1 rs2 : RegIdx) (imm : BitVec 12) (s : State) : Res := swWith params rs1 rs2 imm s

end Sys2Proof.Machine
end

