-- ==== Sys2Proof/Machine/Fetch.lean ====
section
/-!
DEFINITION. The fetch of a step with status Running (30_encoding.md rules R110 and R111): the exit test, the alignment
test, the word at the pc and its dispatch; the step around it; and the placing of an instruction where the fetch reads it.
-/

namespace Sys2Proof.Machine

/-- `Fetch32(a)` (00_scope.md rule R11). -/
def State.fetch32 (s : State) (a : Nat) : Word :=
  wordOfBytes (s.istoreByte a) (s.istoreByte (a + 1)) (s.istoreByte (a + 2)) (s.istoreByte (a + 3))

/-- What a fetch comes to. -/
inductive Fetched where
  /-- The pc is 1024 or above (rule R25). -/
  | exit
  /-- The pc is no multiple of 4 (rule R26). -/
  | misaligned
  /-- The word selects no instruction (rule R131). -/
  | unimplemented (w : Word)
  /-- The word selects an instruction. -/
  | instr (i : Instr)
  deriving DecidableEq, Repr

/-- The fetch under a decoder, its tests in the order of rules R110 and R308. -/
def State.fetchBy (dec : Word → Option Instr) (s : State) : Fetched :=
  if 1024 ≤ u32 s.pc then .exit
  else if u32 s.pc % 4 ≠ 0 then .misaligned
  else
    match dec (s.fetch32 (u32 s.pc)) with
    | none => .unimplemented (s.fetch32 (u32 s.pc))
    | some i => .instr i

/-- The fetch of this machine. -/
def State.fetch (s : State) : Fetched := s.fetchBy decode

/-- A step with status Running, by a decoder and the meaning of an instruction (rules R110, R111, R301). -/
def runningBy (dec : Word → Option Instr) (run : Instr → State → Res) (s : State) : Res :=
  match s.fetchBy dec with
  | .exit => .next (s.setStatus .exited)
  | .misaligned => .refused .misalignedFetch
  | .unimplemented w => raiseUnimplemented s w
  | .instr i => run i s

/-- One step, by a decoder and the meaning of an instruction: a terminal state takes none (rule R35). -/
def stepBy (dec : Word → Option Instr) (run : Instr → State → Res) (s : State) : Res :=
  match s.status with
  | .running => runningBy dec run s
  | .exited => .fault (.terminated s.status)
  | .halted => .fault (.terminated s.status)
  | .fatal _ _ _ => .fault (.terminated s.status)

/-- The four bytes of an instruction word placed at the pc, where the pc is in the instruction store. -/
def placeWord (s : State) (w : Word) : State :=
  if u32 s.pc + 4 ≤ 1024 then s.placeImage (u32 s.pc) (bytesOfInstr w) else s

end Sys2Proof.Machine
end

