-- ==== Sys2Proof/Machine/Step.lean ====
section
/-!
DEFINITION. One step of the machine (30_encoding.md rules R110 and R111, 60_exceptions.md rule R300).
-/

namespace Sys2Proof.Machine

/-- One step of the machine. -/
def step (s : State) : Host.Outcome State Fault Refusal := stepBy decode exec s

/-- The state with the instruction whose table bits are `w` placed at the pc, and running, so that the next step fetches
and runs it. It stands for the load of an image, which is outside the machine (rule R342; log entry 3). -/
def State.withFetchWord (s : State) (nbits w : Nat) : State := (placeWord s (tableWord nbits w)).setStatus .running

end Sys2Proof.Machine
end

