-- ==== Sys2Proof/Machine/Parametric.lean ====
section
/-!
DEFINITION. The machine with the named parameters as its argument (00_scope.md rule R7), the input oracle among them
(20_memory.md rule R73). `exec` and `step` are these at the parameters in force.
-/

namespace Sys2Proof.Machine

/-- Every instruction's meaning under the parameters `p`. -/
def execWith (p : Params) (i : Instr) (s : State) : Res :=
  match i with
  | .add rd rs1 rs2 => execAdd rd rs1 rs2 s
  | .sub rd rs1 rs2 => execSub rd rs1 rs2 s
  | .xor rd rs1 rs2 => execXor rd rs1 rs2 s
  | .or rd rs1 rs2 => execOr rd rs1 rs2 s
  | .and rd rs1 rs2 => execAnd rd rs1 rs2 s
  | .sll rd rs1 rs2 => sllWith p rd rs1 rs2 s
  | .srl rd rs1 rs2 => srlWith p rd rs1 rs2 s
  | .sra rd rs1 rs2 => sraWith p rd rs1 rs2 s
  | .slt rd rs1 rs2 => execSlt rd rs1 rs2 s
  | .sltu rd rs1 rs2 => execSltu rd rs1 rs2 s
  | .addi rd rs1 imm => execAddi rd rs1 imm s
  | .xori rd rs1 imm => execXori rd rs1 imm s
  | .ori rd rs1 imm => execOri rd rs1 imm s
  | .andi rd rs1 imm => execAndi rd rs1 imm s
  | .slti rd rs1 imm => execSlti rd rs1 imm s
  | .sltiu rd rs1 imm => execSltiu rd rs1 imm s
  | .lb rd rs1 imm => lbWith p rd rs1 imm s
  | .lbu rd rs1 imm => lbuWith p rd rs1 imm s
  | .lh rd rs1 imm => lhWith p rd rs1 imm s
  | .lw rd rs1 imm => lwWith p rd rs1 imm s
  | .jalr rd rs1 imm => execJalr rd rs1 imm s
  | .sb rs1 rs2 imm => sbWith p rs1 rs2 imm s
  | .sh rs1 rs2 imm => shWith p rs1 rs2 imm s
  | .sw rs1 rs2 imm => swWith p rs1 rs2 imm s
  | .beq rs1 rs2 off => beqWith p rs1 rs2 off s
  | .bne rs1 rs2 off => bneWith p rs1 rs2 off s
  | .blt rs1 rs2 off => bltWith p rs1 rs2 off s
  | .bge rs1 rs2 off => bgeWith p rs1 rs2 off s
  | .bltu rs1 rs2 off => bltuWith p rs1 rs2 off s
  | .bgeu rs1 rs2 off => bgeuWith p rs1 rs2 off s
  | .lui rd imm => execLui rd imm s
  | .jal rd off => execJal rd off s

/-- The decoder under the parameters `p`. -/
def decodeUnder (p : Params) (w : Word) : Option Instr := decodeWith p.opcodeMap p.ujMidBits w

/-- One step under the parameters `p`. -/
def stepWith (p : Params) (s : State) : Res := stepBy (decodeUnder p) (execWith p) s

end Sys2Proof.Machine
end

