-- ==== Sys2Proof/Safety.lean ====
section
/-!
DEFINITION. The terms claims are stated in: how a run ends (60_exceptions.md rule R319), what an instruction leaves
unchanged, the effects instructions share, and the invariants of the machine.
-/

namespace Sys2Proof.Machine

-- ## The end of a run

/-- A run ends well exactly in Exited, with exit status 0 (rule R319). -/
def EndsWell (s : State) : Prop := s.status = .exited

/-- A run ends badly in Halted, in Fatal, and in Refused(reason): in the state whose step is refused, since a refused step
leaves no state of its own (rules R300, R306, R319; log entry 15). -/
def EndsBadly (s : State) : Prop :=
  s.status = .halted ∨ (∃ c v a, s.status = .fatal c v a) ∨ ∃ r, step s = .refused r

-- ## Which register an instruction may write, and where a store goes

/-- The destination register of an instruction (rules R22, R123). -/
def destReg : Instr → Option RegIdx
  | .add rd _ _ => some rd
  | .sub rd _ _ => some rd
  | .xor rd _ _ => some rd
  | .or rd _ _ => some rd
  | .and rd _ _ => some rd
  | .sll rd _ _ => some rd
  | .srl rd _ _ => some rd
  | .sra rd _ _ => some rd
  | .slt rd _ _ => some rd
  | .sltu rd _ _ => some rd
  | .addi rd _ _ => some rd
  | .xori rd _ _ => some rd
  | .ori rd _ _ => some rd
  | .andi rd _ _ => some rd
  | .slti rd _ _ => some rd
  | .sltiu rd _ _ => some rd
  | .lb rd _ _ => some rd
  | .lbu rd _ _ => some rd
  | .lh rd _ _ => some rd
  | .lw rd _ _ => some rd
  | .jalr rd _ _ => some rd
  | .sb _ _ _ => none
  | .sh _ _ _ => none
  | .sw _ _ _ => none
  | .beq _ _ _ => none
  | .bne _ _ _ => none
  | .blt _ _ _ => none
  | .bge _ _ _ => none
  | .bltu _ _ _ => none
  | .bgeu _ _ _ => none
  | .lui rd _ => some rd
  | .jal rd _ => some rd

/-- The base register and displacement of a store (rule R220). -/
def storeOperands : Instr → Option (RegIdx × BitVec 12)
  | .add _ _ _ => none
  | .sub _ _ _ => none
  | .xor _ _ _ => none
  | .or _ _ _ => none
  | .and _ _ _ => none
  | .sll _ _ _ => none
  | .srl _ _ _ => none
  | .sra _ _ _ => none
  | .slt _ _ _ => none
  | .sltu _ _ _ => none
  | .addi _ _ _ => none
  | .xori _ _ _ => none
  | .ori _ _ _ => none
  | .andi _ _ _ => none
  | .slti _ _ _ => none
  | .sltiu _ _ _ => none
  | .lb _ _ _ => none
  | .lbu _ _ _ => none
  | .lh _ _ _ => none
  | .lw _ _ _ => none
  | .jalr _ _ _ => none
  | .sb rs1 _ imm => some (rs1, imm)
  | .sh rs1 _ imm => some (rs1, imm)
  | .sw rs1 _ imm => some (rs1, imm)
  | .beq _ _ _ => none
  | .bne _ _ _ => none
  | .blt _ _ _ => none
  | .bge _ _ _ => none
  | .bltu _ _ _ => none
  | .bgeu _ _ _ => none
  | .lui _ _ => none
  | .jal _ _ => none

-- ## When an instruction is fatal, and when it is refused

/-- The target or address `a` of the instruction is outside its permitted range: every cause of IllegalOperation (rule R302),
with BRANCH_CHECK = always. -/
def IllegalAt (s : State) (a : Word) : Instr → Prop
  | .add _ _ _ => False
  | .sub _ _ _ => False
  | .xor _ _ _ => False
  | .or _ _ _ => False
  | .and _ _ _ => False
  | .sll _ _ _ => False
  | .srl _ _ _ => False
  | .sra _ _ _ => False
  | .slt _ _ _ => False
  | .sltu _ _ _ => False
  | .addi _ _ _ => False
  | .xori _ _ _ => False
  | .ori _ _ _ => False
  | .andi _ _ _ => False
  | .slti _ _ _ => False
  | .sltiu _ _ _ => False
  | .lb rd rs1 imm => rd ≠ 0#5 ∧ a = effAddr s rs1 imm ∧ ReadPort.ofAddr a = none ∧ ¬ inHeap params a
  | .lbu rd rs1 imm => rd ≠ 0#5 ∧ a = effAddr s rs1 imm ∧ ReadPort.ofAddr a = none ∧ ¬ inHeap params a
  | .lh rd rs1 imm => rd ≠ 0#5 ∧ a = effAddr s rs1 imm ∧ ReadPort.ofAddr a = none ∧ ¬ inHeap params a
  | .lw rd rs1 imm => rd ≠ 0#5 ∧ a = effAddr s rs1 imm ∧ ReadPort.ofAddr a = none ∧ ¬ inHeap params a
  | .jalr _ rs1 imm => a = effAddr s rs1 imm ∧ ¬ inWindow a
  | .sb rs1 _ imm => a = effAddr s rs1 imm ∧ WritePort.ofAddr a = none ∧ ¬ inHeap params a
  | .sh rs1 _ imm => a = effAddr s rs1 imm ∧ WritePort.ofAddr a = none ∧ ¬ inHeap params a
  | .sw rs1 _ imm => a = effAddr s rs1 imm ∧ WritePort.ofAddr a = none ∧ ¬ inHeap params a
  | .beq _ _ off => a = beqCheck s off ∧ ¬ inWindow a
  | .bne _ _ off => a = branchTarget s off ∧ ¬ inWindow a
  | .blt _ _ off => a = branchTarget s off ∧ ¬ inWindow a
  | .bge _ _ off => a = branchTarget s off ∧ ¬ inWindow a
  | .bltu _ _ off => a = branchTarget s off ∧ ¬ inWindow a
  | .bgeu _ _ off => a = branchTarget s off ∧ ¬ inWindow a
  | .lui _ _ => False
  | .jal _ off => a = jalTarget s off ∧ ¬ inWindow a

/-- Every cause of a refused instruction (rule R306): a half or word access that leaves its bank (rule R57), a dump of a byte
outside the heap (rule R69), and an allocation that finds a bank but no id below 2^32 (rule R84). -/
def Refuses (s : State) (i : Instr) (r : Refusal) : Prop :=
  (r = .crossBankAccess ∧
    ((∃ rd rs1 imm n, (i = .lh rd rs1 imm ∧ n = 2 ∨ i = .lw rd rs1 imm ∧ n = 4) ∧ rd ≠ 0#5 ∧
        inHeap params (effAddr s rs1 imm) ∧ crossesBank params (effAddr s rs1 imm) n) ∨
      ∃ rs1 rs2 imm n, (i = .sh rs1 rs2 imm ∧ n = 2 ∨ i = .sw rs1 rs2 imm ∧ n = 4) ∧
        inHeap params (effAddr s rs1 imm) ∧ crossesBank params (effAddr s rs1 imm) n)) ∨
    (r = .dumpAddressOutOfHeap ∧
      ∃ rs1 rs2 imm, (i = .sb rs1 rs2 imm ∨ i = .sh rs1 rs2 imm ∨ i = .sw rs1 rs2 imm) ∧
        effAddr s rs1 imm = 2088#32 ∧ ¬ inHeap params (s.readReg rs2)) ∨
    r = .allocIdExhausted ∧
      (∃ rs1 rs2 imm, (i = .sb rs1 rs2 imm ∨ i = .sh rs1 rs2 imm ∨ i = .sw rs1 rs2 imm) ∧
        effAddr s rs1 imm = 2096#32) ∧
      (∃ k, k < 128 ∧ tagAt s.tags k = 0#32) ∧ 4294967296 ≤ s.nextId

-- ## What stays as it was

/-- Every byte of both memories reads as before. -/
structure KeepsMemory (s t : State) : Prop where
  heap : ∀ a, t.heapByte params a = s.heapByte params a
  istore : ∀ a, t.istoreByte a = s.istoreByte a

/-- Every bank's tag and the id generator. -/
structure KeepsBanks (s t : State) : Prop where
  tags : t.tags = s.tags
  nextId : t.nextId = s.nextId

/-- The position in the host's input stream. -/
structure KeepsInput (s t : State) : Prop where
  inputPos : t.inputPos = s.inputPos
  reads : t.reads = s.reads

/-- The output and the run status. -/
structure KeepsOutput (s t : State) : Prop where
  out : t.out = s.out
  status : t.status = s.status

/-- Every register reads as before. -/
def KeepsRegs (s t : State) : Prop := ∀ r, t.readReg r = s.readReg r

/-- Register `rd` reads `v`, unless it is x0; every other register reads as before (rules R21, R113). -/
def SetsReg (s t : State) (rd : RegIdx) (v : Word) : Prop :=
  ∀ r, t.readReg r = if r = rd ∧ rd ≠ 0#5 then v else s.readReg r

-- ## Effects

/-- A result in `rd`, the pc advanced by 4, nothing else. -/
structure RegisterEffect (s t : State) (rd : RegIdx) (v : Word) : Prop where
  regs : SetsReg s t rd v
  pc : t.pc = s.pc + 4#32
  memory : KeepsMemory s t
  banks : KeepsBanks s t
  input : KeepsInput s t
  output : KeepsOutput s t

/-- A link in `rd`, the pc at the target, nothing else. -/
structure JumpEffect (s t : State) (rd : RegIdx) (target : Word) : Prop where
  regs : SetsReg s t rd (s.pc + 4#32)
  pc : t.pc = target
  memory : KeepsMemory s t
  banks : KeepsBanks s t
  input : KeepsInput s t
  output : KeepsOutput s t

/-- The pc at `target`, nothing else. -/
structure FlowEffect (s t : State) (target : Word) : Prop where
  regs : KeepsRegs s t
  pc : t.pc = target
  memory : KeepsMemory s t
  banks : KeepsBanks s t
  input : KeepsInput s t
  output : KeepsOutput s t

/-- A fatal condition: the dump of the pc and the registers, the terminal state, nothing else (rules R301 to R303). -/
structure FatalEffect (s t : State) (cause : FatalCause) (v : Word) : Prop where
  status : t.status = .fatal cause v s.pc
  out : t.out = s.out ++ [.fatalDump cause s.pc s.regView]
  pc : t.pc = s.pc
  regs : KeepsRegs s t
  memory : KeepsMemory s t
  banks : KeepsBanks s t
  input : KeepsInput s t

/-- One output event, the pc advanced by 4, nothing else. -/
structure OutputEffect (s t : State) (e : OutEvent) : Prop where
  out : t.out = s.out ++ [e]
  status : t.status = s.status
  pc : t.pc = s.pc + 4#32
  regs : KeepsRegs s t
  memory : KeepsMemory s t
  banks : KeepsBanks s t
  input : KeepsInput s t

/-- `n` bytes of `v`, least significant first, at the heap address `a` and up, the pc advanced by 4, nothing else. -/
structure StoreEffect (s t : State) (a n : Nat) (v : Word) : Prop where
  heap : ∀ a', t.heapByte params a' =
    if a ≤ a' ∧ a' < a + n then v.extractLsb' (8 * (a' - a)) 8 else s.heapByte params a'
  istore : ∀ a', t.istoreByte a' = s.istoreByte a'
  pc : t.pc = s.pc + 4#32
  regs : KeepsRegs s t
  banks : KeepsBanks s t
  input : KeepsInput s t
  output : KeepsOutput s t

/-- A read port's value in `rd`, `count` characters of the stream consumed by one more read, the pc advanced by 4, nothing
else. -/
structure ReadEffect (s t : State) (rd : RegIdx) (v : Word) (count : Nat) : Prop where
  regs : SetsReg s t rd v
  inputPos : t.inputPos = s.inputPos + count
  reads : t.reads = s.reads + 1
  pc : t.pc = s.pc + 4#32
  memory : KeepsMemory s t
  banks : KeepsBanks s t
  output : KeepsOutput s t

/-- The banks' tags and the id generator at new values, `v` in x28 where the request was an allocation, the pc advanced
by 4, nothing else. -/
structure BankEffect (s t : State) (result : Option Word) (tags : Vector Word 128) (nextId : Nat) : Prop where
  regs : match result with
    | some v => SetsReg s t 28#5 v
    | none => KeepsRegs s t
  tags : t.tags = tags
  nextId : t.nextId = nextId
  pc : t.pc = s.pc + 4#32
  memory : KeepsMemory s t
  input : KeepsInput s t
  output : KeepsOutput s t

-- ## Invariants

/-- Both memories keep the canonical form, inside their address ranges (rules R30, R31). -/
def MemoriesCanonical (s : State) : Prop :=
  s.istore.wf ∧ s.istore.within 0 1024 ∧ s.heap.wf ∧ s.heap.within params.heapBase (params.heapBase + 8192)

/-- The allocator's invariants (rule R94): the id generator exceeds every tag, and the banks that carry one id are
consecutive. -/
def BanksConsistent (s : State) : Prop :=
  1 ≤ s.nextId ∧ s.nextId ≤ 4294967296 ∧
    (∀ k, k < 128 → u32 (tagAt s.tags k) < s.nextId) ∧
    ∀ i j k, i ≤ j → j ≤ k → k < 128 → tagAt s.tags i ≠ 0#32 → tagAt s.tags k = tagAt s.tags i →
      tagAt s.tags j = tagAt s.tags i

/-- The pc is at most 1024 (rule R25). -/
def PcInRange (s : State) : Prop := u32 s.pc ≤ 1024

-- ## Several allocations in a row

/-- The tags and the id generator after `n` requests of 4 bytes that all succeed, none where one does not (rule R86). -/
def allocTimes : Nat → Vector Word 128 × Nat → Option (Vector Word 128 × Nat)
  | 0, g => some g
  | n + 1, g =>
    match allocTimes n g with
    | none => none
    | some (tags, nextId) =>
      match alloc tags nextId 4 with
      | .took _ tags' nextId' => some (tags', nextId')
      | .full => none
      | .idExhausted => none

-- ## Changing the instruction store under an outcome

/-- The outcome with another instruction store in its next state. -/
def withIStore (m : Memory) : Res → Res
  | .next t => .next { t with istore := m }
  | .fault f => .fault f
  | .refused r => .refused r

end Sys2Proof.Machine
end

