-- ==== Sys2Proof/Certificates/Slice0/Obligations.lean ====
section
/-!
DEFINITION. The statements about this machine, for the provers. Each docstring names the rules of spec/ it rests on. Where
a clause rests on a choice of the spec's own (a decision D<n> of 92_eei_decisions.md) or of the model, the docstring says
so with the log entry; such a statement is listed as derived.
-/

open Sys2Proof Sys2Proof.Machine

-- ## Encoding and decoding

/-- Decoding the word of a well-formed instruction gives the instruction back, for every operand value. Rules R115 to R135;
the opcode numbers are decision D1 (log entry 10), bits 10..4 of immUJ decision D4 (log entry 6). -/
def Obligations.EncodedInstructionDecodesBack : Prop :=
  ∀ i : Instr, i.wellFormed = true → decode (encode i) = some i

/-- A word that decodes is the encoding of what it decodes to, and that is well formed: no bit of an encoding is dropped.
Rules R116 and R125 to R135; decisions D1 and D4 (log entries 10 and 6). -/
def Obligations.DecodedWordEncodesBack : Prop :=
  ∀ (w : Word) (i : Instr), decode w = some i → i.wellFormed = true ∧ encode i = w

/-- The source's byte formulas for the word and its six fields give the slices the decoder reads. Rules R10 and R115. -/
def Obligations.FieldsFollowTheByteFormulas : Prop :=
  ∀ b0 b1 b2 b3 : Byte,
    (wordOfBytes b0 b1 b2 b3).toNat = b0.toNat + 256 * b1.toNat + 65536 * b2.toNat + 16777216 * b3.toNat ∧
      (opcodeOf (wordOfBytes b0 b1 b2 b3)).toNat = b0.toNat &&& 0x7F ∧
      (rdOf (wordOfBytes b0 b1 b2 b3)).toNat = ((b1.toNat &&& 0x0F) <<< 1) ||| (b0.toNat >>> 7) ∧
      (func3Of (wordOfBytes b0 b1 b2 b3)).toNat = (b1.toNat &&& 0x70) >>> 4 ∧
      (rs1Of (wordOfBytes b0 b1 b2 b3)).toNat = ((b2.toNat &&& 0x0F) <<< 1) ||| (b1.toNat >>> 7) ∧
      (rs2Of (wordOfBytes b0 b1 b2 b3)).toNat = (b2.toNat >>> 4) ||| ((b3.toNat &&& 0x01) <<< 4) ∧
      (func7Of (wordOfBytes b0 b1 b2 b3)).toNat = b3.toNat >>> 1

/-- The five extended immediates are what the source's byte formulas give, the extension by OR-ing ones above the sign bit,
under both readings of UJ_MID_BITS. Rules R117 to R122; decisions D3 and D4. -/
def Obligations.ImmediatesFollowTheByteFormulas : Prop :=
  ∀ (c0 c1 c2 c3 : Byte) (m : UjMidBits),
    let w := wordOfBytes c0 c1 c2 c3
    let b0 : Word := c0.setWidth 32
    let b1 : Word := c1.setWidth 32
    let b2 : Word := c2.setWidth 32
    let b3 : Word := c3.setWidth 32
    let tI := (b2 >>> 4) ||| (b3 <<< 4)
    let tS := ((b1 &&& 0x0F#32) <<< 1) ||| (b0 >>> 7) ||| ((b3 >>> 1) <<< 5)
    let tSB := ((b0 >>> 7) <<< 11) ||| ((b1 &&& 0x0F#32) <<< 1) ||| ((b3 &&& 0x7E#32) <<< 4) ||| ((b3 >>> 7) <<< 12)
    let mid := if m = .present then (b3 &&& 0x7F#32) <<< 4 else 0#32
    let tUJ := ((b3 >>> 7) <<< 20) ||| ((b1 >>> 4) <<< 12) ||| ((b2 &&& 0x0F#32) <<< 16) |||
      (((b2 >>> 4) &&& 1#32) <<< 11) ||| ((b2 >>> 5) <<< 1) ||| mid
    immWord12 (immIOf w) = (if tI.getLsbD 11 then tI ||| 0xFFFFF000#32 else tI) ∧
      immWord12 (immSOf w) = (if tS.getLsbD 11 then tS ||| 0xFFFFF000#32 else tS) ∧
      immWordSB (immSBOf w) = (if tSB.getLsbD 12 then tSB ||| 0xFFFFE000#32 else tSB) ∧
      immWordU (immUOf w) = ((b1 >>> 4) <<< 12) ||| (b2 <<< 16) ||| (b3 <<< 24) ∧
      immWordUJ (immUJOf m w) = (if tUJ.getLsbD 20 then tUJ ||| 0xFFE00000#32 else tUJ)

/-- A word is of a row of spec/opcode_table.json exactly when it decodes to that row's instruction, and a word of no row
decodes to nothing. Rules R126 to R131 and R134; decisions D1, D2 and D33 (log entry 10). -/
def Obligations.DecoderAgreesWithTheOpcodeTable : Prop :=
  ∀ w : Word,
    (∀ r ∈ opcodeTable, r.matches w ↔ (decode w).map mnemonicOf = some r.mnemonic) ∧
      ((∀ r ∈ opcodeTable, ¬ r.matches w) → decode w = none)

/-- Words of 95_test_vectors.md decode to the instructions they stand for there (one or more per family, and two words
that stand for none). -/
def Obligations.VectorWordsDecode : Prop :=
  decode 0x40B55633#32 = some (.sra 12 10 11) ∧ decode 0xFF608113#32 = some (.addi 2 1 (-10)) ∧
    decode 0x0160C103#32 = some (.lbu 2 1 22) ∧ decode 0xFFF080E7#32 = some (.jalr 1 1 (-1)) ∧
    decode 0x0220AE23#32 = some (.sw 1 2 60) ∧ decode 0xFE029CE3#32 = some (.bne 5 0 (-8)) ∧
    decode 0xFFFFF1B7#32 = some (.lui 3 0xFFFFF) ∧ decode 0x3E8000EF#32 = some (.jal 1 1000) ∧
    decode 0x00000000#32 = none ∧ decode 0x0000D003#32 = none

-- ## The step

/-- When the four bytes at a pc in the instruction store, a multiple of 4, decode to an instruction, a running machine's
step is that instruction's execution. Rules R10, R110 and R111. -/
def Obligations.StepRunsTheDecodedInstruction : Prop :=
  ∀ (s : State) (i : Instr), s.status = .running → u32 s.pc < 1024 → u32 s.pc % 4 = 0 →
    decodeBytes [s.istoreByte (u32 s.pc), s.istoreByte (u32 s.pc + 1), s.istoreByte (u32 s.pc + 2),
      s.istoreByte (u32 s.pc + 3)] = .instr i [] →
    step s = exec i s

/-- Before any fetch: a terminal state takes no step (a fault of the model, log entry 16); a pc of 1024 or more ends the
run in Exited with exit status 0 and changes nothing else; a pc below 1024 that is no multiple of 4 is refused (decision
D22, log entry 23). Rules R25, R26, R35, R110 and R300. -/
def Obligations.StepTestsStatusAndPcFirst : Prop :=
  ∀ s : State,
    (s.status ≠ .running → step s = .fault (.terminated s.status)) ∧
      (s.status = .running → 1024 ≤ u32 s.pc →
        step s = .next { s with status := .exited } ∧ RunStatus.exited.exitStatus = some 0) ∧
      (s.status = .running → u32 s.pc < 1024 → u32 s.pc % 4 ≠ 0 → step s = .refused .misalignedFetch)

/-- UnimplementedInstruction is raised for every word outside the 32 instructions, before any part of it executes, with the
word and the pc recorded, and by no instruction that executes. Rule R301. -/
def Obligations.UnimplementedInstructionIsRaisedByDispatchAlone : Prop :=
  (∀ s : State, s.status = .running → u32 s.pc < 1024 → u32 s.pc % 4 = 0 →
    decode (s.fetch32 (u32 s.pc)) = none →
    ∃ t, step s = .next t ∧ FatalEffect s t .unimplementedInstruction (s.fetch32 (u32 s.pc))) ∧
  ∀ (i : Instr) (s t : State) (w a : Word), exec i s = .next t →
    t.status = .fatal .unimplementedInstruction w a → s.status = .fatal .unimplementedInstruction w a

/-- A step that ends in a fatal condition dumps the pc and the registers as they stand and has changed nothing else: the
state is the one before the failing instruction. Rules R303, R305 and R309; the order of check and write is decision D21. -/
def Obligations.FatalStepLeavesTheStateBeforeIt : Prop :=
  ∀ (s t : State) (c : FatalCause) (v a : Word), s.status = .running → step s = .next t → t.status = .fatal c v a →
    FatalEffect s t c v

/-- Reset: every register and the pc 0, every tag 0, nextId 1, no output, Running; nothing written in the heap or placed in
the instruction store, so that their bytes are the launch's. Rules R37 and R340; the zero registers and pc are decision D24
(log entry 14); the input position 0 is the model's (log entry 11). -/
def Obligations.ResetLeavesTheSpecsValues : Prop :=
  (∀ r, State.reset.readReg r = 0#32) ∧ State.reset.pc = 0#32 ∧
    (∀ a, State.reset.istoreByte a = Config.image a) ∧
    (∀ a, State.reset.heapByte params a = Config.heapInit (a - params.heapBase)) ∧
    (∀ k, k < 128 → tagAt State.reset.tags k = 0#32) ∧ State.reset.nextId = 1 ∧ State.reset.out = [] ∧
    State.reset.status = .running ∧ State.reset.inputPos = 0 ∧ State.reset.reads = 0

/-- No instruction faults, and one is refused exactly for the spec's own reasons (`Refuses`): a half or word access inside the
heap that leaves its bank, a store to 2088 of a register whose whole value is outside the heap, a store to 2096 with a free bank and
the ids used up. Rules R57, R69, R84 and R306; decisions D11, D16 and D18 (log entry 23). That any free bank serves a request
at 2096 is MALLOC_SIZE_FROM_VALUE = false, decision D17 (log entry 8); that a port takes the whole register at any width is
decision D14 (log entry 26). -/
def Obligations.InstructionsAreRefusedOnlyForTheSpecsReasons : Prop :=
  ∀ (i : Instr) (s : State),
    (∀ f, exec i s ≠ .fault f) ∧ ∀ r, exec i s = .refused r ↔ Refuses s i r

-- ## Register-register and immediate ALU, lui

/-- add and sub: the sum and the difference modulo 2^32 in rd (nothing where rd is 0), the pc advanced by 4, nothing else,
for every operand. Rules R150, R152, R153; the wrap is decision D7. -/
def Obligations.AddAndSubWrapModulo32Bits : Prop :=
  ∀ (rd rs1 rs2 : RegIdx) (s : State),
    (∃ t, exec (.add rd rs1 rs2) s = .next t ∧
      RegisterEffect s t rd (BitVec.ofNat 32 (u32 (s.readReg rs1) + u32 (s.readReg rs2)))) ∧
    ∃ t, exec (.sub rd rs1 rs2) s = .next t ∧
      RegisterEffect s t rd (BitVec.ofInt 32 ((u32 (s.readReg rs1) : Int) - u32 (s.readReg rs2)))

/-- xor, or and and: the bitwise results in rd, the pc advanced by 4, nothing else. Rules R150, R154, R155, R156. -/
def Obligations.XorOrAndAreBitwise : Prop :=
  ∀ (rd rs1 rs2 : RegIdx) (s : State),
    (∃ t v, exec (.xor rd rs1 rs2) s = .next t ∧ RegisterEffect s t rd v ∧
      ∀ k, v.getLsbD k = ((s.readReg rs1).getLsbD k ^^ (s.readReg rs2).getLsbD k)) ∧
    (∃ t v, exec (.or rd rs1 rs2) s = .next t ∧ RegisterEffect s t rd v ∧
      ∀ k, v.getLsbD k = ((s.readReg rs1).getLsbD k || (s.readReg rs2).getLsbD k)) ∧
    ∃ t v, exec (.and rd rs1 rs2) s = .next t ∧ RegisterEffect s t rd v ∧
      ∀ k, v.getLsbD k = ((s.readReg rs1).getLsbD k && (s.readReg rs2).getLsbD k)

/-- sll and srl by the whole register value n: times or over 2^n for n ≤ 31, and for n ≥ 32 the open value shiftOversize,
about which this says nothing; the pc advanced by 4, nothing else. Rules R150, R151, R157, R158; decision D6 (log entry 4). -/
def Obligations.LogicalShiftsUseTheWholeAmount : Prop :=
  ∀ (rd rs1 rs2 : RegIdx) (s : State),
    (∃ t, exec (.sll rd rs1 rs2) s = .next t ∧
      RegisterEffect s t rd (if u32 (s.readReg rs2) ≤ 31
        then BitVec.ofNat 32 (u32 (s.readReg rs1) * 2 ^ u32 (s.readReg rs2))
        else Config.shiftOversize .sll (s.readReg rs1) (s.readReg rs2))) ∧
    ∃ t, exec (.srl rd rs1 rs2) s = .next t ∧
      RegisterEffect s t rd (if u32 (s.readReg rs2) ≤ 31
        then BitVec.ofNat 32 (u32 (s.readReg rs1) / 2 ^ u32 (s.readReg rs2))
        else Config.shiftOversize .srl (s.readReg rs1) (s.readReg rs2))

/-- sra by the whole register value n: the floor of s32 over 2^min(n, 31), so that every amount of 31 or more fills the
register with the sign; the pc advanced by 4, nothing else. Rules R150, R151, R159; SRA_REINSERT = sign is decision D5 (log
entry 5). -/
def Obligations.SraSaturatesAtTheSign : Prop :=
  ∀ (rd rs1 rs2 : RegIdx) (s : State),
    ∃ t, exec (.sra rd rs1 rs2) s = .next t ∧
      RegisterEffect s t rd (BitVec.ofInt 32 (s32 (s.readReg rs1) / 2 ^ min (u32 (s.readReg rs2)) 31))

/-- The closed form of sra is the source's loop run u32(x[rs2]) times, under both readings of SRA_REINSERT. Rule R159 (log
entries 5 and 21). -/
def Obligations.SraClosedFormIsTheLoop : Prop :=
  ∀ (r : SraReinsert) (a n : Word), shiftRightArith r a n = sraLoop r (u32 n) a

/-- slt and sltu: 1 or 0 by the signed and the unsigned comparison, the pc advanced by 4, nothing else. Rules R150, R160,
R161. -/
def Obligations.SltAndSltuCompare : Prop :=
  ∀ (rd rs1 rs2 : RegIdx) (s : State),
    (∃ t, exec (.slt rd rs1 rs2) s = .next t ∧
      RegisterEffect s t rd (if s32 (s.readReg rs1) < s32 (s.readReg rs2) then 1#32 else 0#32)) ∧
    ∃ t, exec (.sltu rd rs1 rs2) s = .next t ∧
      RegisterEffect s t rd (if u32 (s.readReg rs1) < u32 (s.readReg rs2) then 1#32 else 0#32)

/-- addi, xori, ori and andi on the immediate sign-extended from bit 11: the results in rd, the pc advanced by 4, nothing
else. Rules R118, R170 to R174; the wrap is decision D7. -/
def Obligations.ImmediateAluUsesTheExtendedImmediate : Prop :=
  ∀ (rd rs1 : RegIdx) (imm : BitVec 12) (s : State),
    (∃ t, exec (.addi rd rs1 imm) s = .next t ∧
      RegisterEffect s t rd (BitVec.ofInt 32 ((u32 (s.readReg rs1) : Int) + imm.toInt))) ∧
    (∃ t v, exec (.xori rd rs1 imm) s = .next t ∧ RegisterEffect s t rd v ∧
      ∀ k, k < 32 → v.getLsbD k = ((s.readReg rs1).getLsbD k ^^ imm.getLsbD (min k 11))) ∧
    (∃ t v, exec (.ori rd rs1 imm) s = .next t ∧ RegisterEffect s t rd v ∧
      ∀ k, k < 32 → v.getLsbD k = ((s.readReg rs1).getLsbD k || imm.getLsbD (min k 11))) ∧
    ∃ t v, exec (.andi rd rs1 imm) s = .next t ∧ RegisterEffect s t rd v ∧
      ∀ k, k < 32 → v.getLsbD k = ((s.readReg rs1).getLsbD k && imm.getLsbD (min k 11))

/-- slti and sltiu: the signed comparison with the immediate, and the unsigned one with the sign-extended immediate read as
unsigned; the pc advanced by 4, nothing else. Rules R170, R175, R176; decision D8. -/
def Obligations.SltiAndSltiuCompareTheExtendedImmediate : Prop :=
  ∀ (rd rs1 : RegIdx) (imm : BitVec 12) (s : State),
    (∃ t, exec (.slti rd rs1 imm) s = .next t ∧
      RegisterEffect s t rd (if s32 (s.readReg rs1) < imm.toInt then 1#32 else 0#32)) ∧
    ∃ t, exec (.sltiu rd rs1 imm) s = .next t ∧
      RegisterEffect s t rd (if (u32 (s.readReg rs1) : Int) < imm.toInt % 4294967296 then 1#32 else 0#32)

/-- lui: imm20 times 4096 in rd, the pc advanced by 4, nothing else. Rule R260. -/
def Obligations.LuiPlacesTheTopTwentyBits : Prop :=
  ∀ (rd : RegIdx) (imm : BitVec 20) (s : State),
    ∃ t, exec (.lui rd imm) s = .next t ∧ RegisterEffect s t rd (BitVec.ofNat 32 (imm.toNat * 4096))

/-- With rd = 0 the ten register-register, six immediate, four load instructions and lui do nothing but advance the pc: no
access, no input, no fatal condition. For jal and jalr rd = 0 suppresses only the link: the transfer and its check stay.
Rule R113. -/
def Obligations.RdZeroSkipsAllButTheJumps : Prop :=
  ∀ (rs1 rs2 : RegIdx) (imm : BitVec 12) (imm20 : BitVec 20) (off : BitVec 21) (s : State),
    (∀ i ∈ [Instr.add 0 rs1 rs2, .sub 0 rs1 rs2, .xor 0 rs1 rs2, .or 0 rs1 rs2, .and 0 rs1 rs2, .sll 0 rs1 rs2,
        .srl 0 rs1 rs2, .sra 0 rs1 rs2, .slt 0 rs1 rs2, .sltu 0 rs1 rs2, .addi 0 rs1 imm, .xori 0 rs1 imm,
        .ori 0 rs1 imm, .andi 0 rs1 imm, .slti 0 rs1 imm, .sltiu 0 rs1 imm, .lb 0 rs1 imm, .lbu 0 rs1 imm,
        .lh 0 rs1 imm, .lw 0 rs1 imm, .lui 0 imm20],
      exec i s = .next { s with pc := s.pc + 4#32 }) ∧
    (∀ x ∈ [(Instr.jal 0 off, s.pc + off.signExtend 32), (Instr.jalr 0 rs1 imm, s.readReg rs1 + imm.signExtend 32)],
      (u32 x.2 ≤ 1020 → exec x.1 s = .next { s with pc := x.2 }) ∧
        (1020 < u32 x.2 → ∃ t, exec x.1 s = .next t ∧ FatalEffect s t .illegalOperation x.2))

/-- Every read of x0 gives 0, before and after every instruction, and a write to x0 changes nothing. Rule R21. -/
def Obligations.RegisterZeroIsHardwired : Prop :=
  (∀ s : State, s.readReg 0#5 = 0#32) ∧ (∀ (s : State) (v : Word), s.writeReg 0#5 v = s) ∧
    ∀ (i : Instr) (s t : State), exec i s = .next t → t.readReg 0#5 = 0#32

/-- A register changes only if it is the instruction's rd, or x28 by a store to the allocate port. Rule R22 (its list of
the writes there are). -/
def Obligations.RegistersChangeOnlyAtRdOrX28 : Prop :=
  ∀ (i : Instr) (s t : State) (r : RegIdx), exec i s = .next t → t.readReg r ≠ s.readReg r →
    destReg i = some r ∨
      (r = 28#5 ∧ ∃ rs1 imm, storeOperands i = some (rs1, imm) ∧ effAddr s rs1 imm = 2096#32)

-- ## Jumps and branches

/-- jal and jalr to a target in [0, 1020]: the pc at the target (of jalr with the old x[rs1] and no bit cleared), the link
pc + 4 in rd (nothing where rd is 0), nothing else. Rules R113, R210, R211, R270; decisions D4 and D21. -/
def Obligations.JumpsInTheWindowLinkAndGo : Prop :=
  ∀ (rd rs1 : RegIdx) (imm : BitVec 12) (off : BitVec 21) (s : State),
    (u32 (BitVec.ofInt 32 ((u32 s.pc : Int) + off.toInt)) ≤ 1020 →
      ∃ t, exec (.jal rd off) s = .next t ∧ JumpEffect s t rd (BitVec.ofInt 32 ((u32 s.pc : Int) + off.toInt))) ∧
    (u32 (BitVec.ofInt 32 ((u32 (s.readReg rs1) : Int) + imm.toInt)) ≤ 1020 →
      ∃ t, exec (.jalr rd rs1 imm) s = .next t ∧
        JumpEffect s t rd (BitVec.ofInt 32 ((u32 (s.readReg rs1) : Int) + imm.toInt)))

/-- jal and jalr to a target outside [0, 1020]: the fatal condition IllegalOperation with the target, no link written and
the pc unchanged. Rules R210, R211, R270, R271, R302; decision D21. -/
def Obligations.JumpsOutOfTheWindowAreFatal : Prop :=
  ∀ (rd rs1 : RegIdx) (imm : BitVec 12) (off : BitVec 21) (s : State),
    (1020 < u32 (BitVec.ofInt 32 ((u32 s.pc : Int) + off.toInt)) →
      ∃ t, exec (.jal rd off) s = .next t ∧
        FatalEffect s t .illegalOperation (BitVec.ofInt 32 ((u32 s.pc : Int) + off.toInt))) ∧
    (1020 < u32 (BitVec.ofInt 32 ((u32 (s.readReg rs1) : Int) + imm.toInt)) →
      ∃ t, exec (.jalr rd rs1 imm) s = .next t ∧
        FatalEffect s t .illegalOperation (BitVec.ofInt 32 ((u32 (s.readReg rs1) : Int) + imm.toInt)))

/-- bne, blt, bge, bltu and bgeu whose target is in [0, 1020]: the pc at the target when the condition holds, else at
pc + 4, nothing else. Rules R120, R240, R244 to R248. -/
def Obligations.BranchesGoToTheTargetOrOn : Prop :=
  ∀ (rs1 rs2 : RegIdx) (off : BitVec 13) (s : State),
    u32 (BitVec.ofInt 32 ((u32 s.pc : Int) + off.toInt)) ≤ 1020 →
    ∀ x ∈ [(Instr.bne rs1 rs2 off, decide (s.readReg rs1 ≠ s.readReg rs2)),
        (Instr.blt rs1 rs2 off, decide (s32 (s.readReg rs1) < s32 (s.readReg rs2))),
        (Instr.bge rs1 rs2 off, decide (s32 (s.readReg rs2) ≤ s32 (s.readReg rs1))),
        (Instr.bltu rs1 rs2 off, decide (u32 (s.readReg rs1) < u32 (s.readReg rs2))),
        (Instr.bgeu rs1 rs2 off, decide (u32 (s.readReg rs2) ≤ u32 (s.readReg rs1)))],
      ∃ t, exec x.1 s = .next t ∧
        FlowEffect s t (if x.2 = true then BitVec.ofInt 32 ((u32 s.pc : Int) + off.toInt) else s.pc + 4#32)

/-- beq whose doubled offset stays in [0, 1020]: the pc at pc + offset when the operands are equal, else at pc + 4, nothing
else. Rules R240, R241, R243. -/
def Obligations.BeqChecksTheDoubledOffset : Prop :=
  ∀ (rs1 rs2 : RegIdx) (off : BitVec 13) (s : State),
    u32 (BitVec.ofInt 32 ((u32 s.pc : Int) + 2 * off.toInt)) ≤ 1020 →
    ∃ t, exec (.beq rs1 rs2 off) s = .next t ∧
      FlowEffect s t (if s.readReg rs1 = s.readReg rs2 then BitVec.ofInt 32 ((u32 s.pc : Int) + off.toInt)
        else s.pc + 4#32)

/-- A branch whose checked address is outside [0, 1020] raises IllegalOperation with that address, taken or not: pc + offset
for five of them, pc + twice the offset for beq. Rules R240, R241, R302; checking an untaken branch is decision D20 (log
entry 7). -/
def Obligations.BranchesOutOfTheWindowAreFatal : Prop :=
  ∀ (rs1 rs2 : RegIdx) (off : BitVec 13) (s : State),
    ∀ x ∈ [(Instr.beq rs1 rs2 off, BitVec.ofInt 32 ((u32 s.pc : Int) + 2 * off.toInt)),
        (Instr.bne rs1 rs2 off, BitVec.ofInt 32 ((u32 s.pc : Int) + off.toInt)),
        (Instr.blt rs1 rs2 off, BitVec.ofInt 32 ((u32 s.pc : Int) + off.toInt)),
        (Instr.bge rs1 rs2 off, BitVec.ofInt 32 ((u32 s.pc : Int) + off.toInt)),
        (Instr.bltu rs1 rs2 off, BitVec.ofInt 32 ((u32 s.pc : Int) + off.toInt)),
        (Instr.bgeu rs1 rs2 off, BitVec.ofInt 32 ((u32 s.pc : Int) + off.toInt))],
      1020 < u32 x.2 → ∃ t, exec x.1 s = .next t ∧ FatalEffect s t .illegalOperation x.2

/-- For a pc in the window the beq check passes exactly when twice a backward offset is at most the pc, and a forward one
keeps pc + twice the offset at most 1020. Rule R241. -/
def Obligations.BeqCheckPassesInHalfTheWindow : Prop :=
  ∀ (s : State) (off : BitVec 13), u32 s.pc ≤ 1020 →
    (inWindow (beqCheck s off) ↔
      if off.toInt < 0 then 2 * (-off.toInt) ≤ u32 s.pc else (u32 s.pc : Int) + 2 * off.toInt ≤ 1020)

-- ## Loads

/-- lb and lbu of a heap byte, rd not 0: its sign and its zero extension in rd, the pc advanced by 4, nothing else. Rules
R9, R190, R191, R195, R196; decision D26. -/
def Obligations.ByteLoadsExtendTheHeapByte : Prop :=
  ∀ (rd rs1 : RegIdx) (imm : BitVec 12) (s : State), rd ≠ 0#5 →
    params.heapBase ≤ u32 (effAddr s rs1 imm) → u32 (effAddr s rs1 imm) < params.heapBase + 8192 →
    let b := s.heapByte params (u32 (effAddr s rs1 imm))
    (∃ t, exec (.lb rd rs1 imm) s = .next t ∧
      RegisterEffect s t rd (if b.getLsbD 7 then b.setWidth 32 ||| 0xFFFFFF00#32 else b.setWidth 32)) ∧
    ∃ t, exec (.lbu rd rs1 imm) s = .next t ∧ RegisterEffect s t rd (BitVec.ofNat 32 b.toNat)

/-- lh and lw inside a bank, rd not 0: the OR of the two or four bytes, unshifted and zero-extended, in rd, the pc advanced
by 4, nothing else. Rules R55, R190, R194, R197, R198; decisions D12 and D13. -/
def Obligations.WideLoadsOrTheirBytes : Prop :=
  ∀ (rd rs1 : RegIdx) (imm : BitVec 12) (s : State), rd ≠ 0#5 →
    params.heapBase ≤ u32 (effAddr s rs1 imm) → u32 (effAddr s rs1 imm) < params.heapBase + 8192 →
    let a := u32 (effAddr s rs1 imm)
    let b := fun k => s.heapByte params (a + k)
    ((a - params.heapBase) % 64 + 2 ≤ 64 →
      ∃ t, exec (.lh rd rs1 imm) s = .next t ∧ RegisterEffect s t rd ((b 0 ||| b 1).setWidth 32)) ∧
    ((a - params.heapBase) % 64 + 4 ≤ 64 →
      ∃ t, exec (.lw rd rs1 imm) s = .next t ∧ RegisterEffect s t rd ((b 0 ||| b 1 ||| b 2 ||| b 3).setWidth 32))

/-- lh and lw with rd not 0, sh and sw, whose bytes leave the owning bank, are refused, nothing done. Rules R55 to R57;
decision D11 (log entry 23). -/
def Obligations.AccessesAcrossBanksAreRefused : Prop :=
  ∀ (rd rs1 rs2 : RegIdx) (imm : BitVec 12) (s : State), rd ≠ 0#5 →
    params.heapBase ≤ u32 (effAddr s rs1 imm) → u32 (effAddr s rs1 imm) < params.heapBase + 8192 →
    ((u32 (effAddr s rs1 imm) - params.heapBase) % 64 = 63 →
      exec (.lh rd rs1 imm) s = .refused .crossBankAccess ∧ exec (.sh rs1 rs2 imm) s = .refused .crossBankAccess) ∧
    (61 ≤ (u32 (effAddr s rs1 imm) - params.heapBase) % 64 →
      exec (.lw rd rs1 imm) s = .refused .crossBankAccess ∧ exec (.sw rs1 rs2 imm) s = .refused .crossBankAccess)

/-- A load with rd not 0 from an address that is neither a read port nor in the heap, and a store to one that is neither a
write port nor in the heap, raise IllegalOperation with the address and do nothing else. Rules R50, R192, R222, R302;
decision D25. -/
def Obligations.IllegalAddressesAreFatal : Prop :=
  ∀ (rd rs1 rs2 : RegIdx) (imm : BitVec 12) (s : State),
    ¬ (params.heapBase ≤ u32 (effAddr s rs1 imm) ∧ u32 (effAddr s rs1 imm) < params.heapBase + 8192) →
    (rd ≠ 0#5 → u32 (effAddr s rs1 imm) ∉ [2066, 2070] →
      ∀ i ∈ [Instr.lb rd rs1 imm, .lbu rd rs1 imm, .lh rd rs1 imm, .lw rd rs1 imm],
        ∃ t, exec i s = .next t ∧ FatalEffect s t .illegalOperation (effAddr s rs1 imm)) ∧
    (u32 (effAddr s rs1 imm) ∉ [2048, 2052, 2056, 2060, 2080, 2084, 2088, 2096, 2100] →
      ∀ i ∈ [Instr.sb rs1 rs2 imm, .sh rs1 rs2 imm, .sw rs1 rs2 imm],
        ∃ t, exec i s = .next t ∧ FatalEffect s t .illegalOperation (effAddr s rs1 imm))

/-- A load of any width from port 2066, rd not 0, under any input oracle, with a character in the remaining input that is not
whitespace: that character and all before it are consumed; rd receives its code where that is at most 127, and some value
above. Rules R72 to R74, R193; decisions D15 and D28; the whitespace set is presumed (log entries 11 to 13). -/
def Obligations.CharacterPortReadsPastWhitespace : Prop :=
  ∀ (p : Params) (rd rs1 : RegIdx) (imm : BitVec 12) (s : State) (ws rest : List Byte) (c : Byte), rd ≠ 0#5 →
    effAddr s rs1 imm = 2066#32 → s.unread p = ws ++ c :: rest → (∀ b ∈ ws, isSpace b = true) → isSpace c = false →
    ∀ i ∈ [Instr.lb rd rs1 imm, .lbu rd rs1 imm, .lh rd rs1 imm, .lw rd rs1 imm],
      ∃ t v, execWith p i s = .next t ∧ ReadEffect s t rd v (ws.length + 1) ∧
        (c.toNat ≤ 127 → v = BitVec.ofNat 32 c.toNat)

/-- A load of any width from port 2070, rd not 0, under any input oracle, with a decimal numeral next in the remaining input,
after optional whitespace and sign, whose value fits 32 signed bits and which a character or the end of input ends: rd
receives the value, and the input is consumed up to the end of the numeral. Rules R72, R73, R75, R193; decisions D15 and D28
(log entries 11 to 13). -/
def Obligations.IntegerPortReadsANumeral : Prop :=
  ∀ (p : Params) (rd rs1 : RegIdx) (imm : BitVec 12) (s : State) (ws sign ds rest : List Byte), rd ≠ 0#5 →
    effAddr s rs1 imm = 2070#32 → s.unread p = ws ++ sign ++ ds ++ rest → (∀ b ∈ ws, isSpace b = true) →
    sign ∈ [[], [0x2B#8], [0x2D#8]] → ds ≠ [] → (∀ d ∈ ds, isDigit d = true) →
    (∀ d ∈ rest.head?, isDigit d = false) → (rest = [] → s.inputEnded p = true) →
    ∀ n : Int, n = (if sign = [0x2D#8] then -(digitsValue ds : Int) else (digitsValue ds : Int)) →
      -2147483648 ≤ n → n ≤ 2147483647 →
      ∀ i ∈ [Instr.lb rd rs1 imm, .lbu rd rs1 imm, .lh rd rs1 imm, .lw rd rs1 imm],
        ∃ t, execWith p i s = .next t ∧
          ReadEffect s t rd (BitVec.ofInt 32 n) (ws.length + sign.length + ds.length)

/-- Where the host does not end its input and the remaining input does not settle a read, a load of any width from a read
port, rd not 0, holds the machine with no state changed: nothing but whitespace for either port, and for port 2070 also
whitespace, an optional sign and digits that nothing ends yet (that a numeral may still go on is the model's reading, log
entry 11). Rules R73 and R353; decision D35. The whitespace set is general knowledge by rule R74's own sentence, and it, the
sign characters and the digits are presumed (log entry 13). -/
def Obligations.ReadPortsHoldUntilTheHostAnswers : Prop :=
  ∀ (p : Params) (rd rs1 : RegIdx) (imm : BitVec 12) (s : State), rd ≠ 0#5 → s.inputEnded p = false →
    ∀ i ∈ [Instr.lb rd rs1 imm, .lbu rd rs1 imm, .lh rd rs1 imm, .lw rd rs1 imm],
      (effAddr s rs1 imm ∈ [2066#32, 2070#32] → (∀ b ∈ s.unread p, isSpace b = true) → execWith p i s = .next s) ∧
      ∀ ws sign ds : List Byte, effAddr s rs1 imm = 2070#32 → s.unread p = ws ++ sign ++ ds →
        (∀ b ∈ ws, isSpace b = true) → sign ∈ [[], [0x2B#8], [0x2D#8]] → (∀ d ∈ ds, isDigit d = true) →
        execWith p i s = .next s

/-- Where the host ends its input, a read of either port completes with some value, whatever remains of the input. A read of
port 2070 completes with the oracle's draw, the input ended or not, where a character ends a numeral that has no digits
or whose value does not fit 32 signed bits. Some part of the remaining input is consumed and nothing else changes; rd not 0,
any width. Rules R73 and R75; decision D28 (log entry 12). The whitespace set, the sign characters and the digits are
presumed (log entry 13). -/
def Obligations.ReadPortsCompleteAfterTheInputEnds : Prop :=
  ∀ (p : Params) (rd rs1 : RegIdx) (imm : BitVec 12) (s : State), rd ≠ 0#5 →
    ∀ i ∈ [Instr.lb rd rs1 imm, .lbu rd rs1 imm, .lh rd rs1 imm, .lw rd rs1 imm],
      (effAddr s rs1 imm ∈ [2066#32, 2070#32] → s.inputEnded p = true →
        ∃ t v k, execWith p i s = .next t ∧ ReadEffect s t rd v k ∧ k ≤ (s.unread p).length) ∧
      ∀ (ws sign ds rest : List Byte) (c : Byte), effAddr s rs1 imm = 2070#32 →
        s.unread p = ws ++ sign ++ ds ++ c :: rest → (∀ b ∈ ws, isSpace b = true) →
        sign ∈ [[], [0x2B#8], [0x2D#8]] → (∀ d ∈ ds, isDigit d = true) → isDigit c = false →
        (sign = [] → ds = [] → isSpace c = false ∧ c ≠ 0x2B#8 ∧ c ≠ 0x2D#8) →
        (ds = [] ∨ ¬ fitsS32 (if sign = [0x2D#8] then -(digitsValue ds : Int) else (digitsValue ds : Int))) →
        ∃ t k, execWith p i s = .next t ∧ ReadEffect s t rd (s.drawn p) k ∧ k ≤ (s.unread p).length

-- ## Stores

/-- sb, sh and sw inside a bank: 1, 2 or 4 bytes of x[rs2], least significant first, at the effective address and up, the
pc advanced by 4, nothing else: every other heap byte and every register as before. Rules R54, R56, R220, R221, R224 to
R226; decisions D12 and D26. -/
def Obligations.StoresWriteTheirBytesLittleEndian : Prop :=
  ∀ (rs1 rs2 : RegIdx) (imm : BitVec 12) (s : State),
    params.heapBase ≤ u32 (effAddr s rs1 imm) → u32 (effAddr s rs1 imm) < params.heapBase + 8192 →
    ∀ x ∈ [(Instr.sb rs1 rs2 imm, 1), (Instr.sh rs1 rs2 imm, 2), (Instr.sw rs1 rs2 imm, 4)],
      (u32 (effAddr s rs1 imm) - params.heapBase) % 64 + x.2 ≤ 64 →
      ∃ t, exec x.1 s = .next t ∧ StoreEffect s t (u32 (effAddr s rs1 imm)) x.2 (s.readReg rs2)

/-- A store of any width to 2048, 2052 or 2056 emits the low byte as a character, the whole register as a signed decimal, or
the whole register as an unsigned hexadecimal; the pc advances by 4, nothing else, no heap byte written. Rules R60 to R65,
R223; decision D14. -/
def Obligations.ConsolePortsEmitTheRegister : Prop :=
  ∀ (rs1 rs2 : RegIdx) (imm : BitVec 12) (s : State),
    ∀ i ∈ [Instr.sb rs1 rs2 imm, .sh rs1 rs2 imm, .sw rs1 rs2 imm],
    ∀ x ∈ [(2048#32, OutEvent.char (BitVec.ofNat 8 (u32 (s.readReg rs2)))), (2052#32, .dec (s32 (s.readReg rs2))),
        (2056#32, .hex (u32 (s.readReg rs2)))],
      effAddr s rs1 imm = x.1 → ∃ t, exec i s = .next t ∧ OutputEffect s t x.2

/-- A store of any width to 2060 emits the halt notice and ends the run in Halted with exit status 1, the pc not advanced,
nothing else changed, and no further instruction executes: that a step there is the fault terminated is the model's choice
(log entry 16). Rules R60 and R66; that the value and the width do not matter is decision D14. -/
def Obligations.HaltPortEndsTheRun : Prop :=
  ∀ (rs1 rs2 : RegIdx) (imm : BitVec 12) (s : State), effAddr s rs1 imm = 2060#32 →
    ∀ i ∈ [Instr.sb rs1 rs2 imm, .sh rs1 rs2 imm, .sw rs1 rs2 imm],
      exec i s = .next { s with out := s.out ++ [.haltNotice], status := .halted } ∧
        RunStatus.halted.exitStatus = some 1 ∧
        step { s with out := s.out ++ [.haltNotice], status := .halted } = .fault (.terminated .halted)

/-- A store of any width to 2080 emits the address of that store; to 2084 that address and the 32 registers as they read;
the pc advances by 4, nothing else. Rules R67, R68; decisions D14 and D34. -/
def Obligations.DumpPortsShowPcAndRegisters : Prop :=
  ∀ (rs1 rs2 : RegIdx) (imm : BitVec 12) (s : State),
    ∀ i ∈ [Instr.sb rs1 rs2 imm, .sh rs1 rs2 imm, .sw rs1 rs2 imm],
      (effAddr s rs1 imm = 2080#32 → ∃ t, exec i s = .next t ∧ OutputEffect s t (.dumpPc s.pc)) ∧
      (effAddr s rs1 imm = 2084#32 →
        ∃ t v, exec i s = .next t ∧ OutputEffect s t (.dumpRegs s.pc v) ∧
          ∀ k : Fin 32, v[k] = s.readReg (BitVec.ofFin k))

/-- A store of any width to 2088 emits the heap byte at the address x[rs2] and advances the pc by 4, nothing else; where
that address is outside the heap the step is refused. Rules R69, R306; decisions D14 and D16 (log entry 23). -/
def Obligations.DumpBytePortShowsAHeapByte : Prop :=
  ∀ (rs1 rs2 : RegIdx) (imm : BitVec 12) (s : State), effAddr s rs1 imm = 2088#32 →
    ∀ i ∈ [Instr.sb rs1 rs2 imm, .sh rs1 rs2 imm, .sw rs1 rs2 imm],
      if params.heapBase ≤ u32 (s.readReg rs2) ∧ u32 (s.readReg rs2) < params.heapBase + 8192 then
        ∃ t, exec i s = .next t ∧ OutputEffect s t (.dumpByte (s.heapByte params (u32 (s.readReg rs2))))
      else exec i s = .refused .dumpAddressOutOfHeap

/-- A store of any width to 2096: with a free bank and an id below 2^32, the lowest free bank is stamped with the id, the id
generator goes up by one, and x28 receives the bank's address; with no free bank x28 receives 0 and no tag or id changes;
with a free bank and the ids used up the step is refused. The pc advances by 4 and nothing else changes, the payload
included. Rules R70, R80, R82, R84, R85, R87; decisions D14, D17, D18, D30, D37 (log entries 8, 18 and 23). -/
def Obligations.AllocatePortTakesTheLowestFreeBank : Prop :=
  ∀ (rs1 rs2 : RegIdx) (imm : BitVec 12) (s : State), effAddr s rs1 imm = 2096#32 →
    ∀ i ∈ [Instr.sb rs1 rs2 imm, .sh rs1 rs2 imm, .sw rs1 rs2 imm],
      (∀ k, k < 128 → tagAt s.tags k = 0#32 → (∀ j, j < k → tagAt s.tags j ≠ 0#32) → s.nextId < 4294967296 →
        ∃ t g, exec i s = .next t ∧
          BankEffect s t (some (BitVec.ofNat 32 (params.heapBase + 64 * k))) g (s.nextId + 1) ∧
          ∀ j, j < 128 → tagAt g j = if j = k then BitVec.ofNat 32 s.nextId else tagAt s.tags j) ∧
      ((∀ k, k < 128 → tagAt s.tags k ≠ 0#32) →
        ∃ t, exec i s = .next t ∧ BankEffect s t (some 0#32) s.tags s.nextId) ∧
      ((∃ k, k < 128 ∧ tagAt s.tags k = 0#32) → 4294967296 ≤ s.nextId → exec i s = .refused .allocIdExhausted)

/-- An allocation that finds no sufficient run, of whatever size and under whatever reading of the request's size, sets x28
to 0, changes no bank and mints no id, and execution continues. Rule R85. -/
def Obligations.FailedAllocationOnlyClearsX28 : Prop :=
  ∀ (p : Params) (v : Word) (s : State), allocScan s.tags (banksNeeded (allocSize p v)) = none →
    ∃ t, portAlloc p v s = .next t ∧ BankEffect s t (some 0#32) s.tags s.nextId

/-- A store of any width to 2100: for x[rs2] a heap address the tags are those released from its bank on, for any other
value they stay; the pc advances by 4 and nothing else changes, no register and no payload byte. Rules R71, R87, R90, R91;
decisions D14, D19, D37 (log entry 9). -/
def Obligations.FreePortReleasesFromTheOwningBank : Prop :=
  ∀ (rs1 rs2 : RegIdx) (imm : BitVec 12) (s : State), effAddr s rs1 imm = 2100#32 →
    ∀ i ∈ [Instr.sb rs1 rs2 imm, .sh rs1 rs2 imm, .sw rs1 rs2 imm],
      ∃ t, exec i s = .next t ∧
        BankEffect s t none
          (if params.heapBase ≤ u32 (s.readReg rs2) ∧ u32 (s.readReg rs2) < params.heapBase + 8192
            then release s.tags ((u32 (s.readReg rs2) - params.heapBase) / 64) else s.tags) s.nextId

/-- A word store and then a load from the same address: lbu sees the least significant byte of the stored register, and lw
the OR of its four bytes, whatever was there before. Rules R56, R100, R194, R196, R198, R226; decisions D12 and D13. -/
def Obligations.LoadsSeeTheStoredBytes : Prop :=
  ∀ (rd rs1 rs2 : RegIdx) (imm : BitVec 12) (s t : State), rd ≠ 0#5 →
    params.heapBase ≤ u32 (effAddr s rs1 imm) → u32 (effAddr s rs1 imm) < params.heapBase + 8192 →
    (u32 (effAddr s rs1 imm) - params.heapBase) % 64 + 4 ≤ 64 → exec (.sw rs1 rs2 imm) s = .next t →
    (∃ t', exec (.lbu rd rs1 imm) t = .next t' ∧
      RegisterEffect t t' rd (BitVec.ofNat 32 (u32 (s.readReg rs2) % 256))) ∧
    ∃ t', exec (.lw rd rs1 imm) t = .next t' ∧
      RegisterEffect t t' rd (BitVec.ofNat 32 (u32 (s.readReg rs2) % 256 ||| u32 (s.readReg rs2) / 256 % 256 |||
        u32 (s.readReg rs2) / 65536 % 256 ||| u32 (s.readReg rs2) / 16777216))

-- ## The allocator

/-- An allocation scan finds exactly the smallest bank that begins enough free banks, and nothing exactly where there is
none; the banks needed are the least number, at least 1, that hold the size. An allocation takes the run its scan finds,
while an id below 2^32 is left: it stamps those banks with the id and no other, and the id generator goes up by one. Rules
R80 to R86; the bound on the id is decision D18 (log entries 18 and 23). -/
def Obligations.AllocationTakesTheLowestFittingRun : Prop :=
  ∀ (t : Vector Word 128) (nextId size : Nat),
    let need := banksNeeded size
    (1 ≤ need ∧ size ≤ 64 * need ∧ (need = 1 ∨ 64 * (need - 1) < size)) ∧
    (∀ k, allocScan t need = some k ↔
      k + need ≤ 128 ∧ (∀ i, k ≤ i → i < k + need → tagAt t i = 0#32) ∧
        ∀ k', k' < k → ∃ i, k' ≤ i ∧ i < k' + need ∧ tagAt t i ≠ 0#32) ∧
    (allocScan t need = none ↔ ∀ k, k + need ≤ 128 → ∃ i, k ≤ i ∧ i < k + need ∧ tagAt t i ≠ 0#32) ∧
    (∀ k, allocScan t need = some k → nextId < 4294967296 → ∃ g, alloc t nextId size = .took k g (nextId + 1)) ∧
    ∀ k g n, alloc t nextId size = .took k g n →
      allocScan t need = some k ∧ nextId < 4294967296 ∧ n = nextId + 1 ∧
        ∀ i, i < 128 → tagAt g i = if k ≤ i ∧ i < k + need then BitVec.ofNat 32 nextId else tagAt t i

/-- From reset, 128 single-bank allocations give banks 0, 1, ..., 127 in that order with the ids 1, 2, ..., 128, and the
129th fails. Rule R86. -/
def Obligations.AllocationsFromResetAscend : Prop :=
  (∀ n, n < 128 → ∃ g g', allocTimes n (State.reset.tags, State.reset.nextId) = some (g, n + 1) ∧
    alloc g (n + 1) 4 = .took n g' (n + 2) ∧
    ∀ k, k < 128 → tagAt g' k = if k ≤ n then BitVec.ofNat 32 (k + 1) else 0#32) ∧
  ∃ g, allocTimes 128 (State.reset.tags, State.reset.nextId) = some (g, 129) ∧ alloc g 129 4 = .full

/-- A release from a bank with a nonzero id frees every bank from it on that an unbroken run of that id reaches, and no
other; from a free bank it changes nothing. Rule R92. -/
def Obligations.ReleaseFreesTheForwardRun : Prop :=
  ∀ (t : Vector Word 128) (k : Nat), k < 128 →
    (tagAt t k = 0#32 → release t k = t) ∧
    (tagAt t k ≠ 0#32 → ∀ i, i < 128 →
      ((k ≤ i ∧ ∀ j, k ≤ j → j ≤ i → tagAt t j = tagAt t k) → tagAt (release t k) i = 0#32) ∧
      (¬ (k ≤ i ∧ ∀ j, k ≤ j → j ≤ i → tagAt t j = tagAt t k) → tagAt (release t k) i = tagAt t i))

-- ## Invariants and whole-machine rules

/-- Every step keeps both memories in canonical form and inside their address ranges. Rules R30, R31, R56 (log entry 22). -/
def Obligations.StepKeepsMemoriesCanonical : Prop :=
  ∀ s t : State, MemoriesCanonical s → step s = .next t → MemoriesCanonical t

/-- Every step keeps the allocator's invariants: the id generator between 1 and 2^32 exceeds every tag, and the banks of one
id are consecutive. Rule R94 (log entry 18). -/
def Obligations.StepKeepsBanksConsistent : Prop :=
  ∀ s t : State, BanksConsistent s → step s = .next t → BanksConsistent t

/-- Every step keeps the pc at most 1024: no jump or branch leaves [0, 1020], and the advance starts at 1020 or below. Rule
R25. -/
def Obligations.StepKeepsPcInRange : Prop :=
  ∀ s t : State, PcInRange s → step s = .next t → PcInRange t

/-- The invariants hold at reset. Rules R37, R25, R94. -/
def Obligations.InvariantsHoldAtReset : Prop :=
  MemoriesCanonical State.reset ∧ BanksConsistent State.reset ∧ PcInRange State.reset

/-- No step changes the instruction store, and no instruction's outcome depends on it: only the fetch reads it. Rule R30. -/
def Obligations.InstructionStoreIsOnlyFetched : Prop :=
  (∀ s t : State, step s = .next t → t.istore = s.istore) ∧
    ∀ (i : Instr) (s : State) (m : Memory), exec i { s with istore := m } = withIStore m (exec i s)

/-- A step appends at most one event to the output and keeps every earlier one in its place. Rules R62 and R100. -/
def Obligations.OutputOnlyGrows : Prop :=
  ∀ s t : State, step s = .next t → ∃ es : List OutEvent, es.length ≤ 1 ∧ t.out = s.out ++ es

/-- No id is stamped twice: the id generator never goes down, and a bank whose tag a step changes is either freed or stamped
with the id generator's old value, which then goes up by one. Rules R84 and R94. -/
def Obligations.IdsAreNeverStampedTwice : Prop :=
  ∀ s t : State, step s = .next t →
    s.nextId ≤ t.nextId ∧
      ∀ k, k < 128 → tagAt t.tags k ≠ tagAt s.tags k →
        tagAt t.tags k = 0#32 ∨
          (tagAt s.tags k = 0#32 ∧ tagAt t.tags k = BitVec.ofNat 32 s.nextId ∧ t.nextId = s.nextId + 1)

/-- The only ways a run ends, in a running state s. A next state that is not running is Exited, at a pc of 1024 or more;
Halted, by a store to port 2060; UnimplementedInstruction, for a word that decodes to nothing; or IllegalOperation, by an
instruction whose target or address is out of its range (`IllegalAt`). A refused step, which is the spec's terminal state
Refused (no run status here, log entry 15), is a misaligned fetch or an instruction with a cause of its own (`Refuses`).
Only Exited is a good end. Rules R300, R302, R306 and R319. The causes are those under the parameters in force (D17, D20; log
entries 7 and 8) and the spec's decisions D11, D14, D16, D18, D22 and D31 (log entries 23 and 26). -/
def Obligations.RunsEndOnlyInTheListedWays : Prop :=
  ∀ s : State, s.status = .running →
    (∀ f, step s ≠ .fault f) ∧
    (∀ t, step s = .next t → t.status ≠ .running →
      (EndsWell t ∧ 1024 ≤ u32 s.pc ∧ t.out = s.out) ∨
      (EndsBadly t ∧ ¬ EndsWell t ∧ u32 s.pc < 1024 ∧
        ((t.status = .halted ∧ ∃ i rs1 imm, decode (s.fetch32 (u32 s.pc)) = some i ∧
          storeOperands i = some (rs1, imm) ∧ effAddr s rs1 imm = 2060#32) ∨
        (t.status = .fatal .unimplementedInstruction (s.fetch32 (u32 s.pc)) s.pc ∧
          decode (s.fetch32 (u32 s.pc)) = none) ∨
        ∃ i a, decode (s.fetch32 (u32 s.pc)) = some i ∧ t.status = .fatal .illegalOperation a s.pc ∧
          IllegalAt s a i))) ∧
    ∀ r, step s = .refused r → EndsBadly s ∧ ¬ EndsWell s ∧ u32 s.pc < 1024 ∧
      ((r = .misalignedFetch ∧ u32 s.pc % 4 ≠ 0) ∨
        ∃ i, decode (s.fetch32 (u32 s.pc)) = some i ∧ Refuses s i r)

-- ## The parameters

/-- exec and step are the machine that takes the named parameters as its argument, at the parameters in force. Rules R7 and
R73; the parameters in force are the model's and the spec's choices (log entries 1, 2 and 4 to 12). -/
def Obligations.TheMachineRunsAtTheParametersInForce : Prop :=
  (∀ (i : Instr) (s : State), exec i s = execWith params i s) ∧ ∀ s : State, step s = stepWith params s

/-- Under every OPCODE_MAP that gives no two instructions the same numbers, decoding the word of a well-formed instruction
gives it back. Rules R115 to R135; the numbers themselves are decision D1, bits 10..4 of immUJ decision D4 (log entries 10
and 6). -/
def Obligations.EveryOpcodeMapDecodesWhatItEncodes : Prop :=
  ∀ (m : OpcodeMap) (i : Instr), m.wf → i.wellFormed = true → decodeWith m .present (encodeWith m i) = some i
end

