-- ==== Sys2Proof/Laws/Params.lean ====
section
/-!
SUPPORT. The parameters in force: HEAP_BASE meets rule R52, and what follows for the heap range.
-/

namespace Sys2Proof.Machine

@[simp] theorem params_heapBase : params.heapBase = Config.heapBase := rfl
@[simp] theorem params_sraReinsert : params.sraReinsert = .sign := rfl
@[simp] theorem params_branchCheck : params.branchCheck = .always := rfl
@[simp] theorem params_mallocSizeFromValue : params.mallocSizeFromValue = false := rfl
@[simp] theorem params_freeOutOfHeap : params.freeOutOfHeap = .noop := rfl

theorem heapBase_ge : 2101 ≤ Config.heapBase := by unfold Config.heapBase; omega

theorem heapBase_le : Config.heapBase + 8192 ≤ 4294967296 := by
  unfold Config.heapBase
  have := Nat.mod_lt Config.heapBaseDraw (y := 4294957004) (by omega)
  omega

/-- Rule R52's constraints hold of the parameters in force. -/
theorem params_wf : params.wf := ⟨heapBase_ge, heapBase_le⟩

/-- The heap range of rule R50, without the clause that rule R52 makes redundant. -/
theorem inHeap_iff {p : Params} (h : p.wf) (a : Word) :
    inHeap p a ↔ p.heapBase ≤ u32 a ∧ u32 a < p.heapBase + 8192 := by
  obtain ⟨h1, _⟩ := h
  constructor
  · exact fun ⟨_, h⟩ => h
  · exact fun ⟨h2, h3⟩ => ⟨le_trans h1 h2, h2, h3⟩

/-- HEAP_BASE as a word is that number. -/
theorem u32_heapBase : u32 (BitVec.ofNat 32 Config.heapBase) = Config.heapBase := by
  have := heapBase_le
  simp only [u32, BitVec.toNat_ofNat]
  omega

/-- The address of an access that stays in its bank ends inside the heap. -/
theorem crossesBank_bound {p : Params} {a : Word} {n : Nat} (h : inHeap p a) (hc : ¬ crossesBank p a n) :
    u32 a + n ≤ p.heapBase + 8192 := by
  obtain ⟨_, h1, h2⟩ := h
  simp only [crossesBank, bankOffset] at hc
  omega

end Sys2Proof.Machine
end

