-- ==== Sys2Proof/Laws/Alloc.lean ====
section
/-!
SUPPORT. The tag array under its updates, and what an allocation request answers.
-/

namespace Sys2Proof.Machine

theorem tagAt_setTag (t : Vector Word 128) (k i : Nat) (v : Word) :
    tagAt (setTag t k v) i = if i = k ∧ k < 128 then v else tagAt t i := by
  by_cases hk : k < 128
  · by_cases hi : i < 128
    · simp only [tagAt, setTag, hk, hi, dif_pos, and_true]
      rw [Vector.getElem_set]
      by_cases h : i = k
      · simp [h]
      · simp [h, Ne.symm h]
    · have : i ≠ k := by omega
      simp [tagAt, hi, this]
  · simp [setTag, hk]

/-- Stamping writes the id on the banks of the run and no other (rules R82, R83). -/
theorem tagAt_stamp (t : Vector Word 128) (k n i : Nat) (id : Word) (hi : i < 128) :
    tagAt (stamp t k n id) i = if k ≤ i ∧ i < k + n then id else tagAt t i := by
  simp [tagAt, stamp, hi]

/-- What an allocation request answers, by what its scan finds (rules R84, R85). -/
theorem alloc_took {t g : Vector Word 128} {nextId size k n : Nat} (h : alloc t nextId size = .took k g n) :
    allocScan t (banksNeeded size) = some k ∧ nextId < 4294967296 ∧ n = nextId + 1 ∧
      g = stamp t k (banksNeeded size) (BitVec.ofNat 32 nextId) := by
  unfold alloc at h
  split at h
  · cases h
  · rename_i hs
    split at h
    · cases h
    · cases h; exact ⟨hs, by omega, rfl, rfl⟩

theorem alloc_full {t : Vector Word 128} {nextId size : Nat} :
    alloc t nextId size = .full ↔ allocScan t (banksNeeded size) = none := by
  unfold alloc
  constructor
  · intro h
    split at h
    · rename_i hs; exact hs
    · split at h <;> cases h
  · intro h; rw [h]

theorem alloc_idExhausted {t : Vector Word 128} {nextId size : Nat} :
    alloc t nextId size = .idExhausted ↔ (∃ k, allocScan t (banksNeeded size) = some k) ∧ 4294967296 ≤ nextId := by
  unfold alloc
  split
  · simp [*]
  · split <;> simp [*]

/-- The single-bank scan finds the first free bank from `k` on (rule R82). -/
theorem firstFree_some {t : Vector Word 128} : ∀ {fuel k j : Nat}, firstFree t fuel k = some j →
    k ≤ j ∧ j < k + fuel ∧ tagAt t j = 0#32 ∧ ∀ i, k ≤ i → i < j → tagAt t i ≠ 0#32 := by
  intro fuel
  induction fuel with
  | zero => intro k j h; cases h
  | succ fuel ih =>
    intro k j h
    unfold firstFree at h
    split at h
    · rename_i h0; cases h
      exact ⟨le_refl _, by omega, h0, fun i h1 h2 => by omega⟩
    · rename_i h0
      obtain ⟨h1, h2, h3, h4⟩ := ih h
      refine ⟨by omega, by omega, h3, fun i hi hj => ?_⟩
      by_cases hik : i = k
      · exact hik ▸ h0
      · exact h4 i (by omega) hj

/-- The single-bank scan finds nothing where every bank it looks at is taken (rules R82, R85). -/
theorem firstFree_none {t : Vector Word 128} : ∀ {fuel k : Nat}, firstFree t fuel k = none →
    ∀ i, k ≤ i → i < k + fuel → tagAt t i ≠ 0#32 := by
  intro fuel
  induction fuel with
  | zero => intro k _ i h1 h2; omega
  | succ fuel ih =>
    intro k h i h1 h2
    unfold firstFree at h
    split at h
    · cases h
    · rename_i h0
      by_cases hik : i = k
      · exact hik ▸ h0
      · exact ih h i (by omega) (by omega)

/-- The address of a bank is that number (rule R31). -/
theorem u32_bankAddr {p : Params} (h : p.wf) {k : Nat} (hk : k < 128) : u32 (bankAddr p k) = p.heapBase + 64 * k := by
  obtain ⟨_, h2⟩ := h
  simp only [u32, bankAddr, BitVec.toNat_ofNat]
  omega

end Sys2Proof.Machine
end

