-- ==== Sys2Proof/Laws/Decode.lean ====
section
/-!
SUPPORT. What each field extractor reads from each encoder's word (30_encoding.md rules R115 and R135), the bytes of a
word, and which bits of an encoder's word an opcode-table mask keeps.
-/

namespace Sys2Proof

-- ## Bytes

/-- A word laid out in the instruction store and fetched again is that word (rule R10). -/
@[simp] theorem wordOfBytes_bytesOfInstr (w : Word) :
    wordOfBytes (w.extractLsb' 0 8) (w.extractLsb' 8 8) (w.extractLsb' 16 8) (w.extractLsb' 24 8) = w := by
  ext i hi
  interval_cases i <;> simp [wordOfBytes]

/-- Decoding the bytes of a word is decoding the word. -/
theorem decodeBytes_bytesOfInstr (w : Word) (rest : List Byte) :
    decodeBytes (bytesOfInstr w ++ rest) =
      match decode w with
      | some i => .instr i rest
      | none => .unimplementedInstruction w := by
  cases h : decode w <;> simp [bytesOfInstr, decodeBytes, h]

-- ## encR

@[simp] theorem opcodeOf_encR (op : BitVec 7) (rd : RegIdx) (f3 : BitVec 3) (rs1 rs2 : RegIdx) (f7 : BitVec 7) :
    opcodeOf (encR op rd f3 rs1 rs2 f7) = op := by
  ext i hi
  interval_cases i <;> simp [encR, opcodeOf]

@[simp] theorem rdOf_encR (op : BitVec 7) (rd : RegIdx) (f3 : BitVec 3) (rs1 rs2 : RegIdx) (f7 : BitVec 7) :
    rdOf (encR op rd f3 rs1 rs2 f7) = rd := by
  ext i hi
  interval_cases i <;> simp [encR, rdOf]

@[simp] theorem func3Of_encR (op : BitVec 7) (rd : RegIdx) (f3 : BitVec 3) (rs1 rs2 : RegIdx) (f7 : BitVec 7) :
    func3Of (encR op rd f3 rs1 rs2 f7) = f3 := by
  ext i hi
  interval_cases i <;> simp [encR, func3Of]

@[simp] theorem rs1Of_encR (op : BitVec 7) (rd : RegIdx) (f3 : BitVec 3) (rs1 rs2 : RegIdx) (f7 : BitVec 7) :
    rs1Of (encR op rd f3 rs1 rs2 f7) = rs1 := by
  ext i hi
  interval_cases i <;> simp [encR, rs1Of]

@[simp] theorem rs2Of_encR (op : BitVec 7) (rd : RegIdx) (f3 : BitVec 3) (rs1 rs2 : RegIdx) (f7 : BitVec 7) :
    rs2Of (encR op rd f3 rs1 rs2 f7) = rs2 := by
  ext i hi
  interval_cases i <;> simp [encR, rs2Of]

@[simp] theorem func7Of_encR (op : BitVec 7) (rd : RegIdx) (f3 : BitVec 3) (rs1 rs2 : RegIdx) (f7 : BitVec 7) :
    func7Of (encR op rd f3 rs1 rs2 f7) = f7 := by
  ext i hi
  interval_cases i <;> simp [encR, func7Of]

/-- The opcode-table mask of the format keeps the selecting fields alone. -/
theorem encR_mask (op : BitVec 7) (rd : RegIdx) (f3 : BitVec 3) (rs1 rs2 : RegIdx) (f7 : BitVec 7) :
    encR op rd f3 rs1 rs2 f7 &&& 0xFE00707F#32 = encR op 0 f3 0 0 f7 := by
  ext i hi
  interval_cases i <;> simp [encR]

-- ## encI

@[simp] theorem opcodeOf_encI (op : BitVec 7) (rd : RegIdx) (f3 : BitVec 3) (rs1 : RegIdx) (imm : BitVec 12) :
    opcodeOf (encI op rd f3 rs1 imm) = op := by
  ext i hi
  interval_cases i <;> simp [encI, opcodeOf]

@[simp] theorem rdOf_encI (op : BitVec 7) (rd : RegIdx) (f3 : BitVec 3) (rs1 : RegIdx) (imm : BitVec 12) :
    rdOf (encI op rd f3 rs1 imm) = rd := by
  ext i hi
  interval_cases i <;> simp [encI, rdOf]

@[simp] theorem func3Of_encI (op : BitVec 7) (rd : RegIdx) (f3 : BitVec 3) (rs1 : RegIdx) (imm : BitVec 12) :
    func3Of (encI op rd f3 rs1 imm) = f3 := by
  ext i hi
  interval_cases i <;> simp [encI, func3Of]

@[simp] theorem rs1Of_encI (op : BitVec 7) (rd : RegIdx) (f3 : BitVec 3) (rs1 : RegIdx) (imm : BitVec 12) :
    rs1Of (encI op rd f3 rs1 imm) = rs1 := by
  ext i hi
  interval_cases i <;> simp [encI, rs1Of]

@[simp] theorem immIOf_encI (op : BitVec 7) (rd : RegIdx) (f3 : BitVec 3) (rs1 : RegIdx) (imm : BitVec 12) :
    immIOf (encI op rd f3 rs1 imm) = imm := by
  ext i hi
  interval_cases i <;> simp [encI, immIOf]

/-- The opcode-table mask of the format keeps the selecting fields alone. -/
theorem encI_mask (op : BitVec 7) (rd : RegIdx) (f3 : BitVec 3) (rs1 : RegIdx) (imm : BitVec 12) :
    encI op rd f3 rs1 imm &&& 0x0000707F#32 = encI op 0 f3 0 0 := by
  ext i hi
  interval_cases i <;> simp [encI]

-- ## encS

@[simp] theorem opcodeOf_encS (op : BitVec 7) (f3 : BitVec 3) (rs1 rs2 : RegIdx) (imm : BitVec 12) :
    opcodeOf (encS op f3 rs1 rs2 imm) = op := by
  ext i hi
  interval_cases i <;> simp [encS, opcodeOf]

@[simp] theorem func3Of_encS (op : BitVec 7) (f3 : BitVec 3) (rs1 rs2 : RegIdx) (imm : BitVec 12) :
    func3Of (encS op f3 rs1 rs2 imm) = f3 := by
  ext i hi
  interval_cases i <;> simp [encS, func3Of]

@[simp] theorem rs1Of_encS (op : BitVec 7) (f3 : BitVec 3) (rs1 rs2 : RegIdx) (imm : BitVec 12) :
    rs1Of (encS op f3 rs1 rs2 imm) = rs1 := by
  ext i hi
  interval_cases i <;> simp [encS, rs1Of]

@[simp] theorem rs2Of_encS (op : BitVec 7) (f3 : BitVec 3) (rs1 rs2 : RegIdx) (imm : BitVec 12) :
    rs2Of (encS op f3 rs1 rs2 imm) = rs2 := by
  ext i hi
  interval_cases i <;> simp [encS, rs2Of]

@[simp] theorem immSOf_encS (op : BitVec 7) (f3 : BitVec 3) (rs1 rs2 : RegIdx) (imm : BitVec 12) :
    immSOf (encS op f3 rs1 rs2 imm) = imm := by
  ext i hi
  interval_cases i <;> simp [encS, immSOf]

/-- The opcode-table mask of the format keeps the selecting fields alone. -/
theorem encS_mask (op : BitVec 7) (f3 : BitVec 3) (rs1 rs2 : RegIdx) (imm : BitVec 12) :
    encS op f3 rs1 rs2 imm &&& 0x0000707F#32 = encS op f3 0 0 0 := by
  ext i hi
  interval_cases i <;> simp [encS]

-- ## encSB

@[simp] theorem opcodeOf_encSB (op : BitVec 7) (f3 : BitVec 3) (rs1 rs2 : RegIdx) (imm : BitVec 13) :
    opcodeOf (encSB op f3 rs1 rs2 imm) = op := by
  ext i hi
  interval_cases i <;> simp [encSB, opcodeOf]

@[simp] theorem func3Of_encSB (op : BitVec 7) (f3 : BitVec 3) (rs1 rs2 : RegIdx) (imm : BitVec 13) :
    func3Of (encSB op f3 rs1 rs2 imm) = f3 := by
  ext i hi
  interval_cases i <;> simp [encSB, func3Of]

@[simp] theorem rs1Of_encSB (op : BitVec 7) (f3 : BitVec 3) (rs1 rs2 : RegIdx) (imm : BitVec 13) :
    rs1Of (encSB op f3 rs1 rs2 imm) = rs1 := by
  ext i hi
  interval_cases i <;> simp [encSB, rs1Of]

@[simp] theorem rs2Of_encSB (op : BitVec 7) (f3 : BitVec 3) (rs1 rs2 : RegIdx) (imm : BitVec 13) :
    rs2Of (encSB op f3 rs1 rs2 imm) = rs2 := by
  ext i hi
  interval_cases i <;> simp [encSB, rs2Of]

@[simp] theorem immSBOf_encSB (op : BitVec 7) (f3 : BitVec 3) (rs1 rs2 : RegIdx) (imm : BitVec 13)
    (h : evenBranchOffset imm = true) : immSBOf (encSB op f3 rs1 rs2 imm) = imm := by
  simp [evenBranchOffset] at h
  ext i hi
  interval_cases i <;> simp [encSB, immSBOf, h]

/-- The opcode-table mask of the format keeps the selecting fields alone. -/
theorem encSB_mask (op : BitVec 7) (f3 : BitVec 3) (rs1 rs2 : RegIdx) (imm : BitVec 13) :
    encSB op f3 rs1 rs2 imm &&& 0x0000707F#32 = encSB op f3 0 0 0 := by
  ext i hi
  interval_cases i <;> simp [encSB]

-- ## encU

@[simp] theorem opcodeOf_encU (op : BitVec 7) (rd : RegIdx) (imm : BitVec 20) :
    opcodeOf (encU op rd imm) = op := by
  ext i hi
  interval_cases i <;> simp [encU, opcodeOf]

@[simp] theorem rdOf_encU (op : BitVec 7) (rd : RegIdx) (imm : BitVec 20) :
    rdOf (encU op rd imm) = rd := by
  ext i hi
  interval_cases i <;> simp [encU, rdOf]

@[simp] theorem immUOf_encU (op : BitVec 7) (rd : RegIdx) (imm : BitVec 20) :
    immUOf (encU op rd imm) = imm := by
  ext i hi
  interval_cases i <;> simp [encU, immUOf]

/-- The opcode-table mask of the format keeps the selecting fields alone. -/
theorem encU_mask (op : BitVec 7) (rd : RegIdx) (imm : BitVec 20) :
    encU op rd imm &&& 0x0000007F#32 = encU op 0 0 := by
  ext i hi
  interval_cases i <;> simp [encU]

-- ## encUJ

@[simp] theorem opcodeOf_encUJ (op : BitVec 7) (rd : RegIdx) (imm : BitVec 21) :
    opcodeOf (encUJ op rd imm) = op := by
  ext i hi
  interval_cases i <;> simp [encUJ, opcodeOf]

@[simp] theorem rdOf_encUJ (op : BitVec 7) (rd : RegIdx) (imm : BitVec 21) :
    rdOf (encUJ op rd imm) = rd := by
  ext i hi
  interval_cases i <;> simp [encUJ, rdOf]

@[simp] theorem immUJOf_encUJ (op : BitVec 7) (rd : RegIdx) (imm : BitVec 21) (h : evenJumpOffset imm = true) :
    immUJOf .present (encUJ op rd imm) = imm := by
  simp [evenJumpOffset] at h
  ext i hi
  interval_cases i <;> simp [encUJ, immUJOf, immUJMid, h]

/-- The opcode-table mask of the format keeps the selecting fields alone. -/
theorem encUJ_mask (op : BitVec 7) (rd : RegIdx) (imm : BitVec 21) :
    encUJ op rd imm &&& 0x0000007F#32 = encUJ op 0 0 := by
  ext i hi
  interval_cases i <;> simp [encUJ]

end Sys2Proof
end

