-- ==== Sys2Proof/Laws/State.lean ====
section
/-!
SUPPORT. One lemma per field per update of the state: what each named update leaves in each field.
-/

namespace Sys2Proof.Machine

-- ## setPc

@[simp] theorem State.setPc_regs (s : State) (t : Word) : (s.setPc t).regs = s.regs := rfl
@[simp] theorem State.setPc_pc (s : State) (t : Word) : (s.setPc t).pc = t := rfl
@[simp] theorem State.setPc_istore (s : State) (t : Word) : (s.setPc t).istore = s.istore := rfl
@[simp] theorem State.setPc_heap (s : State) (t : Word) : (s.setPc t).heap = s.heap := rfl
@[simp] theorem State.setPc_tags (s : State) (t : Word) : (s.setPc t).tags = s.tags := rfl
@[simp] theorem State.setPc_nextId (s : State) (t : Word) : (s.setPc t).nextId = s.nextId := rfl
@[simp] theorem State.setPc_out (s : State) (t : Word) : (s.setPc t).out = s.out := rfl
@[simp] theorem State.setPc_status (s : State) (t : Word) : (s.setPc t).status = s.status := rfl
@[simp] theorem State.setPc_inputPos (s : State) (t : Word) : (s.setPc t).inputPos = s.inputPos := rfl
@[simp] theorem State.setPc_reads (s : State) (t : Word) : (s.setPc t).reads = s.reads := rfl

-- ## setStatus

@[simp] theorem State.setStatus_regs (s : State) (st : RunStatus) : (s.setStatus st).regs = s.regs := rfl
@[simp] theorem State.setStatus_pc (s : State) (st : RunStatus) : (s.setStatus st).pc = s.pc := rfl
@[simp] theorem State.setStatus_istore (s : State) (st : RunStatus) : (s.setStatus st).istore = s.istore := rfl
@[simp] theorem State.setStatus_heap (s : State) (st : RunStatus) : (s.setStatus st).heap = s.heap := rfl
@[simp] theorem State.setStatus_tags (s : State) (st : RunStatus) : (s.setStatus st).tags = s.tags := rfl
@[simp] theorem State.setStatus_nextId (s : State) (st : RunStatus) : (s.setStatus st).nextId = s.nextId := rfl
@[simp] theorem State.setStatus_out (s : State) (st : RunStatus) : (s.setStatus st).out = s.out := rfl
@[simp] theorem State.setStatus_status (s : State) (st : RunStatus) : (s.setStatus st).status = st := rfl
@[simp] theorem State.setStatus_inputPos (s : State) (st : RunStatus) : (s.setStatus st).inputPos = s.inputPos := rfl
@[simp] theorem State.setStatus_reads (s : State) (st : RunStatus) : (s.setStatus st).reads = s.reads := rfl

-- ## emit

@[simp] theorem State.emit_regs (s : State) (e : OutEvent) : (s.emit e).regs = s.regs := rfl
@[simp] theorem State.emit_pc (s : State) (e : OutEvent) : (s.emit e).pc = s.pc := rfl
@[simp] theorem State.emit_istore (s : State) (e : OutEvent) : (s.emit e).istore = s.istore := rfl
@[simp] theorem State.emit_heap (s : State) (e : OutEvent) : (s.emit e).heap = s.heap := rfl
@[simp] theorem State.emit_tags (s : State) (e : OutEvent) : (s.emit e).tags = s.tags := rfl
@[simp] theorem State.emit_nextId (s : State) (e : OutEvent) : (s.emit e).nextId = s.nextId := rfl
@[simp] theorem State.emit_out (s : State) (e : OutEvent) : (s.emit e).out = s.out ++ [e] := rfl
@[simp] theorem State.emit_status (s : State) (e : OutEvent) : (s.emit e).status = s.status := rfl
@[simp] theorem State.emit_inputPos (s : State) (e : OutEvent) : (s.emit e).inputPos = s.inputPos := rfl
@[simp] theorem State.emit_reads (s : State) (e : OutEvent) : (s.emit e).reads = s.reads := rfl

-- ## setHeapByte

@[simp] theorem State.setHeapByte_regs (s : State) (a : Nat) (b : Byte) : (s.setHeapByte a b).regs = s.regs := rfl
@[simp] theorem State.setHeapByte_pc (s : State) (a : Nat) (b : Byte) : (s.setHeapByte a b).pc = s.pc := rfl
@[simp] theorem State.setHeapByte_istore (s : State) (a : Nat) (b : Byte) : (s.setHeapByte a b).istore = s.istore := rfl
@[simp] theorem State.setHeapByte_heap (s : State) (a : Nat) (b : Byte) : (s.setHeapByte a b).heap = s.heap.set a b := rfl
@[simp] theorem State.setHeapByte_tags (s : State) (a : Nat) (b : Byte) : (s.setHeapByte a b).tags = s.tags := rfl
@[simp] theorem State.setHeapByte_nextId (s : State) (a : Nat) (b : Byte) : (s.setHeapByte a b).nextId = s.nextId := rfl
@[simp] theorem State.setHeapByte_out (s : State) (a : Nat) (b : Byte) : (s.setHeapByte a b).out = s.out := rfl
@[simp] theorem State.setHeapByte_status (s : State) (a : Nat) (b : Byte) : (s.setHeapByte a b).status = s.status := rfl
@[simp] theorem State.setHeapByte_inputPos (s : State) (a : Nat) (b : Byte) : (s.setHeapByte a b).inputPos = s.inputPos := rfl
@[simp] theorem State.setHeapByte_reads (s : State) (a : Nat) (b : Byte) : (s.setHeapByte a b).reads = s.reads := rfl

-- ## setImageByte

@[simp] theorem State.setImageByte_regs (s : State) (a : Nat) (b : Byte) : (s.setImageByte a b).regs = s.regs := rfl
@[simp] theorem State.setImageByte_pc (s : State) (a : Nat) (b : Byte) : (s.setImageByte a b).pc = s.pc := rfl
@[simp] theorem State.setImageByte_istore (s : State) (a : Nat) (b : Byte) : (s.setImageByte a b).istore = s.istore.set a b := rfl
@[simp] theorem State.setImageByte_heap (s : State) (a : Nat) (b : Byte) : (s.setImageByte a b).heap = s.heap := rfl
@[simp] theorem State.setImageByte_tags (s : State) (a : Nat) (b : Byte) : (s.setImageByte a b).tags = s.tags := rfl
@[simp] theorem State.setImageByte_nextId (s : State) (a : Nat) (b : Byte) : (s.setImageByte a b).nextId = s.nextId := rfl
@[simp] theorem State.setImageByte_out (s : State) (a : Nat) (b : Byte) : (s.setImageByte a b).out = s.out := rfl
@[simp] theorem State.setImageByte_status (s : State) (a : Nat) (b : Byte) : (s.setImageByte a b).status = s.status := rfl
@[simp] theorem State.setImageByte_inputPos (s : State) (a : Nat) (b : Byte) : (s.setImageByte a b).inputPos = s.inputPos := rfl
@[simp] theorem State.setImageByte_reads (s : State) (a : Nat) (b : Byte) : (s.setImageByte a b).reads = s.reads := rfl

-- ## setBanks

@[simp] theorem State.setBanks_regs (s : State) (g : Vector Word 128) (n : Nat) : (s.setBanks g n).regs = s.regs := rfl
@[simp] theorem State.setBanks_pc (s : State) (g : Vector Word 128) (n : Nat) : (s.setBanks g n).pc = s.pc := rfl
@[simp] theorem State.setBanks_istore (s : State) (g : Vector Word 128) (n : Nat) : (s.setBanks g n).istore = s.istore := rfl
@[simp] theorem State.setBanks_heap (s : State) (g : Vector Word 128) (n : Nat) : (s.setBanks g n).heap = s.heap := rfl
@[simp] theorem State.setBanks_tags (s : State) (g : Vector Word 128) (n : Nat) : (s.setBanks g n).tags = g := rfl
@[simp] theorem State.setBanks_nextId (s : State) (g : Vector Word 128) (n : Nat) : (s.setBanks g n).nextId = n := rfl
@[simp] theorem State.setBanks_out (s : State) (g : Vector Word 128) (n : Nat) : (s.setBanks g n).out = s.out := rfl
@[simp] theorem State.setBanks_status (s : State) (g : Vector Word 128) (n : Nat) : (s.setBanks g n).status = s.status := rfl
@[simp] theorem State.setBanks_inputPos (s : State) (g : Vector Word 128) (n : Nat) : (s.setBanks g n).inputPos = s.inputPos := rfl
@[simp] theorem State.setBanks_reads (s : State) (g : Vector Word 128) (n : Nat) : (s.setBanks g n).reads = s.reads := rfl

-- ## tookInput

@[simp] theorem State.tookInput_regs (s : State) (k : Nat) : (s.tookInput k).regs = s.regs := rfl
@[simp] theorem State.tookInput_pc (s : State) (k : Nat) : (s.tookInput k).pc = s.pc := rfl
@[simp] theorem State.tookInput_istore (s : State) (k : Nat) : (s.tookInput k).istore = s.istore := rfl
@[simp] theorem State.tookInput_heap (s : State) (k : Nat) : (s.tookInput k).heap = s.heap := rfl
@[simp] theorem State.tookInput_tags (s : State) (k : Nat) : (s.tookInput k).tags = s.tags := rfl
@[simp] theorem State.tookInput_nextId (s : State) (k : Nat) : (s.tookInput k).nextId = s.nextId := rfl
@[simp] theorem State.tookInput_out (s : State) (k : Nat) : (s.tookInput k).out = s.out := rfl
@[simp] theorem State.tookInput_status (s : State) (k : Nat) : (s.tookInput k).status = s.status := rfl
@[simp] theorem State.tookInput_inputPos (s : State) (k : Nat) : (s.tookInput k).inputPos = s.inputPos + k := rfl
@[simp] theorem State.tookInput_reads (s : State) (k : Nat) : (s.tookInput k).reads = s.reads + 1 := rfl

-- ## writeReg: it changes the registers alone

@[simp] theorem State.writeReg_pc (s : State) (r : RegIdx) (v : Word) : (s.writeReg r v).pc = s.pc := by
  unfold State.writeReg; split <;> rfl
@[simp] theorem State.writeReg_istore (s : State) (r : RegIdx) (v : Word) : (s.writeReg r v).istore = s.istore := by
  unfold State.writeReg; split <;> rfl
@[simp] theorem State.writeReg_heap (s : State) (r : RegIdx) (v : Word) : (s.writeReg r v).heap = s.heap := by
  unfold State.writeReg; split <;> rfl
@[simp] theorem State.writeReg_tags (s : State) (r : RegIdx) (v : Word) : (s.writeReg r v).tags = s.tags := by
  unfold State.writeReg; split <;> rfl
@[simp] theorem State.writeReg_nextId (s : State) (r : RegIdx) (v : Word) : (s.writeReg r v).nextId = s.nextId := by
  unfold State.writeReg; split <;> rfl
@[simp] theorem State.writeReg_out (s : State) (r : RegIdx) (v : Word) : (s.writeReg r v).out = s.out := by
  unfold State.writeReg; split <;> rfl
@[simp] theorem State.writeReg_status (s : State) (r : RegIdx) (v : Word) : (s.writeReg r v).status = s.status := by
  unfold State.writeReg; split <;> rfl
@[simp] theorem State.writeReg_inputPos (s : State) (r : RegIdx) (v : Word) : (s.writeReg r v).inputPos = s.inputPos := by
  unfold State.writeReg; split <;> rfl
@[simp] theorem State.writeReg_reads (s : State) (r : RegIdx) (v : Word) : (s.writeReg r v).reads = s.reads := by
  unfold State.writeReg; split <;> rfl

-- ## advance, retire, raiseFatal, halt

@[simp] theorem State.advance_regs (s : State) : s.advance.regs = s.regs := rfl
@[simp] theorem State.advance_pc (s : State) : s.advance.pc = s.pc + 4#32 := rfl
@[simp] theorem State.advance_istore (s : State) : s.advance.istore = s.istore := rfl
@[simp] theorem State.advance_heap (s : State) : s.advance.heap = s.heap := rfl
@[simp] theorem State.advance_tags (s : State) : s.advance.tags = s.tags := rfl
@[simp] theorem State.advance_nextId (s : State) : s.advance.nextId = s.nextId := rfl
@[simp] theorem State.advance_out (s : State) : s.advance.out = s.out := rfl
@[simp] theorem State.advance_status (s : State) : s.advance.status = s.status := rfl
@[simp] theorem State.advance_inputPos (s : State) : s.advance.inputPos = s.inputPos := rfl
@[simp] theorem State.advance_reads (s : State) : s.advance.reads = s.reads := rfl

@[simp] theorem State.retire_pc (s : State) (r : RegIdx) (v : Word) : (s.retire r v).pc = s.pc + 4#32 := by
  simp [State.retire]
@[simp] theorem State.retire_istore (s : State) (r : RegIdx) (v : Word) : (s.retire r v).istore = s.istore := by
  simp [State.retire]
@[simp] theorem State.retire_heap (s : State) (r : RegIdx) (v : Word) : (s.retire r v).heap = s.heap := by
  simp [State.retire]
@[simp] theorem State.retire_tags (s : State) (r : RegIdx) (v : Word) : (s.retire r v).tags = s.tags := by
  simp [State.retire]
@[simp] theorem State.retire_nextId (s : State) (r : RegIdx) (v : Word) : (s.retire r v).nextId = s.nextId := by
  simp [State.retire]
@[simp] theorem State.retire_out (s : State) (r : RegIdx) (v : Word) : (s.retire r v).out = s.out := by
  simp [State.retire]
@[simp] theorem State.retire_status (s : State) (r : RegIdx) (v : Word) : (s.retire r v).status = s.status := by
  simp [State.retire]
@[simp] theorem State.retire_inputPos (s : State) (r : RegIdx) (v : Word) : (s.retire r v).inputPos = s.inputPos := by
  simp [State.retire]
@[simp] theorem State.retire_reads (s : State) (r : RegIdx) (v : Word) : (s.retire r v).reads = s.reads := by
  simp [State.retire]

@[simp] theorem State.raiseFatal_regs (s : State) (c : FatalCause) (v : Word) : (s.raiseFatal c v).regs = s.regs := rfl
@[simp] theorem State.raiseFatal_pc (s : State) (c : FatalCause) (v : Word) : (s.raiseFatal c v).pc = s.pc := rfl
@[simp] theorem State.raiseFatal_istore (s : State) (c : FatalCause) (v : Word) : (s.raiseFatal c v).istore = s.istore := rfl
@[simp] theorem State.raiseFatal_heap (s : State) (c : FatalCause) (v : Word) : (s.raiseFatal c v).heap = s.heap := rfl
@[simp] theorem State.raiseFatal_tags (s : State) (c : FatalCause) (v : Word) : (s.raiseFatal c v).tags = s.tags := rfl
@[simp] theorem State.raiseFatal_nextId (s : State) (c : FatalCause) (v : Word) : (s.raiseFatal c v).nextId = s.nextId := rfl
@[simp] theorem State.raiseFatal_out (s : State) (c : FatalCause) (v : Word) : (s.raiseFatal c v).out = s.out ++ [.fatalDump c s.pc s.regView] := rfl
@[simp] theorem State.raiseFatal_status (s : State) (c : FatalCause) (v : Word) : (s.raiseFatal c v).status = .fatal c v s.pc := rfl
@[simp] theorem State.raiseFatal_inputPos (s : State) (c : FatalCause) (v : Word) : (s.raiseFatal c v).inputPos = s.inputPos := rfl
@[simp] theorem State.raiseFatal_reads (s : State) (c : FatalCause) (v : Word) : (s.raiseFatal c v).reads = s.reads := rfl

@[simp] theorem State.halt_regs (s : State) : s.halt.regs = s.regs := rfl
@[simp] theorem State.halt_pc (s : State) : s.halt.pc = s.pc := rfl
@[simp] theorem State.halt_istore (s : State) : s.halt.istore = s.istore := rfl
@[simp] theorem State.halt_heap (s : State) : s.halt.heap = s.heap := rfl
@[simp] theorem State.halt_tags (s : State) : s.halt.tags = s.tags := rfl
@[simp] theorem State.halt_nextId (s : State) : s.halt.nextId = s.nextId := rfl
@[simp] theorem State.halt_out (s : State) : s.halt.out = s.out ++ [.haltNotice] := rfl
@[simp] theorem State.halt_status (s : State) : s.halt.status = .halted := rfl
@[simp] theorem State.halt_inputPos (s : State) : s.halt.inputPos = s.inputPos := rfl
@[simp] theorem State.halt_reads (s : State) : s.halt.reads = s.reads := rfl

-- ## setHeapBytes and placeImage: they change one memory alone

@[simp] theorem State.setHeapBytes_regs (bs : List Byte) :
    ∀ (s : State) (a : Nat), (s.setHeapBytes a bs).regs = s.regs := by
  induction bs with
  | nil => intro s a; rfl
  | cons b bs ih => intro s a; simp [State.setHeapBytes, ih]

@[simp] theorem State.setHeapBytes_pc (bs : List Byte) :
    ∀ (s : State) (a : Nat), (s.setHeapBytes a bs).pc = s.pc := by
  induction bs with
  | nil => intro s a; rfl
  | cons b bs ih => intro s a; simp [State.setHeapBytes, ih]

@[simp] theorem State.setHeapBytes_istore (bs : List Byte) :
    ∀ (s : State) (a : Nat), (s.setHeapBytes a bs).istore = s.istore := by
  induction bs with
  | nil => intro s a; rfl
  | cons b bs ih => intro s a; simp [State.setHeapBytes, ih]

@[simp] theorem State.setHeapBytes_tags (bs : List Byte) :
    ∀ (s : State) (a : Nat), (s.setHeapBytes a bs).tags = s.tags := by
  induction bs with
  | nil => intro s a; rfl
  | cons b bs ih => intro s a; simp [State.setHeapBytes, ih]

@[simp] theorem State.setHeapBytes_nextId (bs : List Byte) :
    ∀ (s : State) (a : Nat), (s.setHeapBytes a bs).nextId = s.nextId := by
  induction bs with
  | nil => intro s a; rfl
  | cons b bs ih => intro s a; simp [State.setHeapBytes, ih]

@[simp] theorem State.setHeapBytes_out (bs : List Byte) :
    ∀ (s : State) (a : Nat), (s.setHeapBytes a bs).out = s.out := by
  induction bs with
  | nil => intro s a; rfl
  | cons b bs ih => intro s a; simp [State.setHeapBytes, ih]

@[simp] theorem State.setHeapBytes_status (bs : List Byte) :
    ∀ (s : State) (a : Nat), (s.setHeapBytes a bs).status = s.status := by
  induction bs with
  | nil => intro s a; rfl
  | cons b bs ih => intro s a; simp [State.setHeapBytes, ih]

@[simp] theorem State.setHeapBytes_inputPos (bs : List Byte) :
    ∀ (s : State) (a : Nat), (s.setHeapBytes a bs).inputPos = s.inputPos := by
  induction bs with
  | nil => intro s a; rfl
  | cons b bs ih => intro s a; simp [State.setHeapBytes, ih]

@[simp] theorem State.setHeapBytes_reads (bs : List Byte) :
    ∀ (s : State) (a : Nat), (s.setHeapBytes a bs).reads = s.reads := by
  induction bs with
  | nil => intro s a; rfl
  | cons b bs ih => intro s a; simp [State.setHeapBytes, ih]

@[simp] theorem State.placeImage_regs (bs : List Byte) :
    ∀ (s : State) (a : Nat), (s.placeImage a bs).regs = s.regs := by
  induction bs with
  | nil => intro s a; rfl
  | cons b bs ih => intro s a; simp [State.placeImage, ih]

@[simp] theorem State.placeImage_pc (bs : List Byte) :
    ∀ (s : State) (a : Nat), (s.placeImage a bs).pc = s.pc := by
  induction bs with
  | nil => intro s a; rfl
  | cons b bs ih => intro s a; simp [State.placeImage, ih]

@[simp] theorem State.placeImage_heap (bs : List Byte) :
    ∀ (s : State) (a : Nat), (s.placeImage a bs).heap = s.heap := by
  induction bs with
  | nil => intro s a; rfl
  | cons b bs ih => intro s a; simp [State.placeImage, ih]

@[simp] theorem State.placeImage_tags (bs : List Byte) :
    ∀ (s : State) (a : Nat), (s.placeImage a bs).tags = s.tags := by
  induction bs with
  | nil => intro s a; rfl
  | cons b bs ih => intro s a; simp [State.placeImage, ih]

@[simp] theorem State.placeImage_nextId (bs : List Byte) :
    ∀ (s : State) (a : Nat), (s.placeImage a bs).nextId = s.nextId := by
  induction bs with
  | nil => intro s a; rfl
  | cons b bs ih => intro s a; simp [State.placeImage, ih]

@[simp] theorem State.placeImage_out (bs : List Byte) :
    ∀ (s : State) (a : Nat), (s.placeImage a bs).out = s.out := by
  induction bs with
  | nil => intro s a; rfl
  | cons b bs ih => intro s a; simp [State.placeImage, ih]

@[simp] theorem State.placeImage_status (bs : List Byte) :
    ∀ (s : State) (a : Nat), (s.placeImage a bs).status = s.status := by
  induction bs with
  | nil => intro s a; rfl
  | cons b bs ih => intro s a; simp [State.placeImage, ih]

@[simp] theorem State.placeImage_inputPos (bs : List Byte) :
    ∀ (s : State) (a : Nat), (s.placeImage a bs).inputPos = s.inputPos := by
  induction bs with
  | nil => intro s a; rfl
  | cons b bs ih => intro s a; simp [State.placeImage, ih]

@[simp] theorem State.placeImage_reads (bs : List Byte) :
    ∀ (s : State) (a : Nat), (s.placeImage a bs).reads = s.reads := by
  induction bs with
  | nil => intro s a; rfl
  | cons b bs ih => intro s a; simp [State.placeImage, ih]

end Sys2Proof.Machine
end

