-- ==== Sys2Proof/Laws/Memory.lean ====
section
/-!
SUPPORT. The laws of a memory: a read after a write, the canonical form kept, and the same laws for the heap and the
instruction store of a state.
-/

namespace Sys2Proof.Machine

-- ## Read after write

@[simp] theorem Memory.get_nil (a : Nat) : Memory.get [] a = none := rfl

@[simp] theorem Memory.get_cons (k : Nat) (b : Byte) (m : Memory) (a : Nat) :
    Memory.get ((k, b) :: m) a = if k = a then some b else Memory.get m a := rfl

/-- Reading where a write went gives the value written. -/
@[simp] theorem Memory.get_set_self (m : Memory) (a : Nat) (v : Byte) : (Memory.set m a v).get a = some v := by
  induction m with
  | nil => simp [Memory.set]
  | cons c m ih =>
    obtain ⟨k, b⟩ := c
    unfold Memory.set
    by_cases hlt : a < k
    · simp [hlt]
    · by_cases heq : a = k
      · simp [heq]
      · simp [hlt, heq, Ne.symm heq, ih]

/-- A write leaves every other address alone. -/
theorem Memory.get_set_other (m : Memory) {a a' : Nat} (v : Byte) (h : a' ≠ a) :
    (Memory.set m a v).get a' = m.get a' := by
  induction m with
  | nil => simp [Memory.set, Ne.symm h]
  | cons c m ih =>
    obtain ⟨k, b⟩ := c
    unfold Memory.set
    by_cases hlt : a < k
    · simp [hlt, Ne.symm h]
    · by_cases heq : a = k
      · subst heq; simp [Ne.symm h]
      · simp only [hlt, heq, if_false, Memory.get_cons, ih]

theorem Memory.get_set (m : Memory) (a a' : Nat) (v : Byte) :
    (Memory.set m a v).get a' = if a' = a then some v else m.get a' := by
  by_cases h : a' = a
  · simp [h]
  · simp [h, Memory.get_set_other m v h]

-- ## The canonical form

theorem Memory.mem_set {m : Memory} {a : Nat} {v : Byte} {c : Host.Cell} (h : c ∈ Memory.set m a v) :
    c = (a, v) ∨ c ∈ m := by
  induction m with
  | nil => simpa [Memory.set] using h
  | cons d m ih =>
    obtain ⟨k, b⟩ := d
    unfold Memory.set at h
    split at h
    · simpa using h
    · split at h
      · simp only [List.mem_cons] at h ⊢; tauto
      · simp only [List.mem_cons] at h ⊢
        rcases h with h | h
        · exact .inr (.inl h)
        · rcases ih h with h | h
          · exact .inl h
          · exact .inr (.inr h)

/-- Every write keeps the addresses strictly rising. -/
theorem Memory.set_wf {m : Memory} (h : m.wf) (a : Nat) (v : Byte) : (Memory.set m a v).wf := by
  induction m with
  | nil => simp [Memory.set, Memory.wf]
  | cons d m ih =>
    obtain ⟨k, b⟩ := d
    have hk : ∀ c ∈ m, k < c.1 := (List.pairwise_cons.1 h).1
    have hm : Memory.wf m := (List.pairwise_cons.1 h).2
    unfold Memory.set
    split
    · rename_i hlt
      refine List.pairwise_cons.2 ⟨?_, h⟩
      intro c hc
      rcases List.mem_cons.1 hc with rfl | hc
      · exact hlt
      · exact lt_trans hlt (hk c hc)
    · split
      · rename_i _ heq
        subst heq
        exact List.pairwise_cons.2 ⟨hk, hm⟩
      · rename_i hlt hne
        refine List.pairwise_cons.2 ⟨?_, ih hm⟩
        intro c hc
        rcases Memory.mem_set hc with rfl | hc
        · show k < a; omega
        · exact hk c hc

/-- A write inside a range keeps every listed address inside it. -/
theorem Memory.set_within {m : Memory} {lo hi : Nat} (h : m.within lo hi) {a : Nat} (v : Byte) (ha : lo ≤ a ∧ a < hi) :
    (Memory.set m a v).within lo hi := by
  intro c hc
  rcases Memory.mem_set hc with rfl | hc
  · exact ha
  · exact h c hc

/-- In the canonical form a listed cell is what its address reads as. -/
theorem Memory.get_of_mem {m : Memory} (h : m.wf) {a : Nat} {b : Byte} (hc : (a, b) ∈ m) : m.get a = some b := by
  induction m with
  | nil => simp at hc
  | cons d m ih =>
    obtain ⟨k, c⟩ := d
    rcases List.mem_cons.1 hc with heq | hc
    · obtain ⟨rfl, rfl⟩ := Prod.mk.inj heq; simp
    · have hk : k < a := (List.pairwise_cons.1 h).1 _ hc
      have : k ≠ a := by omega
      simp [this, ih (List.pairwise_cons.1 h).2 hc]

theorem Memory.wf_nil : Memory.wf [] := by simp [Memory.wf]

-- ## Several bytes in a row

/-- Storing bytes keeps the heap's canonical form. -/
theorem State.setHeapBytes_wf (bs : List Byte) :
    ∀ (s : State) (a : Nat), s.heap.wf → (s.setHeapBytes a bs).heap.wf := by
  induction bs with
  | nil => intro s a h; exact h
  | cons b bs ih => intro s a h; exact ih _ _ (by simpa using Memory.set_wf h a b)

/-- Storing bytes inside a range keeps the heap inside it. -/
theorem State.setHeapBytes_within (bs : List Byte) {lo hi : Nat} :
    ∀ (s : State) (a : Nat), s.heap.within lo hi → lo ≤ a → a + bs.length ≤ hi →
      (s.setHeapBytes a bs).heap.within lo hi := by
  induction bs with
  | nil => intro s a h _ _; exact h
  | cons b bs ih =>
    intro s a h hlo hhi
    simp only [List.length_cons] at hhi
    exact ih _ _ (by simpa using Memory.set_within h b ⟨hlo, by omega⟩) (by omega) (by omega)

/-- Placing image bytes keeps the instruction store's canonical form. -/
theorem State.placeImage_wf (bs : List Byte) :
    ∀ (s : State) (a : Nat), s.istore.wf → (s.placeImage a bs).istore.wf := by
  induction bs with
  | nil => intro s a h; exact h
  | cons b bs ih => intro s a h; exact ih _ _ (by simpa using Memory.set_wf h a b)

-- ## The heap and the instruction store of a state

@[simp] theorem State.heapByte_congr {p : Params} {s t : State} (h : t.heap = s.heap) (a : Nat) :
    t.heapByte p a = s.heapByte p a := by simp [State.heapByte, h]

theorem State.heapByte_setHeapByte (p : Params) (s : State) (a a' : Nat) (b : Byte) :
    (s.setHeapByte a b).heapByte p a' = if a' = a then b else s.heapByte p a' := by
  simp only [State.heapByte, State.setHeapByte_heap, Memory.get_set]
  split <;> simp

/-- The heap after storing bytes from `a` up: those bytes there, and every other byte as before. -/
theorem State.heapByte_setHeapBytes (p : Params) (bs : List Byte) :
    ∀ (s : State) (a a' : Nat),
      (s.setHeapBytes a bs).heapByte p a' =
        if a ≤ a' ∧ a' < a + bs.length then bs.getD (a' - a) 0#8 else s.heapByte p a' := by
  induction bs with
  | nil => intro s a a'; simp [State.setHeapBytes]
  | cons b bs ih =>
    intro s a a'
    rw [State.setHeapBytes, ih, State.heapByte_setHeapByte]
    by_cases h0 : a' = a
    · subst h0; simp
    · simp only [h0, if_false, List.length_cons]
      by_cases h1 : a + 1 ≤ a' ∧ a' < a + 1 + bs.length
      · rw [if_pos h1, if_pos (by omega)]
        have : a' - a = (a' - (a + 1)) + 1 := by omega
        rw [this, List.getD_cons_succ]
      · rw [if_neg h1, if_neg (by omega)]

theorem State.istoreByte_setImageByte (s : State) (a a' : Nat) (b : Byte) :
    (s.setImageByte a b).istoreByte a' = if a' = a then b else s.istoreByte a' := by
  simp only [State.istoreByte, State.setImageByte_istore, Memory.get_set]
  split <;> simp

@[simp] theorem State.heapBytes_length (p : Params) (s : State) (n : Nat) : ∀ a, (s.heapBytes p a n).length = n := by
  induction n with
  | zero => intro a; rfl
  | succ n ih => intro a; simp [State.heapBytes, ih]

end Sys2Proof.Machine
end

