-- ==== Sys2Proof/Machine/Launch.lean ====
section
/-!
DEFINITION. The start of a run (70_reset_and_hazards.md rule R342, 60_exceptions.md rule R313): the loader's boundary, which
either launches the machine or ends the process before the machine starts. These are the host's moves; no step makes them.
-/

namespace Sys2Proof.Machine

/-- What the loader finds at the path argument (rules R313 and R342). -/
inductive ImageSource where
  /-- No path argument was given: a usage error. -/
  | noPath
  /-- The file cannot be opened. -/
  | unopenable
  /-- The bytes the file holds. -/
  | file (bytes : List Byte)
  deriving DecidableEq, Repr

/-- What starting a run comes to. -/
inductive Startup where
  /-- The machine starts in this state. -/
  | started (s : State)
  /-- The process ends with this exit status and the machine never starts. -/
  | ended (exitStatus : Nat)
  deriving DecidableEq, Repr

/-- A launch (rule R342): reset, with the 1024 bytes of the instruction image and the heap contents the host chose. -/
def State.launch (p : Params) (img : Vector Byte 1024) (heapInit : Vector Byte 8192) : State :=
  (State.reset.placeImage 0 img.toList).setHeapBytes p.heapBase heapInit.toList

/-- The instruction image of a file: its first 1024 bytes, where it holds exactly 2048 (rule R342). -/
def imageOfFile (bytes : List Byte) : Option (Vector Byte 1024) :=
  if bytes.length = 2048 then some (Vector.ofFn fun k => bytes.getD k.val 0#8) else none

/-- The start of a run: a launch from a file of exactly 2048 bytes; else status 1, and the machine never starts (rules R300,
R313, R342). The diagnostic on the error stream is out of scope (rule R5). -/
def startRun (p : Params) (src : ImageSource) (heapInit : Vector Byte 8192) : Startup :=
  match src with
  | .noPath => .ended 1
  | .unopenable => .ended 1
  | .file bytes =>
    match imageOfFile bytes with
    | some img => .started (State.launch p img heapInit)
    | none => .ended 1

end Sys2Proof.Machine
end

