-- ==== Sys2Proof/Laws/Launch.lean ====
section
/-!
SUPPORT. What a launch leaves in each field (rules R37, R340, R342), and which sources start a run (rule R313).
-/

namespace Sys2Proof.Machine

@[simp] theorem State.launch_regs (p : Params) (img : Vector Byte 1024) (h : Vector Byte 8192) :
    (State.launch p img h).regs = State.reset.regs := by simp [State.launch]
@[simp] theorem State.launch_pc (p : Params) (img : Vector Byte 1024) (h : Vector Byte 8192) :
    (State.launch p img h).pc = 0#32 := by simp [State.launch, State.reset]
@[simp] theorem State.launch_tags (p : Params) (img : Vector Byte 1024) (h : Vector Byte 8192) :
    (State.launch p img h).tags = State.reset.tags := by simp [State.launch]
@[simp] theorem State.launch_nextId (p : Params) (img : Vector Byte 1024) (h : Vector Byte 8192) :
    (State.launch p img h).nextId = 1 := by simp [State.launch, State.reset]
@[simp] theorem State.launch_out (p : Params) (img : Vector Byte 1024) (h : Vector Byte 8192) :
    (State.launch p img h).out = [] := by simp [State.launch, State.reset]
@[simp] theorem State.launch_status (p : Params) (img : Vector Byte 1024) (h : Vector Byte 8192) :
    (State.launch p img h).status = .running := by simp [State.launch, State.reset]
@[simp] theorem State.launch_inputPos (p : Params) (img : Vector Byte 1024) (h : Vector Byte 8192) :
    (State.launch p img h).inputPos = 0 := by simp [State.launch, State.reset]
@[simp] theorem State.launch_reads (p : Params) (img : Vector Byte 1024) (h : Vector Byte 8192) :
    (State.launch p img h).reads = 0 := by simp [State.launch, State.reset]

/-- The instruction store after placing bytes from `a` up: those bytes there, and every other byte as before. -/
theorem State.istoreByte_placeImage (bs : List Byte) :
    ∀ (s : State) (a a' : Nat),
      (s.placeImage a bs).istoreByte a' =
        if a ≤ a' ∧ a' < a + bs.length then bs.getD (a' - a) 0#8 else s.istoreByte a' := by
  induction bs with
  | nil => intro s a a'; simp [State.placeImage]
  | cons b bs ih =>
    intro s a a'
    rw [State.placeImage, ih, State.istoreByte_setImageByte, List.length_cons]
    by_cases h : a' = a
    · subst h
      rw [if_neg (by omega), if_pos rfl, if_pos (by omega), Nat.sub_self]
      rfl
    · rw [if_neg h]
      by_cases h2 : a + 1 ≤ a' ∧ a' < a + 1 + bs.length
      · rw [if_pos h2, if_pos (by omega), show a' - a = (a' - (a + 1)) + 1 by omega]
        rfl
      · rw [if_neg h2, if_neg (by omega)]

/-- `IStore[i] = img[i]` (rule R342). -/
theorem State.launch_istoreByte (p : Params) (img : Vector Byte 1024) (h : Vector Byte 8192) {k : Nat} (hk : k < 1024) :
    (State.launch p img h).istoreByte k = img[k] := by
  have e : (State.launch p img h).istoreByte k = (State.reset.placeImage 0 img.toList).istoreByte k := by
    simp [State.istoreByte, State.launch]
  rw [e, State.istoreByte_placeImage, if_pos (by simpa using hk)]
  simp [List.getD, hk]

/-- The heap bytes are those the host chose (rule R37). -/
theorem State.launch_heapByte (p : Params) (img : Vector Byte 1024) (h : Vector Byte 8192) {k : Nat} (hk : k < 8192) :
    (State.launch p img h).heapByte p (p.heapBase + k) = h[k] := by
  rw [State.launch, State.heapByte_setHeapBytes, if_pos (by simp; omega), Nat.add_sub_cancel_left]
  simp [List.getD, hk]

/-- A launch keeps the canonical form of both memories. -/
theorem State.launch_wf (p : Params) (img : Vector Byte 1024) (h : Vector Byte 8192) :
    (State.launch p img h).istore.wf ∧ (State.launch p img h).heap.wf := by
  refine ⟨?_, State.setHeapBytes_wf _ _ _ (by simp [State.reset, Memory.wf])⟩
  rw [State.launch, State.setHeapBytes_istore]
  exact State.placeImage_wf _ _ _ (by simp [State.reset, Memory.wf])

theorem imageOfFile_some {bytes : List Byte} (h : bytes.length = 2048) :
    imageOfFile bytes = some (Vector.ofFn fun k => bytes.getD k.val 0#8) := if_pos h

theorem imageOfFile_none {bytes : List Byte} (h : bytes.length ≠ 2048) : imageOfFile bytes = none := if_neg h

/-- A run starts exactly from a file of 2048 bytes, and then in the launch of its first 1024 (rules R313, R342). -/
theorem startRun_started {p : Params} {src : ImageSource} {h : Vector Byte 8192} {s : State} :
    startRun p src h = .started s ↔
      ∃ bytes, src = .file bytes ∧ bytes.length = 2048 ∧
        s = State.launch p (Vector.ofFn fun k => bytes.getD k.val 0#8) h := by
  cases src with
  | noPath => simp [startRun]
  | unopenable => simp [startRun]
  | file bytes =>
    by_cases hl : bytes.length = 2048
    · simp only [startRun, imageOfFile_some hl, Startup.started.injEq, ImageSource.file.injEq, exists_eq_left', hl,
        true_and, eq_comm]
    · simp [startRun, imageOfFile_none hl, hl]

/-- Every other source ends the process with status 1 (rule R313). -/
theorem startRun_ended {p : Params} {src : ImageSource} {h : Vector Byte 8192}
    (hn : ∀ bytes, src = .file bytes → bytes.length ≠ 2048) : startRun p src h = .ended 1 := by
  cases src with
  | noPath => rfl
  | unopenable => rfl
  | file bytes => simp [startRun, imageOfFile_none (hn bytes rfl)]

end Sys2Proof.Machine
end

