-- ==== Sys2Proof/Laws/Registers.lean ====
section
/-!
SUPPORT. The laws of the register file: x0 reads 0 and takes no write; any other register reads what was last written;
no other update touches a register.
-/

namespace Sys2Proof.Machine

@[simp] theorem State.readReg_zero (s : State) : s.readReg 0#5 = 0#32 := by simp [State.readReg]

@[simp] theorem State.writeReg_zero (s : State) (v : Word) : s.writeReg 0#5 v = s := by simp [State.writeReg]

/-- The register file after a write, register by register. -/
theorem State.readReg_writeReg (s : State) (r r' : RegIdx) (v : Word) :
    (s.writeReg r v).readReg r' = if r' = r ∧ r ≠ 0#5 then v else s.readReg r' := by
  by_cases hr : r = 0#5
  · simp [hr]
  · by_cases hr' : r' = 0#5
    · subst hr'; simp [Ne.symm hr]
    · simp only [State.writeReg, hr, if_false, State.readReg, hr']
      rw [Vector.getElem_set]
      by_cases h : r' = r
      · subst h; simp [hr]
      · have : r.toNat ≠ r'.toNat := fun e => h (BitVec.eq_of_toNat_eq e.symm)
        simp [h, this]

theorem State.readReg_congr {s t : State} (h : t.regs = s.regs) (r : RegIdx) : t.readReg r = s.readReg r := by
  simp [State.readReg, h]

@[simp] theorem State.readReg_setPc (s : State) (t : Word) (r : RegIdx) : (s.setPc t).readReg r = s.readReg r := rfl
@[simp] theorem State.readReg_setStatus (s : State) (st : RunStatus) (r : RegIdx) :
    (s.setStatus st).readReg r = s.readReg r := rfl
@[simp] theorem State.readReg_emit (s : State) (e : OutEvent) (r : RegIdx) : (s.emit e).readReg r = s.readReg r := rfl
@[simp] theorem State.readReg_setBanks (s : State) (g : Vector Word 128) (n : Nat) (r : RegIdx) :
    (s.setBanks g n).readReg r = s.readReg r := rfl
@[simp] theorem State.readReg_tookInput (s : State) (k : Nat) (r : RegIdx) :
    (s.tookInput k).readReg r = s.readReg r := rfl
@[simp] theorem State.readReg_advance (s : State) (r : RegIdx) : s.advance.readReg r = s.readReg r := rfl
@[simp] theorem State.readReg_raiseFatal (s : State) (c : FatalCause) (v : Word) (r : RegIdx) :
    (s.raiseFatal c v).readReg r = s.readReg r := rfl
@[simp] theorem State.readReg_halt (s : State) (r : RegIdx) : s.halt.readReg r = s.readReg r := rfl
@[simp] theorem State.readReg_setHeapBytes (s : State) (a : Nat) (bs : List Byte) (r : RegIdx) :
    (s.setHeapBytes a bs).readReg r = s.readReg r := State.readReg_congr (by simp) r
@[simp] theorem State.readReg_placeImage (s : State) (a : Nat) (bs : List Byte) (r : RegIdx) :
    (s.placeImage a bs).readReg r = s.readReg r := State.readReg_congr (by simp) r

/-- The register file after an instruction that retires a result. -/
theorem State.readReg_retire (s : State) (r r' : RegIdx) (v : Word) :
    (s.retire r v).readReg r' = if r' = r ∧ r ≠ 0#5 then v else s.readReg r' := by
  simp [State.retire, State.readReg_writeReg]

/-- What the dumps show of a register is what a read of it gives (rules R68, R303). -/
theorem State.regView_get (s : State) (i : Fin 32) : s.regView[i] = s.readReg (BitVec.ofFin i) := by
  simp [State.regView]

end Sys2Proof.Machine
end

