-- ==== Sys2Proof/Laws/Ops.lean ====
section
/-!
SUPPORT. Per shared operation, what it answers: an equation where it has one answer, and an inversion lemma that lists its
next states where it has several.
-/

namespace Sys2Proof.Machine

-- ## Results in a register

/-- The rd = 0 skip and the write of a result are one operation: a write to x0 is discarded (rules R21, R113). -/
@[simp] theorem writeResult_eq (rd : RegIdx) (v : Word) (s : State) : writeResult rd v s = .next (s.retire rd v) := by
  by_cases h : rd = 0#5
  · subst h; simp [writeResult, State.retire]
  · simp [writeResult, h]

@[simp] theorem aluReg_eq (op : Word → Word → Word) (rd rs1 rs2 : RegIdx) (s : State) :
    aluReg op rd rs1 rs2 s = .next (s.retire rd (op (s.readReg rs1) (s.readReg rs2))) := by simp [aluReg]

@[simp] theorem aluImm_eq (op : Word → Word → Word) (rd rs1 : RegIdx) (imm : BitVec 12) (s : State) :
    aluImm op rd rs1 imm s = .next (s.retire rd (op (s.readReg rs1) (immWord12 imm))) := by simp [aluImm]

@[simp] theorem State.retire_zero (s : State) (v : Word) : s.retire 0#5 v = s.advance := by simp [State.retire]

-- ## Control flow

theorem jumpAndLink_of_inWindow {rd : RegIdx} {t : Word} {s : State} (h : inWindow t) :
    jumpAndLink rd t s = .next ((s.writeReg rd (s.pc + 4#32)).setPc t) := by simp [jumpAndLink, h]

theorem jumpAndLink_of_not_inWindow {rd : RegIdx} {t : Word} {s : State} (h : ¬ inWindow t) :
    jumpAndLink rd t s = .next (s.raiseFatal .illegalOperation t) := by simp [jumpAndLink, h, raiseIllegal]

theorem jumpAndLink_next {rd : RegIdx} {t : Word} {s s' : State} (h : jumpAndLink rd t s = .next s') :
    (inWindow t ∧ s' = (s.writeReg rd (s.pc + 4#32)).setPc t) ∨
      (¬ inWindow t ∧ s' = s.raiseFatal .illegalOperation t) := by
  by_cases ht : inWindow t
  · rw [jumpAndLink_of_inWindow ht] at h; cases h; exact .inl ⟨ht, rfl⟩
  · rw [jumpAndLink_of_not_inWindow ht] at h; cases h; exact .inr ⟨ht, rfl⟩

/-- A branch whose checked address is in the window (rule R240). -/
theorem branch_of_inWindow {p : Params} {taken : Bool} {t c : Word} {s : State} (h : inWindow c) :
    branch p taken t c s = .next (s.setPc (if taken = true then t else s.pc + 4#32)) := by
  cases taken <;> simp [branch, h, State.advance]

/-- A branch whose checked address is out of the window, under BRANCH_CHECK = always (rule R240). -/
theorem branch_of_not_inWindow {taken : Bool} {t c : Word} {s : State} (h : ¬ inWindow c) :
    branch params taken t c s = .next (s.raiseFatal .illegalOperation c) := by
  simp [branch, h, raiseIllegal]

theorem branch_next {taken : Bool} {t c : Word} {s s' : State} (h : branch params taken t c s = .next s') :
    (inWindow c ∧ s' = s.setPc (if taken = true then t else s.pc + 4#32)) ∨
      (¬ inWindow c ∧ s' = s.raiseFatal .illegalOperation c) := by
  by_cases hc : inWindow c
  · rw [branch_of_inWindow hc] at h; cases h; exact .inl ⟨hc, rfl⟩
  · rw [branch_of_not_inWindow hc] at h; cases h; exact .inr ⟨hc, rfl⟩

/-- `beq` never jumps out of the window: the doubled offset is on the target's side of the pc and farther (rule R241). -/
theorem inWindow_of_beqCheck {s : State} {off : BitVec 13} (hpc : u32 s.pc ≤ 1020) (h : inWindow (beqCheck s off)) :
    inWindow (branchTarget s off) := by
  simp only [inWindow, beqCheck, branchTarget, immWordSB, u32] at *
  have hs : (off.signExtend 32).toNat = if off.toNat < 4096 then off.toNat else off.toNat + 4294959104 := by
    rw [BitVec.toNat_signExtend]
    have := off.isLt
    by_cases hm : off.toNat < 4096
    · have : off.msb = false := by rw [BitVec.msb_eq_decide]; simp; omega
      simp [this, hm]; omega
    · have : off.msb = true := by rw [BitVec.msb_eq_decide]; simp; omega
      simp [this, hm]; omega
  have := off.isLt
  rw [BitVec.toNat_add, BitVec.toNat_shiftLeft, Nat.shiftLeft_eq] at h
  rw [BitVec.toNat_add]
  rw [hs] at h ⊢
  split at h <;> rename_i hm <;> simp only [hm, if_true, if_false] <;> omega

-- ## Ports

theorem WritePort.ofAddr_eq_none {a : Word} (h : 2101 ≤ u32 a) : WritePort.ofAddr a = none := by
  have hne : ∀ n : Nat, n < 2101 → a ≠ BitVec.ofNat 32 n := by
    intro n hn he
    subst he
    simp only [u32, BitVec.toNat_ofNat] at h
    omega
  simp [WritePort.ofAddr, hne]

theorem ReadPort.ofAddr_eq_none {a : Word} (h : 2101 ≤ u32 a) : ReadPort.ofAddr a = none := by
  have hne : ∀ n : Nat, n < 2101 → a ≠ BitVec.ofNat 32 n := by
    intro n hn he
    subst he
    simp only [u32, BitVec.toNat_ofNat] at h
    omega
  simp [ReadPort.ofAddr, hne]

/-- A heap address is no port (rules R50, R76). -/
theorem WritePort.ofAddr_of_inHeap {p : Params} {a : Word} (h : inHeap p a) : WritePort.ofAddr a = none :=
  WritePort.ofAddr_eq_none h.1

theorem ReadPort.ofAddr_of_inHeap {p : Params} {a : Word} (h : inHeap p a) : ReadPort.ofAddr a = none :=
  ReadPort.ofAddr_eq_none h.1

-- ## Loads

theorem load_of_inHeap {p : Params} {n : Nat} {f : List Byte → Word} {rd rs1 : RegIdx} {imm : BitVec 12} {s : State}
    (hrd : rd ≠ 0#5) (h : inHeap p (effAddr s rs1 imm)) (hc : ¬ crossesBank p (effAddr s rs1 imm) n) :
    load p n f rd rs1 imm s = .next (s.retire rd (f (s.heapBytes p (u32 (effAddr s rs1 imm)) n))) := by
  rw [load, if_neg hrd, loadAt, ReadPort.ofAddr_of_inHeap h]
  exact (if_pos h).trans (if_neg hc)

theorem load_of_crossesBank {p : Params} {n : Nat} {f : List Byte → Word} {rd rs1 : RegIdx} {imm : BitVec 12}
    {s : State} (hrd : rd ≠ 0#5) (h : inHeap p (effAddr s rs1 imm)) (hc : crossesBank p (effAddr s rs1 imm) n) :
    load p n f rd rs1 imm s = .refused .crossBankAccess := by
  rw [load, if_neg hrd, loadAt, ReadPort.ofAddr_of_inHeap h]
  exact (if_pos h).trans (if_pos hc)

theorem load_of_illegal {p : Params} {n : Nat} {f : List Byte → Word} {rd rs1 : RegIdx} {imm : BitVec 12} {s : State}
    (hrd : rd ≠ 0#5) (hp : ReadPort.ofAddr (effAddr s rs1 imm) = none) (h : ¬ inHeap p (effAddr s rs1 imm)) :
    load p n f rd rs1 imm s = .next (s.raiseFatal .illegalOperation (effAddr s rs1 imm)) := by
  rw [load, if_neg hrd, loadAt, hp]
  exact if_neg h

theorem load_of_port {p : Params} {n : Nat} {f : List Byte → Word} {rd rs1 : RegIdx} {imm : BitVec 12} {s : State}
    {port : ReadPort} (hrd : rd ≠ 0#5) (hp : ReadPort.ofAddr (effAddr s rs1 imm) = some port) :
    load p n f rd rs1 imm s = portLoad p port rd s := by
  rw [load, if_neg hrd, loadAt, hp]

theorem load_zero {p : Params} {n : Nat} {f : List Byte → Word} {rs1 : RegIdx} {imm : BitVec 12} {s : State} :
    load p n f 0#5 rs1 imm s = .next s.advance := by simp [load]

-- ## Stores

theorem store_of_inHeap {p : Params} {n : Nat} {rs1 rs2 : RegIdx} {imm : BitVec 12} {s : State}
    (h : inHeap p (effAddr s rs1 imm)) (hc : ¬ crossesBank p (effAddr s rs1 imm) n) :
    store p n rs1 rs2 imm s =
      .next (s.setHeapBytes (u32 (effAddr s rs1 imm)) (storeBytes (s.readReg rs2) n)).advance := by
  rw [store, storeAt, WritePort.ofAddr_of_inHeap h]
  exact (if_pos h).trans (if_neg hc)

theorem store_of_crossesBank {p : Params} {n : Nat} {rs1 rs2 : RegIdx} {imm : BitVec 12} {s : State}
    (h : inHeap p (effAddr s rs1 imm)) (hc : crossesBank p (effAddr s rs1 imm) n) :
    store p n rs1 rs2 imm s = .refused .crossBankAccess := by
  rw [store, storeAt, WritePort.ofAddr_of_inHeap h]
  exact (if_pos h).trans (if_pos hc)

theorem store_of_illegal {p : Params} {n : Nat} {rs1 rs2 : RegIdx} {imm : BitVec 12} {s : State}
    (hp : WritePort.ofAddr (effAddr s rs1 imm) = none) (h : ¬ inHeap p (effAddr s rs1 imm)) :
    store p n rs1 rs2 imm s = .next (s.raiseFatal .illegalOperation (effAddr s rs1 imm)) := by
  rw [store, storeAt, hp]
  exact if_neg h

theorem store_of_port {p : Params} {n : Nat} {rs1 rs2 : RegIdx} {imm : BitVec 12} {s : State} {port : WritePort}
    (hp : WritePort.ofAddr (effAddr s rs1 imm) = some port) :
    store p n rs1 rs2 imm s = portWrite p port (s.readReg rs2) s := by
  rw [store, storeAt, hp]

@[simp] theorem storeBytes_length (v : Word) (n : Nat) : (storeBytes v n).length = n := by simp [storeBytes]

/-- Byte k of a stored value (rule R54). -/
theorem storeBytes_getD (v : Word) {n k : Nat} (h : k < n) : (storeBytes v n).getD k 0#8 = v.extractLsb' (8 * k) 8 := by
  simp [storeBytes, List.getD, h]

end Sys2Proof.Machine
end

