-- ==== Sys2Proof/Laws/PerInstr.lean ====
section
/-!
SUPPORT. One lemma per instruction: the word an instruction encodes to is a word of that instruction's own row of
spec/opcode_table.json.
-/

namespace Sys2Proof.Laws

/-- The instruction's word is of the table row with the instruction's mnemonic. -/
def EncodesRow.Statement (i : Instr) : Prop :=
  ∃ r ∈ opcodeTable, r.mnemonic = mnemonicOf i ∧ r.matches (encode i)

theorem EncodesRow.add (rd rs1 rs2 : RegIdx) : EncodesRow.Statement (.add rd rs1 rs2) :=
  ⟨⟨"add", 0xFE00707F#32, 0x00000033#32⟩, by decide, rfl, by
    simp only [OpcodeRow.matches, encode, encodeWith, encR_mask]; decide⟩

theorem EncodesRow.sub (rd rs1 rs2 : RegIdx) : EncodesRow.Statement (.sub rd rs1 rs2) :=
  ⟨⟨"sub", 0xFE00707F#32, 0x40000033#32⟩, by decide, rfl, by
    simp only [OpcodeRow.matches, encode, encodeWith, encR_mask]; decide⟩

theorem EncodesRow.xor (rd rs1 rs2 : RegIdx) : EncodesRow.Statement (.xor rd rs1 rs2) :=
  ⟨⟨"xor", 0xFE00707F#32, 0x00004033#32⟩, by decide, rfl, by
    simp only [OpcodeRow.matches, encode, encodeWith, encR_mask]; decide⟩

theorem EncodesRow.or (rd rs1 rs2 : RegIdx) : EncodesRow.Statement (.or rd rs1 rs2) :=
  ⟨⟨"or", 0xFE00707F#32, 0x00006033#32⟩, by decide, rfl, by
    simp only [OpcodeRow.matches, encode, encodeWith, encR_mask]; decide⟩

theorem EncodesRow.and (rd rs1 rs2 : RegIdx) : EncodesRow.Statement (.and rd rs1 rs2) :=
  ⟨⟨"and", 0xFE00707F#32, 0x00007033#32⟩, by decide, rfl, by
    simp only [OpcodeRow.matches, encode, encodeWith, encR_mask]; decide⟩

theorem EncodesRow.sll (rd rs1 rs2 : RegIdx) : EncodesRow.Statement (.sll rd rs1 rs2) :=
  ⟨⟨"sll", 0xFE00707F#32, 0x00001033#32⟩, by decide, rfl, by
    simp only [OpcodeRow.matches, encode, encodeWith, encR_mask]; decide⟩

theorem EncodesRow.srl (rd rs1 rs2 : RegIdx) : EncodesRow.Statement (.srl rd rs1 rs2) :=
  ⟨⟨"srl", 0xFE00707F#32, 0x00005033#32⟩, by decide, rfl, by
    simp only [OpcodeRow.matches, encode, encodeWith, encR_mask]; decide⟩

theorem EncodesRow.sra (rd rs1 rs2 : RegIdx) : EncodesRow.Statement (.sra rd rs1 rs2) :=
  ⟨⟨"sra", 0xFE00707F#32, 0x40005033#32⟩, by decide, rfl, by
    simp only [OpcodeRow.matches, encode, encodeWith, encR_mask]; decide⟩

theorem EncodesRow.slt (rd rs1 rs2 : RegIdx) : EncodesRow.Statement (.slt rd rs1 rs2) :=
  ⟨⟨"slt", 0xFE00707F#32, 0x00002033#32⟩, by decide, rfl, by
    simp only [OpcodeRow.matches, encode, encodeWith, encR_mask]; decide⟩

theorem EncodesRow.sltu (rd rs1 rs2 : RegIdx) : EncodesRow.Statement (.sltu rd rs1 rs2) :=
  ⟨⟨"sltu", 0xFE00707F#32, 0x00003033#32⟩, by decide, rfl, by
    simp only [OpcodeRow.matches, encode, encodeWith, encR_mask]; decide⟩

theorem EncodesRow.addi (rd rs1 : RegIdx) (imm : BitVec 12) : EncodesRow.Statement (.addi rd rs1 imm) :=
  ⟨⟨"addi", 0x0000707F#32, 0x00000013#32⟩, by decide, rfl, by
    simp only [OpcodeRow.matches, encode, encodeWith, encI_mask]; decide⟩

theorem EncodesRow.xori (rd rs1 : RegIdx) (imm : BitVec 12) : EncodesRow.Statement (.xori rd rs1 imm) :=
  ⟨⟨"xori", 0x0000707F#32, 0x00004013#32⟩, by decide, rfl, by
    simp only [OpcodeRow.matches, encode, encodeWith, encI_mask]; decide⟩

theorem EncodesRow.ori (rd rs1 : RegIdx) (imm : BitVec 12) : EncodesRow.Statement (.ori rd rs1 imm) :=
  ⟨⟨"ori", 0x0000707F#32, 0x00006013#32⟩, by decide, rfl, by
    simp only [OpcodeRow.matches, encode, encodeWith, encI_mask]; decide⟩

theorem EncodesRow.andi (rd rs1 : RegIdx) (imm : BitVec 12) : EncodesRow.Statement (.andi rd rs1 imm) :=
  ⟨⟨"andi", 0x0000707F#32, 0x00007013#32⟩, by decide, rfl, by
    simp only [OpcodeRow.matches, encode, encodeWith, encI_mask]; decide⟩

theorem EncodesRow.slti (rd rs1 : RegIdx) (imm : BitVec 12) : EncodesRow.Statement (.slti rd rs1 imm) :=
  ⟨⟨"slti", 0x0000707F#32, 0x00002013#32⟩, by decide, rfl, by
    simp only [OpcodeRow.matches, encode, encodeWith, encI_mask]; decide⟩

theorem EncodesRow.sltiu (rd rs1 : RegIdx) (imm : BitVec 12) : EncodesRow.Statement (.sltiu rd rs1 imm) :=
  ⟨⟨"sltiu", 0x0000707F#32, 0x00003013#32⟩, by decide, rfl, by
    simp only [OpcodeRow.matches, encode, encodeWith, encI_mask]; decide⟩

theorem EncodesRow.lb (rd rs1 : RegIdx) (imm : BitVec 12) : EncodesRow.Statement (.lb rd rs1 imm) :=
  ⟨⟨"lb", 0x0000707F#32, 0x00000003#32⟩, by decide, rfl, by
    simp only [OpcodeRow.matches, encode, encodeWith, encI_mask]; decide⟩

theorem EncodesRow.lbu (rd rs1 : RegIdx) (imm : BitVec 12) : EncodesRow.Statement (.lbu rd rs1 imm) :=
  ⟨⟨"lbu", 0x0000707F#32, 0x00004003#32⟩, by decide, rfl, by
    simp only [OpcodeRow.matches, encode, encodeWith, encI_mask]; decide⟩

theorem EncodesRow.lh (rd rs1 : RegIdx) (imm : BitVec 12) : EncodesRow.Statement (.lh rd rs1 imm) :=
  ⟨⟨"lh", 0x0000707F#32, 0x00001003#32⟩, by decide, rfl, by
    simp only [OpcodeRow.matches, encode, encodeWith, encI_mask]; decide⟩

theorem EncodesRow.lw (rd rs1 : RegIdx) (imm : BitVec 12) : EncodesRow.Statement (.lw rd rs1 imm) :=
  ⟨⟨"lw", 0x0000707F#32, 0x00002003#32⟩, by decide, rfl, by
    simp only [OpcodeRow.matches, encode, encodeWith, encI_mask]; decide⟩

theorem EncodesRow.jalr (rd rs1 : RegIdx) (imm : BitVec 12) : EncodesRow.Statement (.jalr rd rs1 imm) :=
  ⟨⟨"jalr", 0x0000707F#32, 0x00000067#32⟩, by decide, rfl, by
    simp only [OpcodeRow.matches, encode, encodeWith, encI_mask]; decide⟩

theorem EncodesRow.sb (rs1 rs2 : RegIdx) (imm : BitVec 12) : EncodesRow.Statement (.sb rs1 rs2 imm) :=
  ⟨⟨"sb", 0x0000707F#32, 0x00000023#32⟩, by decide, rfl, by
    simp only [OpcodeRow.matches, encode, encodeWith, encS_mask]; decide⟩

theorem EncodesRow.sh (rs1 rs2 : RegIdx) (imm : BitVec 12) : EncodesRow.Statement (.sh rs1 rs2 imm) :=
  ⟨⟨"sh", 0x0000707F#32, 0x00001023#32⟩, by decide, rfl, by
    simp only [OpcodeRow.matches, encode, encodeWith, encS_mask]; decide⟩

theorem EncodesRow.sw (rs1 rs2 : RegIdx) (imm : BitVec 12) : EncodesRow.Statement (.sw rs1 rs2 imm) :=
  ⟨⟨"sw", 0x0000707F#32, 0x00002023#32⟩, by decide, rfl, by
    simp only [OpcodeRow.matches, encode, encodeWith, encS_mask]; decide⟩

theorem EncodesRow.beq (rs1 rs2 : RegIdx) (off : BitVec 13) : EncodesRow.Statement (.beq rs1 rs2 off) :=
  ⟨⟨"beq", 0x0000707F#32, 0x00000063#32⟩, by decide, rfl, by
    simp only [OpcodeRow.matches, encode, encodeWith, encSB_mask]; decide⟩

theorem EncodesRow.bne (rs1 rs2 : RegIdx) (off : BitVec 13) : EncodesRow.Statement (.bne rs1 rs2 off) :=
  ⟨⟨"bne", 0x0000707F#32, 0x00001063#32⟩, by decide, rfl, by
    simp only [OpcodeRow.matches, encode, encodeWith, encSB_mask]; decide⟩

theorem EncodesRow.blt (rs1 rs2 : RegIdx) (off : BitVec 13) : EncodesRow.Statement (.blt rs1 rs2 off) :=
  ⟨⟨"blt", 0x0000707F#32, 0x00004063#32⟩, by decide, rfl, by
    simp only [OpcodeRow.matches, encode, encodeWith, encSB_mask]; decide⟩

theorem EncodesRow.bge (rs1 rs2 : RegIdx) (off : BitVec 13) : EncodesRow.Statement (.bge rs1 rs2 off) :=
  ⟨⟨"bge", 0x0000707F#32, 0x00005063#32⟩, by decide, rfl, by
    simp only [OpcodeRow.matches, encode, encodeWith, encSB_mask]; decide⟩

theorem EncodesRow.bltu (rs1 rs2 : RegIdx) (off : BitVec 13) : EncodesRow.Statement (.bltu rs1 rs2 off) :=
  ⟨⟨"bltu", 0x0000707F#32, 0x00006063#32⟩, by decide, rfl, by
    simp only [OpcodeRow.matches, encode, encodeWith, encSB_mask]; decide⟩

theorem EncodesRow.bgeu (rs1 rs2 : RegIdx) (off : BitVec 13) : EncodesRow.Statement (.bgeu rs1 rs2 off) :=
  ⟨⟨"bgeu", 0x0000707F#32, 0x00007063#32⟩, by decide, rfl, by
    simp only [OpcodeRow.matches, encode, encodeWith, encSB_mask]; decide⟩

theorem EncodesRow.lui (rd : RegIdx) (imm : BitVec 20) : EncodesRow.Statement (.lui rd imm) :=
  ⟨⟨"lui", 0x0000007F#32, 0x00000037#32⟩, by decide, rfl, by
    simp only [OpcodeRow.matches, encode, encodeWith, encU_mask]; decide⟩

theorem EncodesRow.jal (rd : RegIdx) (off : BitVec 21) : EncodesRow.Statement (.jal rd off) :=
  ⟨⟨"jal", 0x0000007F#32, 0x0000006F#32⟩, by decide, rfl, by
    simp only [OpcodeRow.matches, encode, encodeWith, encUJ_mask]; decide⟩

end Sys2Proof.Laws
end

