-- ==== Sys2Proof/Laws/Step.lean ====
section
/-!
SUPPORT. Said once: every next state an instruction can give, and every outcome of a step. Invariants are proved from
these, not by unfolding exec.
-/

namespace Sys2Proof.Machine

/-- The next states of one executed instruction. -/
inductive InstrEffect (s : State) : State → Prop
  /-- A result in rd (nothing where rd is 0), and the pc advanced. -/
  | retire (rd : RegIdx) (v : Word) : InstrEffect s (s.retire rd v)
  /-- A jump in the window, with a link (nothing where rd is 0). -/
  | jump (rd : RegIdx) (v t : Word) (ht : inWindow t) : InstrEffect s ((s.writeReg rd v).setPc t)
  /-- A branch whose checked address is in the window: to its target, or on. -/
  | branch (t : Word) (ht : u32 s.pc ≤ 1020 → inWindow t) : InstrEffect s (s.setPc t)
  /-- A branch not taken. -/
  | advance : InstrEffect s s.advance
  /-- The fatal condition IllegalOperation. -/
  | fatal (a : Word) : InstrEffect s (s.raiseFatal .illegalOperation a)
  /-- A read port whose host has not answered. -/
  | held : InstrEffect s s
  /-- A read port's answer, which consumes `k` characters. -/
  | read (k : Nat) (rd : RegIdx) (v : Word) : InstrEffect s ((s.tookInput k).retire rd v)
  /-- A store of bytes inside the heap. -/
  | storeHeap (a : Nat) (bs : List Byte) (hlo : params.heapBase ≤ a) (hhi : a + bs.length ≤ params.heapBase + 8192) :
      InstrEffect s (s.setHeapBytes a bs).advance
  /-- A console or dump port. -/
  | emit (e : OutEvent) : InstrEffect s (s.emit e).advance
  /-- The halt port. -/
  | halt : InstrEffect s s.halt
  /-- The allocate port, successful. -/
  | alloc (k : Nat) (g : Vector Word 128) (n : Nat) (h : alloc s.tags s.nextId 4 = .took k g n) :
      InstrEffect s ((s.setBanks g n).retire 28#5 (bankAddr params k))
  /-- The free port. -/
  | free (a : Word) : InstrEffect s (s.setBanks (freeTags params s.tags a) s.nextId).advance

-- ## The read ports

theorem portLoad_effect {p : Params} {port : ReadPort} {rd : RegIdx} {s t : State}
    (h : portLoad p port rd s = .next t) : InstrEffect s t := by
  unfold portLoad at h
  split at h
  · cases h; exact .held
  · cases h; exact .read _ rd _

-- ## Loads and stores

theorem load_effect {n : Nat} {f : List Byte → Word} {rd rs1 : RegIdx} {imm : BitVec 12} {s t : State}
    (h : load params n f rd rs1 imm s = .next t) : InstrEffect s t := by
  unfold load at h
  split at h
  · cases h; exact .advance
  · unfold loadAt at h
    split at h
    · exact portLoad_effect h
    · split at h
      · split at h
        · cases h
        · cases h; exact .retire _ _
      · cases h; exact .fatal _

theorem portWrite_effect {port : WritePort} {v : Word} {s t : State} (h : portWrite params port v s = .next t) :
    InstrEffect s t := by
  cases port with
  | char => cases h; exact .emit _
  | dec => cases h; exact .emit _
  | hex => cases h; exact .emit _
  | halt => cases h; exact .halt
  | dumpPc => cases h; exact .emit _
  | dumpRegs => cases h; exact .emit _
  | dumpByte =>
    simp only [portWrite, portDumpByte] at h
    split at h
    · cases h; exact .emit _
    · cases h
  | alloc =>
    simp only [portWrite, portAlloc, allocSize, params_mallocSizeFromValue, Bool.false_eq_true, if_false] at h
    split at h
    · rename_i k g n heq; cases h; exact .alloc k g n heq
    · cases h; exact .retire _ _
    · cases h
  | free => cases h; exact .free _

theorem store_effect {n : Nat} {rs1 rs2 : RegIdx} {imm : BitVec 12} {s t : State}
    (h : store params n rs1 rs2 imm s = .next t) : InstrEffect s t := by
  unfold store storeAt at h
  split at h
  · exact portWrite_effect h
  · split at h
    · rename_i hin
      split at h
      · cases h
      · rename_i hc
        cases h
        exact .storeHeap _ _ hin.2.1 (by rw [storeBytes_length]; exact crossesBank_bound hin hc)
    · cases h; exact .fatal _

-- ## Refusals of loads and stores

theorem portLoad_next (p : Params) (port : ReadPort) (rd : RegIdx) (s : State) : ∃ t, portLoad p port rd s = .next t := by
  unfold portLoad
  split <;> exact ⟨_, rfl⟩

/-- A load never faults, and is refused exactly where its bytes leave their bank (rule R57). -/
theorem load_stops {p : Params} {n : Nat} {f : List Byte → Word} {rd rs1 : RegIdx} {imm : BitVec 12} {s : State} :
    (∀ e, load p n f rd rs1 imm s ≠ .fault e) ∧
      ∀ r, load p n f rd rs1 imm s = .refused r ↔
        r = .crossBankAccess ∧ rd ≠ 0#5 ∧ inHeap p (effAddr s rs1 imm) ∧ crossesBank p (effAddr s rs1 imm) n := by
  by_cases h0 : rd = 0#5
  · simp [h0, load_zero]
  by_cases hh : inHeap p (effAddr s rs1 imm)
  · by_cases hc : crossesBank p (effAddr s rs1 imm) n
    · rw [load_of_crossesBank h0 hh hc]
      exact ⟨fun _ h => (by cases h), fun r => ⟨fun h => (by cases h; exact ⟨rfl, h0, hh, hc⟩), fun h => by rw [h.1]⟩⟩
    · rw [load_of_inHeap h0 hh hc]
      exact ⟨fun _ h => (by cases h), fun r => ⟨fun h => (by cases h), fun h => (hc h.2.2.2).elim⟩⟩
  · cases hp : ReadPort.ofAddr (effAddr s rs1 imm) with
    | none =>
      rw [load_of_illegal h0 hp hh]
      exact ⟨fun _ h => (by cases h), fun r => ⟨fun h => (by cases h), fun h => (hh h.2.2.1).elim⟩⟩
    | some port =>
      obtain ⟨t, ht⟩ := portLoad_next p port rd s
      rw [load_of_port h0 hp, ht]
      exact ⟨fun _ h => (by cases h), fun r => ⟨fun h => (by cases h), fun h => (hh h.2.2.1).elim⟩⟩

/-- A write port never faults, and is refused at port 2088 for an address outside the heap and at port 2096 for want of an
id (rules R69, R84). -/
theorem portWrite_stops {p : Params} {port : WritePort} {v : Word} {s : State} :
    (∀ e, portWrite p port v s ≠ .fault e) ∧
      ∀ r, portWrite p port v s = .refused r ↔
        (r = .dumpAddressOutOfHeap ∧ port = .dumpByte ∧ ¬ inHeap p v) ∨
          (r = .allocIdExhausted ∧ port = .alloc ∧ alloc s.tags s.nextId (allocSize p v) = .idExhausted) := by
  cases port with
  | dumpByte =>
    rw [portWrite, portDumpByte]
    by_cases h : inHeap p v
    · rw [if_pos h]
      exact ⟨fun _ e => (by cases e), fun r =>
        ⟨fun e => (by cases e), fun e => e.elim (fun e => (e.2.2 h).elim) fun e => (by cases e.2.1)⟩⟩
    · rw [if_neg h]
      exact ⟨fun _ e => (by cases e), fun r =>
        ⟨fun e => (by cases e; exact .inl ⟨rfl, rfl, h⟩), fun e => e.elim (fun e => by rw [e.1]) fun e => (by cases e.2.1)⟩⟩
  | alloc =>
    simp only [portWrite, portAlloc]
    split <;> simp [*, eq_comm]
  | _ => simp [portWrite]

/-- A store never faults, and is refused where its bytes leave their bank and where its write port is (rules R57, R69,
R84). -/
theorem store_stops {p : Params} {n : Nat} {rs1 rs2 : RegIdx} {imm : BitVec 12} {s : State} :
    (∀ e, store p n rs1 rs2 imm s ≠ .fault e) ∧
      ∀ r, store p n rs1 rs2 imm s = .refused r ↔
        (r = .crossBankAccess ∧ inHeap p (effAddr s rs1 imm) ∧ crossesBank p (effAddr s rs1 imm) n) ∨
          ∃ port, WritePort.ofAddr (effAddr s rs1 imm) = some port ∧ portWrite p port (s.readReg rs2) s = .refused r := by
  by_cases hh : inHeap p (effAddr s rs1 imm)
  · have hp := WritePort.ofAddr_of_inHeap hh
    by_cases hc : crossesBank p (effAddr s rs1 imm) n
    · rw [store_of_crossesBank hh hc]
      exact ⟨fun _ e => (by cases e), fun r => ⟨fun e => (by cases e; exact .inl ⟨rfl, hh, hc⟩), fun e => e.elim
        (fun e => by rw [e.1]) fun ⟨_, e, _⟩ => (by rw [hp] at e; cases e)⟩⟩
    · rw [store_of_inHeap hh hc]
      simp [hp, hc]
  · cases hp : WritePort.ofAddr (effAddr s rs1 imm) with
    | none =>
      rw [store_of_illegal hp hh]
      simp [hh]
    | some port =>
      rw [store_of_port hp]
      exact ⟨portWrite_stops.1, fun r => by simp [hh]⟩

-- ## Control flow

theorem jumpAndLink_effect {rd : RegIdx} {u : Word} {s t : State} (h : jumpAndLink rd u s = .next t) :
    InstrEffect s t := by
  rcases jumpAndLink_next h with ⟨hw, rfl⟩ | ⟨-, rfl⟩
  · exact .jump _ _ _ hw
  · exact .fatal _

theorem branch_effect {taken : Bool} {u c : Word} {s t : State} (hc : u32 s.pc ≤ 1020 → inWindow c → inWindow u)
    (h : branch params taken u c s = .next t) : InstrEffect s t := by
  rcases branch_next h with ⟨hw, rfl⟩ | ⟨-, rfl⟩
  · cases taken
    · exact .advance
    · exact .branch u fun hpc => hc hpc hw
  · exact .fatal _

theorem branchOn_effect {cond : Word → Word → Bool} {rs1 rs2 : RegIdx} {off : BitVec 13} {s t : State}
    (h : branchOn params cond rs1 rs2 off s = .next t) : InstrEffect s t :=
  branch_effect (fun _ hw => hw) h

-- ## Every instruction, and the step

/-- Everything an executed instruction can do. -/
theorem exec_effect {i : Instr} {s t : State} (h : exec i s = .next t) : InstrEffect s t := by
  cases i with
  | add => simp only [exec, execAdd, aluReg_eq] at h; cases h; exact .retire _ _
  | sub => simp only [exec, execSub, aluReg_eq] at h; cases h; exact .retire _ _
  | xor => simp only [exec, execXor, aluReg_eq] at h; cases h; exact .retire _ _
  | or => simp only [exec, execOr, aluReg_eq] at h; cases h; exact .retire _ _
  | and => simp only [exec, execAnd, aluReg_eq] at h; cases h; exact .retire _ _
  | sll => simp only [exec, execSll, sllWith, aluReg_eq] at h; cases h; exact .retire _ _
  | srl => simp only [exec, execSrl, srlWith, aluReg_eq] at h; cases h; exact .retire _ _
  | sra => simp only [exec, execSra, sraWith, aluReg_eq] at h; cases h; exact .retire _ _
  | slt => simp only [exec, execSlt, aluReg_eq] at h; cases h; exact .retire _ _
  | sltu => simp only [exec, execSltu, aluReg_eq] at h; cases h; exact .retire _ _
  | addi => simp only [exec, execAddi, aluImm_eq] at h; cases h; exact .retire _ _
  | xori => simp only [exec, execXori, aluImm_eq] at h; cases h; exact .retire _ _
  | ori => simp only [exec, execOri, aluImm_eq] at h; cases h; exact .retire _ _
  | andi => simp only [exec, execAndi, aluImm_eq] at h; cases h; exact .retire _ _
  | slti => simp only [exec, execSlti, aluImm_eq] at h; cases h; exact .retire _ _
  | sltiu => simp only [exec, execSltiu, aluImm_eq] at h; cases h; exact .retire _ _
  | lui => simp only [exec, execLui, writeResult_eq] at h; cases h; exact .retire _ _
  | lb => exact load_effect h
  | lbu => exact load_effect h
  | lh => exact load_effect h
  | lw => exact load_effect h
  | sb => exact store_effect h
  | sh => exact store_effect h
  | sw => exact store_effect h
  | jalr => exact jumpAndLink_effect h
  | jal => exact jumpAndLink_effect h
  | beq => exact branch_effect (fun hpc hw => inWindow_of_beqCheck hpc hw) h
  | bne => simp only [exec, execBne, bneWith] at h; exact branchOn_effect h
  | blt => exact branchOn_effect h
  | bge => simp only [exec, execBge, bgeWith] at h; exact branchOn_effect h
  | bltu => exact branchOn_effect h
  | bgeu => simp only [exec, execBgeu, bgeuWith] at h; exact branchOn_effect h

/-- Everything a step that answers a next state can do. -/
theorem step_next {s t : State} (h : step s = .next t) :
    s.status = .running ∧
      ((s.fetch = .exit ∧ t = s.setStatus .exited) ∨
        (∃ w, s.fetch = .unimplemented w ∧ t = s.raiseFatal .unimplementedInstruction w) ∨
        (∃ i, s.fetch = .instr i ∧ exec i s = .next t)) := by
  unfold step stepBy at h
  split at h
  · rename_i hs
    refine ⟨hs, ?_⟩
    unfold runningBy at h
    split at h
    · rename_i hf; cases h; exact .inl ⟨hf, rfl⟩
    · cases h
    · rename_i w hf; cases h; exact .inr (.inl ⟨w, hf, rfl⟩)
    · rename_i i hf; exact .inr (.inr ⟨i, hf, h⟩)
  · cases h
  · cases h
  · cases h

/-- Everything a refused step can come from. -/
theorem step_refused {s : State} {r : Refusal} (h : step s = .refused r) :
    s.status = .running ∧
      ((s.fetch = .misaligned ∧ r = .misalignedFetch) ∨ ∃ i, s.fetch = .instr i ∧ exec i s = .refused r) := by
  unfold step stepBy at h
  split at h
  · rename_i hs
    refine ⟨hs, ?_⟩
    unfold runningBy at h
    split at h
    · cases h
    · rename_i hf; cases h; exact .inl ⟨hf, rfl⟩
    · cases h
    · rename_i i hf; exact .inr ⟨i, hf, h⟩
  · cases h
  · cases h
  · cases h

/-- An instruction is fetched only at a pc in the instruction store that is a multiple of 4 (rule R110). -/
theorem fetch_instr {s : State} {i : Instr} (h : s.fetch = .instr i) :
    u32 s.pc ≤ 1020 ∧ u32 s.pc % 4 = 0 ∧ decode (s.fetch32 (u32 s.pc)) = some i := by
  unfold State.fetch State.fetchBy at h
  split at h
  · cases h
  · split at h
    · cases h
    · split at h
      · cases h
      · rename_i hd
        cases h
        refine ⟨?_, ?_, hd⟩ <;> omega

-- ## Placing an instruction

/-- What the host's placing of a word leaves at the pc is that word. -/
theorem fetch32_placeWord (s : State) (w : Word) (h : u32 s.pc + 4 ≤ 1024) :
    (placeWord s w).fetch32 (u32 s.pc) = w := by
  have e0 : ∀ a : Nat, (a = a + 1 + 1) = False := fun a => eq_false (by omega)
  have e1 : ∀ a : Nat, (a = a + 1 + 1 + 1) = False := fun a => eq_false (by omega)
  simp only [placeWord, h, if_true, bytesOfInstr, State.placeImage, State.fetch32, State.istoreByte_setImageByte]
  simp [e0, e1]

end Sys2Proof.Machine
end

