-- ==== Sys2Proof/Tests/Slice0.lean ====
section
/-!
SUPPORT. Tests of the model's own work. Expected results are the spec's vectors (95_test_vectors.md, named by their id),
or worked by hand from the rule a comment names. Then one witness per clause of every statement that has hypotheses.
-/

namespace Sys2Proof.Tests

open Sys2Proof Sys2Proof.Machine

-- ## Helpers: a small state, and one field of an outcome

/-- Reset, but for the pc, x1 and x2. -/
def start (pc x1 x2 : Word) : State := ((State.reset.setPc pc).writeReg 1#5 x1).writeReg 2#5 x2

/-- One step of the word `w`, placed at the pc. -/
def run (s : State) (w : Nat) : Res := step (s.withFetchWord 32 w)

def regOf (r : Res) (k : RegIdx) : Option Word :=
  match r with
  | .next t => some (t.readReg k)
  | .fault _ => none
  | .refused _ => none

def pcOf (r : Res) : Option Word :=
  match r with
  | .next t => some t.pc
  | .fault _ => none
  | .refused _ => none

def outOf (r : Res) : List OutEvent :=
  match r with
  | .next t => t.out
  | .fault _ => []
  | .refused _ => []

def statusOf (r : Res) : Option RunStatus :=
  match r with
  | .next t => some t.status
  | .fault _ => none
  | .refused _ => none

def refusalOf (r : Res) : Option Refusal :=
  match r with
  | .next _ => none
  | .fault _ => none
  | .refused e => some e

/-- The position in the host's stream and the number of answered reads. -/
def inputOf (r : Res) : Option (Nat × Nat) :=
  match r with
  | .next t => some (t.inputPos, t.reads)
  | .fault _ => none
  | .refused _ => none

def heapOf (r : Res) (p : Params) (a n : Nat) : List Byte :=
  match r with
  | .next t => t.heapBytes p a n
  | .fault _ => []
  | .refused _ => []

/-- A host that supplies the characters at once, and then ends its input or does not. Its draw is 0x99. -/
def hostOf (cs : List Byte) (ended : Bool) : HostInput where
  chunk n := if n = 0 then cs else []
  ends _ := ended
  draw _ := 0x99#32
  drawLength _ := 1

/-- The parameters of the spec's vectors: HEAP_BASE = 0xB700, the others at their defaults. -/
def vecParams : Params := { params with heapBase := 0xB700, heapInit := fun _ => 0#8, hostInput := hostOf [] false }

/-- The same with a host's text. -/
def inputParams (cs : List Byte) (ended : Bool) : Params := { vecParams with hostInput := hostOf cs ended }

/-- One step of the word `w`, placed at the pc, under other parameters. -/
def runWith (p : Params) (s : State) (w : Nat) : Res := stepWith p (s.withFetchWord 32 w)

/-- The heap of table L2-L, as far as its vectors read it. -/
def vecHeap (x1 : Word) : State :=
  ((start 0#32 x1 0#32).setHeapBytes 0xB700 [0x78#8, 0x56#8, 0x34#8, 0x12#8, 0x80#8, 0x00#8]).setHeapBytes 0xB73C
    [0x00#8, 0x00#8, 0x00#8, 0xAA#8, 0xBB#8]

-- ## Ill-formed terms are refused by each check (rule R125: immSB and immUJ are always even)

theorem test_beq_odd_offset_ill_formed : (Instr.beq 1#5 2#5 9#13).wellFormed = false := by decide
theorem test_bne_odd_offset_ill_formed : (Instr.bne 1#5 2#5 9#13).wellFormed = false := by decide
theorem test_blt_odd_offset_ill_formed : (Instr.blt 1#5 2#5 9#13).wellFormed = false := by decide
theorem test_bge_odd_offset_ill_formed : (Instr.bge 1#5 2#5 9#13).wellFormed = false := by decide
theorem test_bltu_odd_offset_ill_formed : (Instr.bltu 1#5 2#5 9#13).wellFormed = false := by decide
theorem test_bgeu_odd_offset_ill_formed : (Instr.bgeu 1#5 2#5 9#13).wellFormed = false := by decide
theorem test_jal_odd_offset_ill_formed : (Instr.jal 1#5 9#21).wellFormed = false := by decide

-- ## Decoding: words written out bit by bit, most significant field first (rules R115 to R131)

-- Format R: func7, rs2, rs1, func3, rd, opcode. The operands are x3, x1, x2 as in table L2-R.

theorem test_decode_add :
    decode (0b0000000#7 ++ 0b00010#5 ++ 0b00001#5 ++ 0b000#3 ++ 0b00011#5 ++ 0b0110011#7) = some (.add 3#5 1#5 2#5) := by decide
theorem test_decode_sub :
    decode (0b0100000#7 ++ 0b00010#5 ++ 0b00001#5 ++ 0b000#3 ++ 0b00011#5 ++ 0b0110011#7) = some (.sub 3#5 1#5 2#5) := by decide
theorem test_decode_xor :
    decode (0b0000000#7 ++ 0b00010#5 ++ 0b00001#5 ++ 0b100#3 ++ 0b00011#5 ++ 0b0110011#7) = some (.xor 3#5 1#5 2#5) := by decide
theorem test_decode_or :
    decode (0b0000000#7 ++ 0b00010#5 ++ 0b00001#5 ++ 0b110#3 ++ 0b00011#5 ++ 0b0110011#7) = some (.or 3#5 1#5 2#5) := by decide
theorem test_decode_and :
    decode (0b0000000#7 ++ 0b00010#5 ++ 0b00001#5 ++ 0b111#3 ++ 0b00011#5 ++ 0b0110011#7) = some (.and 3#5 1#5 2#5) := by decide
theorem test_decode_sll :
    decode (0b0000000#7 ++ 0b00010#5 ++ 0b00001#5 ++ 0b001#3 ++ 0b00011#5 ++ 0b0110011#7) = some (.sll 3#5 1#5 2#5) := by decide
theorem test_decode_srl :
    decode (0b0000000#7 ++ 0b00010#5 ++ 0b00001#5 ++ 0b101#3 ++ 0b00011#5 ++ 0b0110011#7) = some (.srl 3#5 1#5 2#5) := by decide
theorem test_decode_sra :
    decode (0b0100000#7 ++ 0b00010#5 ++ 0b00001#5 ++ 0b101#3 ++ 0b00011#5 ++ 0b0110011#7) = some (.sra 3#5 1#5 2#5) := by decide
theorem test_decode_slt :
    decode (0b0000000#7 ++ 0b00010#5 ++ 0b00001#5 ++ 0b010#3 ++ 0b00011#5 ++ 0b0110011#7) = some (.slt 3#5 1#5 2#5) := by decide
theorem test_decode_sltu :
    decode (0b0000000#7 ++ 0b00010#5 ++ 0b00001#5 ++ 0b011#3 ++ 0b00011#5 ++ 0b0110011#7) = some (.sltu 3#5 1#5 2#5) := by decide

-- Format I: immI, rs1, func3, rd, opcode. The operands are x2, x1 and -10.

theorem test_decode_addi :
    decode (0b111111110110#12 ++ 0b00001#5 ++ 0b000#3 ++ 0b00010#5 ++ 0b0010011#7) = some (.addi 2#5 1#5 (-10)) := by decide
theorem test_decode_xori :
    decode (0b111111110110#12 ++ 0b00001#5 ++ 0b100#3 ++ 0b00010#5 ++ 0b0010011#7) = some (.xori 2#5 1#5 (-10)) := by decide
theorem test_decode_ori :
    decode (0b111111110110#12 ++ 0b00001#5 ++ 0b110#3 ++ 0b00010#5 ++ 0b0010011#7) = some (.ori 2#5 1#5 (-10)) := by decide
theorem test_decode_andi :
    decode (0b111111110110#12 ++ 0b00001#5 ++ 0b111#3 ++ 0b00010#5 ++ 0b0010011#7) = some (.andi 2#5 1#5 (-10)) := by decide
theorem test_decode_slti :
    decode (0b111111110110#12 ++ 0b00001#5 ++ 0b010#3 ++ 0b00010#5 ++ 0b0010011#7) = some (.slti 2#5 1#5 (-10)) := by decide
theorem test_decode_sltiu :
    decode (0b111111110110#12 ++ 0b00001#5 ++ 0b011#3 ++ 0b00010#5 ++ 0b0010011#7) = some (.sltiu 2#5 1#5 (-10)) := by decide

-- Format I, loads: x2, 22(x1).

theorem test_decode_lb :
    decode (0b000000010110#12 ++ 0b00001#5 ++ 0b000#3 ++ 0b00010#5 ++ 0b0000011#7) = some (.lb 2#5 1#5 22#12) := by decide
theorem test_decode_lbu :
    decode (0b000000010110#12 ++ 0b00001#5 ++ 0b100#3 ++ 0b00010#5 ++ 0b0000011#7) = some (.lbu 2#5 1#5 22#12) := by decide
theorem test_decode_lh :
    decode (0b000000010110#12 ++ 0b00001#5 ++ 0b001#3 ++ 0b00010#5 ++ 0b0000011#7) = some (.lh 2#5 1#5 22#12) := by decide
theorem test_decode_lw :
    decode (0b000000010110#12 ++ 0b00001#5 ++ 0b010#3 ++ 0b00010#5 ++ 0b0000011#7) = some (.lw 2#5 1#5 22#12) := by decide

-- Format I, jalr: x5, -2048(x1).

theorem test_decode_jalr :
    decode (0b100000000000#12 ++ 0b00001#5 ++ 0b000#3 ++ 0b00101#5 ++ 0b1100111#7) = some (.jalr 5#5 1#5 (-2048)) := by decide

-- Format S: immS[11:5], rs2, rs1, func3, immS[4:0], opcode. The operands are x2, -4(x1).

theorem test_decode_sb :
    decode (0b1111111#7 ++ 0b00010#5 ++ 0b00001#5 ++ 0b000#3 ++ 0b11100#5 ++ 0b0100011#7) = some (.sb 1#5 2#5 (-4)) := by decide
theorem test_decode_sh :
    decode (0b1111111#7 ++ 0b00010#5 ++ 0b00001#5 ++ 0b001#3 ++ 0b11100#5 ++ 0b0100011#7) = some (.sh 1#5 2#5 (-4)) := by decide
theorem test_decode_sw :
    decode (0b1111111#7 ++ 0b00010#5 ++ 0b00001#5 ++ 0b010#3 ++ 0b11100#5 ++ 0b0100011#7) = some (.sw 1#5 2#5 (-4)) := by decide

-- Format SB: immSB[12], [10:5], rs2, rs1, func3, immSB[4:1], [11], opcode. The offset is 2734 = 0b0101010101110.

theorem test_decode_beq :
    decode (0b0#1 ++ 0b010101#6 ++ 0b00010#5 ++ 0b00001#5 ++ 0b000#3 ++ 0b0111#4 ++ 0b1#1 ++ 0b1100011#7) = some (.beq 1#5 2#5 2734#13) := by decide
theorem test_decode_bne :
    decode (0b0#1 ++ 0b010101#6 ++ 0b00010#5 ++ 0b00001#5 ++ 0b001#3 ++ 0b0111#4 ++ 0b1#1 ++ 0b1100011#7) = some (.bne 1#5 2#5 2734#13) := by decide
theorem test_decode_blt :
    decode (0b0#1 ++ 0b010101#6 ++ 0b00010#5 ++ 0b00001#5 ++ 0b100#3 ++ 0b0111#4 ++ 0b1#1 ++ 0b1100011#7) = some (.blt 1#5 2#5 2734#13) := by decide
theorem test_decode_bge :
    decode (0b0#1 ++ 0b010101#6 ++ 0b00010#5 ++ 0b00001#5 ++ 0b101#3 ++ 0b0111#4 ++ 0b1#1 ++ 0b1100011#7) = some (.bge 1#5 2#5 2734#13) := by decide
theorem test_decode_bltu :
    decode (0b0#1 ++ 0b010101#6 ++ 0b00010#5 ++ 0b00001#5 ++ 0b110#3 ++ 0b0111#4 ++ 0b1#1 ++ 0b1100011#7) = some (.bltu 1#5 2#5 2734#13) := by decide
theorem test_decode_bgeu :
    decode (0b0#1 ++ 0b010101#6 ++ 0b00010#5 ++ 0b00001#5 ++ 0b111#3 ++ 0b0111#4 ++ 0b1#1 ++ 0b1100011#7) = some (.bgeu 1#5 2#5 2734#13) := by decide

-- Format U: immU[31:12], rd, opcode.

theorem test_decode_lui : decode (0b00010010001101000101#20 ++ 0b00010#5 ++ 0b0110111#7) = some (.lui 2#5 0x12345#20) := by decide

-- Format UJ: immUJ[20], [10:1], [11], [19:12], rd, opcode. The offset is 0x15A5C = 0b000010101101001011100.

theorem test_decode_jal :
    decode (0b0#1 ++ 0b0100101110#10 ++ 0b1#1 ++ 0b00010101#8 ++ 0b00001#5 ++ 0b1101111#7) = some (.jal 1#5 0x15A5C#21) := by decide

-- Words of no instruction: D-5, D-9 to D-18.

theorem test_decode_none_opcodes :
    [0xFFFFFFFF#32, 0x00000073#32, 0x00000017#32, 0x0000100F#32].map decode = [none, none, none, none] := by decide

theorem test_decode_none_func3 :
    [0x00105013#32, 0x0000D003#32, 0x00001067#32, 0x0000B023#32, 0x0000A063#32].map decode =
      [none, none, none, none, none] := by decide

theorem test_decode_none_func7 : [0x02208033#32, 0x4020F0B3#32].map decode = [none, none] := by decide

-- The immediates of D-7 and D-2 (rules R118 to R122).

theorem test_immediates_negative :
    (immWord12 (immIOf 0x80000000#32), immWord12 (immSOf 0x80000000#32), immWordSB (immSBOf 0x80000000#32),
      immWordU (immUOf 0x80000000#32), immWordUJ (immUJOf .present 0x80000000#32)) =
    (0xFFFFF800#32, 0xFFFFF800#32, 0xFFFFF000#32, 0x80000000#32, 0xFFF00000#32) := by decide

theorem test_immediates_mixed :
    (immWord12 (immIOf 0xFE029CE3#32), immWord12 (immSOf 0xFE029CE3#32), immWordSB (immSBOf 0xFE029CE3#32),
      immWordU (immUOf 0xFE029CE3#32), immWordUJ (immUJOf .present 0xFE029CE3#32)) =
    (0xFFFFFFE0#32, 0xFFFFFFF9#32, 0xFFFFFFF8#32, 0xFE029000#32, 0xFFF297E0#32) := by decide

-- Rule R122: with UJ_MID_BITS = absent, bits 10..4 of D-3's immUJ are 0 and bits 3..1 stay.

theorem test_uj_mid_bits_absent : immWordUJ (immUJOf .absent 0x3E80006F#32) = 0x8#32 := by decide

-- Rule R126, D1: the opcodes are a parameter. With class U at 0b0101011, that word is lui and 0b0110111 selects nothing.

/-- The default map with another opcode for class U. -/
def otherMap : OpcodeMap := { opcodeMap with opcU := 0b0101011#7 }

theorem test_decode_under_another_map :
    decodeWith otherMap .present 0x123451AB#32 = some (.lui 3#5 0x12345#20) ∧
      decodeWith otherMap .present 0x123451B7#32 = none := by decide

-- ## ALU: tables L2-R and L2-I, one step of the vector's word

-- R-1
theorem test_add_wraps : regOf (run (start 0#32 0x7FFFFFFF#32 0x00000001#32) 0x002081B3) 3#5 = some 0x80000000#32 := by decide
-- R-x2
theorem test_add_one_register : regOf (run (start 0#32 0x40000000#32 0#32) 0x001080B3) 1#5 = some 0x80000000#32 := by decide
-- R-4
theorem test_sub_wraps : regOf (run (start 0#32 0#32 1#32) 0x402081B3) 3#5 = some 0xFFFFFFFF#32 := by decide
-- R-5
theorem test_sub_signed_overflow : regOf (run (start 0#32 0x80000000#32 1#32) 0x402081B3) 3#5 = some 0x7FFFFFFF#32 := by decide
-- R-7
theorem test_xor : regOf (run (start 0#32 0xF0F0F0F0#32 0xFF00FF00#32) 0x0020C1B3) 3#5 = some 0x0FF00FF0#32 := by decide
-- R-9
theorem test_or : regOf (run (start 0#32 0xF0F0F0F0#32 0x0F0F0F0F#32) 0x0020E1B3) 3#5 = some 0xFFFFFFFF#32 := by decide
-- R-11
theorem test_and : regOf (run (start 0#32 0xF0F0F0F0#32 0xFF00FF00#32) 0x0020F1B3) 3#5 = some 0xF000F000#32 := by decide
-- R-13
theorem test_sll_31 : regOf (run (start 0#32 1#32 0x1F#32) 0x002091B3) 3#5 = some 0x80000000#32 := by decide
-- R-15
theorem test_sll_4 : regOf (run (start 0#32 0x12345678#32 4#32) 0x002091B3) 3#5 = some 0x23456780#32 := by decide
-- R-16
theorem test_srl_31 : regOf (run (start 0#32 0x80000000#32 0x1F#32) 0x0020D1B3) 3#5 = some 1#32 := by decide
-- R-18
theorem test_srl_0 : regOf (run (start 0#32 0x12345678#32 0#32) 0x0020D1B3) 3#5 = some 0x12345678#32 := by decide
-- R-23
theorem test_sra_whole_amount : regOf (run (start 0#32 0x80000000#32 0xFFFFFFFF#32) 0x4020D1B3) 3#5 = some 0xFFFFFFFF#32 := by decide
-- R-24
theorem test_sra_8 : regOf (run (start 0#32 0x12345678#32 8#32) 0x4020D1B3) 3#5 = some 0x00123456#32 := by decide
-- R-25
theorem test_slt_signed : regOf (run (start 0#32 0x80000000#32 0x7FFFFFFF#32) 0x0020A1B3) 3#5 = some 1#32 := by decide
-- R-27
theorem test_slt_equal : regOf (run (start 0#32 5#32 5#32) 0x0020A1B3) 3#5 = some 0#32 := by decide
-- R-28
theorem test_sltu_unsigned : regOf (run (start 0#32 0xFFFFFFFF#32 1#32) 0x0020B1B3) 3#5 = some 0#32 := by decide
-- R-29
theorem test_sltu_less : regOf (run (start 0#32 0#32 1#32) 0x0020B1B3) 3#5 = some 1#32 := by decide
-- I-4
theorem test_addi_smallest : regOf (run (start 0#32 0#32 0#32) 0x80008113) 2#5 = some 0xFFFFF800#32 := by decide
-- I-5
theorem test_addi_wraps : regOf (run (start 0#32 0x0000000A#32 0#32) 0xFF608113) 2#5 = some 0#32 := by decide
-- I-6
theorem test_xori_sign_extends : regOf (run (start 0#32 0x00000F0F#32 0#32) 0xF000C113) 2#5 = some 0xFFFFF00F#32 := by decide
-- I-9
theorem test_ori_sign_extends : regOf (run (start 0#32 0#32 0#32) 0x8000E113) 2#5 = some 0xFFFFF800#32 := by decide
-- I-12
theorem test_andi_sign_extends : regOf (run (start 0#32 0xFFFFFFFF#32 0#32) 0x8000F113) 2#5 = some 0xFFFFF800#32 := by decide
-- I-13
theorem test_slti_negative : regOf (run (start 0#32 0xFFFFFFFE#32 0#32) 0xFFF0A113) 2#5 = some 1#32 := by decide
-- I-14
theorem test_slti_not_less : regOf (run (start 0#32 0#32 0#32) 0xFFF0A113) 2#5 = some 0#32 := by decide
-- I-16
theorem test_sltiu_sign_extends : regOf (run (start 0#32 5#32 0#32) 0xFFF0B113) 2#5 = some 1#32 := by decide
-- I-18
theorem test_sltiu_seqz : regOf (run (start 0#32 7#32 0#32) 0x0010B113) 2#5 = some 0#32 := by decide
-- U-2
theorem test_lui_negative : regOf (run (start 0#32 0#32 0#32) 0xFFFFF1B7) 3#5 = some 0xFFFFF000#32 := by decide
-- R-x1, I-x2, U-5, L-x1: rd = 0 leaves x0 at 0 and the pc advances.
theorem test_rd_zero :
    ∀ w ∈ [0x00208033, 0x00508013, 0x12345037, 0x00002003],
      regOf (run (start 0#32 5#32 6#32) w) 0#5 = some 0#32 ∧ pcOf (run (start 0#32 5#32 6#32) w) = some 4#32 := by decide

-- Rule R159 with SRA_REINSERT = low: 1 shifted by 1 has its low bit put back at the top.
theorem test_sra_low : shiftRightArith .low 1#32 1#32 = 0x80000000#32 := by decide

-- ## Branches and jumps: tables L2-B and L2-J, one step of the vector's word

-- B-7
theorem test_beq_quirk_boundary : pcOf (run (start 512#32 0#32 0#32) 0x0E208F63) = some 766#32 := by decide
-- B-4
theorem test_beq_quirk :
    statusOf (run (start 8#32 1#32 2#32) 0xFE208CE3) = some (.fatal .illegalOperation 0xFFFFFFF8#32 8#32) := by decide
-- B-9
theorem test_bne_taken : pcOf (run (start 16#32 4#32 0#32) 0xFE209CE3) = some 8#32 := by decide
-- B-12
theorem test_bne_untaken_checked :
    statusOf (run (start 1016#32 0#32 0#32) 0x00209463) = some (.fatal .illegalOperation 0x400#32 1016#32) := by decide
-- B-15
theorem test_blt_signed : pcOf (run (start 40#32 0x80000000#32 0x7FFFFFFF#32) 0xFC20CCE3) = some 0#32 := by decide
-- B-14
theorem test_blt_not_taken : pcOf (run (start 40#32 0#32 0xFFFFFFFF#32) 0x0020C663) = some 44#32 := by decide
-- B-17
theorem test_bge_equal : pcOf (run (start 40#32 5#32 5#32) 0x0020D663) = some 52#32 := by decide
-- B-16
theorem test_bge_not_taken : pcOf (run (start 40#32 0xFFFFFFFF#32 0#32) 0x0020D663) = some 44#32 := by decide
-- B-18
theorem test_bltu_unsigned : pcOf (run (start 40#32 0xFFFFFFFF#32 0#32) 0x0020E663) = some 44#32 := by decide
-- B-19
theorem test_bltu_taken : pcOf (run (start 40#32 0#32 1#32) 0x0020E663) = some 52#32 := by decide
-- B-20
theorem test_bgeu_unsigned : pcOf (run (start 40#32 0xFFFFFFFF#32 0#32) 0x0020F663) = some 52#32 := by decide
-- B-26
theorem test_bgeu_smallest_offset :
    statusOf (run (start 1020#32 0#32 0#32) 0x8020F063) = some (.fatal .illegalOperation 0xFFFFF3FC#32 1020#32) := by decide
-- J-1
theorem test_jal_links :
    (pcOf (run (start 4#32 0#32 0#32) 0x00C000EF), regOf (run (start 4#32 0#32 0#32) 0x00C000EF) 1#5) =
      (some 16#32, some 8#32) := by decide
-- J-4: the check comes before the link.
theorem test_jal_out_of_window :
    (statusOf (run (start 4#32 9#32 0#32) 0x3FC000EF), regOf (run (start 4#32 9#32 0#32) 0x3FC000EF) 1#5) =
      (some (.fatal .illegalOperation 0x400#32 4#32), some 9#32) := by decide
-- J-15: rd = rs1, the target from the old value, no bit cleared.
theorem test_jalr_odd_target :
    (pcOf (run (start 20#32 0x64#32 0#32) 0x001080E7), regOf (run (start 20#32 0x64#32 0#32) 0x001080E7) 1#5) =
      (some 101#32, some 0x18#32) := by decide
-- J-18
theorem test_jalr_wraps :
    statusOf (run (start 20#32 0xFFFFFC05#32 0#32) 0x7FF080E7) =
      some (.fatal .illegalOperation 0x404#32 20#32) := by decide

-- ## Loads: table L2-L, under the vectors' HEAP_BASE

-- L-1
theorem test_lb_negative : regOf (load vecParams 1 combineSigned 2#5 1#5 0#12 (vecHeap 0xB704#32)) 2#5 =
    some 0xFFFFFF80#32 := by decide
-- L-8
theorem test_lb_last_of_bank : regOf (load vecParams 1 combineSigned 2#5 1#5 63#12 (vecHeap 0xB700#32)) 2#5 =
    some 0xFFFFFFAA#32 := by decide
-- L-2
theorem test_lbu_zero_extends : regOf (load vecParams 1 combineUnsigned 2#5 1#5 0#12 (vecHeap 0xB704#32)) 2#5 =
    some 0x80#32 := by decide
-- L-6
theorem test_lh_odd_address : regOf (load vecParams 2 combineOr 2#5 1#5 3#12 (vecHeap 0xB701#32)) 2#5 =
    some 0x80#32 := by decide
-- L-9
theorem test_lh_crosses : refusalOf (load vecParams 2 combineOr 2#5 1#5 63#12 (vecHeap 0xB700#32)) =
    some .crossBankAccess := by decide
-- L-7
theorem test_lw_ors_bytes : regOf (load vecParams 4 combineOr 2#5 1#5 (-1) (vecHeap 0xB701#32)) 2#5 =
    some 0x7E#32 := by decide
-- L-10
theorem test_lw_crosses : refusalOf (load vecParams 4 combineOr 2#5 1#5 61#12 (vecHeap 0xB700#32)) =
    some .crossBankAccess := by decide
-- L-12 and L-13: HEAP_END and the byte below the heap.
theorem test_load_outside_heap :
    statusOf (load vecParams 1 combineSigned 2#5 1#5 0#12 (vecHeap 0xD700#32)) =
        some (.fatal .illegalOperation 0xD700#32 0#32) ∧
      statusOf (load vecParams 1 combineSigned 2#5 1#5 (-1) (vecHeap 0xB700#32)) =
        some (.fatal .illegalOperation 0xB6FF#32 0#32) := by decide

-- ## The read ports: L-16 to L-18, L-x2 and P5, the host having supplied the text

/-- A state whose x1 is 0x800. -/
def atPorts : State := start 0#32 0x800#32 0#32

-- "41 x" at port 2070 is 41, and the space and the x are left (rule R75).
theorem test_read_integer :
    (regOf (runWith (inputParams [0x34#8, 0x31#8, 0x20#8, 0x78#8] false) atPorts 0x01608103) 2#5,
      inputOf (runWith (inputParams [0x34#8, 0x31#8, 0x20#8, 0x78#8] false) atPorts 0x01608103)) =
        (some 41#32, some (2, 1)) := by decide
-- L-17: -5, which lb neither extends nor cuts.
theorem test_read_negative_integer :
    regOf (runWith (inputParams [0x2D#8, 0x35#8] true) atPorts 0x01608103) 2#5 = some 0xFFFFFFFB#32 := by decide
-- L-18: 511 through lbu.
theorem test_read_wide_integer :
    regOf (runWith (inputParams [0x35#8, 0x31#8, 0x31#8, 0x0A#8] false) atPorts 0x0160C103) 2#5 =
      some 0x1FF#32 := by decide
-- L-16: the character A after a newline, through lw.
theorem test_read_character :
    (regOf (runWith (inputParams [0x0A#8, 0x41#8] false) atPorts 0x0120A103) 2#5,
      inputOf (runWith (inputParams [0x0A#8, 0x41#8] false) atPorts 0x0120A103)) =
        (some 0x41#32, some (2, 1)) := by decide
-- L-x2: rd = 0 consumes nothing.
theorem test_read_rd_zero :
    (pcOf (runWith (inputParams [0x41#8] false) atPorts 0x0120A003),
      inputOf (runWith (inputParams [0x41#8] false) atPorts 0x0120A003)) = (some 4#32, some (0, 0)) := by decide
-- Rule R354 lets each read be answered with an end of input or a character: after an end, a later read finds a character.
theorem test_read_after_an_end :
    regOf (runWith { vecParams with hostInput :=
        { hostOf [] true with chunk := fun n => if n = 1 then [0x41#8] else [] } } (atPorts.tookInput 0) 0x0120A103) 2#5 =
      some 0x41#32 := by decide
-- Rule R73: held while the host has supplied nothing but a newline, and a later read begins where the last one ended.
theorem test_read_held_and_continued :
    pcOf (runWith (inputParams [0x0A#8] false) atPorts 0x0120A103) = some 0#32 ∧
      regOf (runWith (inputParams [0x41#8, 0x42#8] false) (atPorts.tookInput 1) 0x0120A103) 2#5 = some 0x42#32 := by
  decide

-- ## Stores: table L2-S

-- S-1
theorem test_sb : heapOf (store vecParams 1 1#5 2#5 5#12 (start 0#32 0xB700#32 0x12345680#32)) vecParams 0xB705 1 =
    [0x80#8] := by decide
-- S-2
theorem test_sh : heapOf (store vecParams 2 1#5 2#5 0#12 (start 0#32 0xB700#32 0xBEEF#32)) vecParams 0xB700 2 =
    [0xEF#8, 0xBE#8] := by decide
-- S-4
theorem test_sh_crosses : refusalOf (store vecParams 2 1#5 2#5 63#12 (start 0#32 0xB700#32 0x1234#32)) =
    some .crossBankAccess := by decide
-- S-7
theorem test_sw : heapOf (store vecParams 4 1#5 2#5 (-4) (start 0#32 0xB740#32 0xCAFEBABE#32)) vecParams 0xB73C 4 =
    [0xBE#8, 0xBA#8, 0xFE#8, 0xCA#8] := by decide
-- S-5
theorem test_sw_crosses : refusalOf (store vecParams 4 1#5 2#5 61#12 (start 0#32 0xB700#32 1#32)) =
    some .crossBankAccess := by decide
-- S-8 and S-9: HEAP_END and the instruction store.
theorem test_store_outside_heap :
    statusOf (store vecParams 4 1#5 2#5 0#12 (start 0#32 0xD700#32 1#32)) =
        some (.fatal .illegalOperation 0xD700#32 0#32) ∧
      statusOf (store vecParams 4 1#5 2#5 0#12 (start 0#32 0#32 1#32)) =
        some (.fatal .illegalOperation 0#32 0#32) := by decide
-- S-11: the byte after a write port.
theorem test_store_beside_port :
    statusOf (store vecParams 4 1#5 2#5 1#12 (start 0#32 0x800#32 1#32)) =
      some (.fatal .illegalOperation 0x801#32 0#32) := by decide

-- ## The write ports: table L2-S

-- S-12 to S-15
theorem test_output_ports :
    outOf (run (start 0#32 0x800#32 0x148#32) 0x00208023) = [.char 0x48#8] ∧
      outOf (run (start 0#32 0x800#32 0xFFFFFFFF#32) 0x00208223) = [.dec (-1)] ∧
      outOf (run (start 0#32 0x800#32 0xDEADBEEF#32) 0x00209423) = [.hex 0xDEADBEEF] ∧
      outOf (run (start 0#32 0x800#32 0#32) 0x0220A023) = [.dumpPc 0#32] := by decide
-- Rule R68: the registers are the view, x0 in it 0.
theorem test_dump_registers :
    outOf (run (start 8#32 0x800#32 7#32) 0x0220A223) =
      [.dumpRegs 8#32 (((Vector.replicate 32 0#32).set 1 0x800#32).set 2 7#32)] := by decide
-- S-16, the byte written beforehand being 0x5A.
theorem test_dump_byte :
    outOf (store vecParams 4 1#5 2#5 40#12 ((start 0#32 0x800#32 0xB700#32).setHeapByte 0xB700 0x5A#8)) =
      [.dumpByte 0x5A#8] := by decide
-- S-17
theorem test_dump_byte_outside : refusalOf (run (start 0#32 0x800#32 0#32) 0x0220A423) =
    some .dumpAddressOutOfHeap := by decide
-- S-18
theorem test_allocate :
    regOf (store vecParams 4 1#5 2#5 48#12 (start 0#32 0x800#32 0#32)) 28#5 = some 0xB700#32 := by decide
-- S-19
theorem test_halt :
    (statusOf (run (start 0#32 0x800#32 0#32) 0x0020A623), outOf (run (start 0#32 0x800#32 0#32) 0x0020A623),
      pcOf (run (start 0#32 0x800#32 0#32) 0x0020A623)) = (some .halted, [.haltNotice], some 0#32) := by decide
-- P-16: a read port takes no store.
theorem test_read_port_not_writable :
    statusOf (run (start 0#32 0x800#32 7#32) 0x0020A923) = some (.fatal .illegalOperation 0x812#32 0#32) := by decide

-- ## The allocator: table L2-A

/-- The tags of the first banks. -/
def firstTags (n : Nat) (t : Vector Word 128) : List Word := (List.range n).map (tagAt t)

/-- What a request took, and the first tags after it. -/
def tookOf (n : Nat) (r : AllocResult) : Option (Nat × List Word × Nat) :=
  match r with
  | .took k g m => some (k, firstTags n g, m)
  | .full => none
  | .idExhausted => none

/-- A tag array that begins as the list says and is free from there on. -/
def tagsOf (l : List Word) : Vector Word 128 := Vector.ofFn fun i => l.getD i.val 0#32

-- A-2
theorem test_alloc_zero_bytes : tookOf 2 (alloc State.reset.tags 1 0) = some (0, [1#32, 0#32], 2) := by decide
-- A-3 and A-4
theorem test_alloc_64_and_65 :
    tookOf 3 (alloc State.reset.tags 1 64) = some (0, [1#32, 0#32, 0#32], 2) ∧
      tookOf 3 (alloc State.reset.tags 1 65) = some (0, [1#32, 1#32, 0#32], 2) := by decide
-- A-8, its last request: first fit skips the single free bank.
theorem test_alloc_skips_a_short_run :
    tookOf 6 (alloc (tagsOf [1#32, 0#32, 3#32]) 4 65) = some (3, [1#32, 0#32, 3#32, 4#32, 4#32, 0#32], 5) := by decide
-- A-12
theorem test_alloc_too_large : alloc State.reset.tags 1 8193 = .full := by decide
-- A-16 and A-17
theorem test_alloc_last_id :
    tookOf 1 (alloc State.reset.tags 4294967295 4) = some (0, [0xFFFFFFFF#32], 4294967296) ∧
      alloc (tagsOf [0xFFFFFFFF#32]) 4294967296 4 = .idExhausted := by decide
-- A-18
theorem test_alloc_full_beats_ids : alloc (Vector.replicate 128 1#32) 4294967296 4 = .full := by decide
-- A-9: the walk from the middle of an allocation goes forward only.
theorem test_free_forward_only : firstTags 4 (freeTags vecParams (tagsOf [1#32, 1#32, 1#32, 2#32]) 0xB74A#32) =
    [1#32, 0#32, 0#32, 2#32] := by decide
-- A-13, and its other reading in the note below the table.
theorem test_free_outside_heap :
    firstTags 1 (freeTags vecParams (tagsOf [1#32]) 0x100#32) = [1#32] ∧
      firstTags 1 (freeTags ({ vecParams with freeOutOfHeap := .scan }) (tagsOf [1#32]) 0x100#32) = [0#32] := by decide

-- ## The start of a run (rules R313 and R342)

theorem test_no_start (h : Vector Byte 8192) :
    startRun vecParams .noPath h = .ended 1 ∧ startRun vecParams .unopenable h = .ended 1 ∧
      startRun vecParams (.file (List.replicate 2047 0#8)) h = .ended 1 ∧
      startRun vecParams (.file (List.replicate 2049 0#8)) h = .ended 1 := by
  refine ⟨rfl, rfl, startRun_ended fun b e => ?_, startRun_ended fun b e => ?_⟩ <;> cases e <;>
    rw [List.length_replicate] <;> decide
-- The first 1024 of 2048 bytes populate the instruction store.
theorem test_start (bytes : List Byte) (hl : bytes.length = 2048) (h : Vector Byte 8192) :
    ∃ s, startRun vecParams (.file bytes) h = .started s ∧ s.status = .running ∧ s.pc = 0#32 ∧
      s.istoreByte 1023 = bytes.getD 1023 0#8 :=
  ⟨_, startRun_started.2 ⟨_, rfl, hl, rfl⟩, State.launch_status _ _ _, State.launch_pc _ _ _, by
    rw [State.launch_istoreByte _ _ _ (by omega), Vector.getElem_ofFn]⟩

-- ## The fetch: table L2-P

-- P-1
theorem test_exit : statusOf (run (start 1024#32 0#32 0#32) 0x00000013) = some .exited := by decide
-- P-2
theorem test_misaligned_fetch : refusalOf (run (start 42#32 0#32 0#32) 0x00000013) = some .misalignedFetch := by decide
-- P-3: an all-zero word is no instruction, whatever its rd.
theorem test_unimplemented :
    (statusOf (run (start 0#32 0#32 0#32) 0), outOf (run (start 0#32 0#32 0#32) 0)) =
      (some (.fatal .unimplementedInstruction 0#32 0#32),
        [.fatalDump .unimplementedInstruction 0#32 (Vector.replicate 32 0#32)]) := by decide
-- Rule R35: no step follows a terminal state.
theorem test_terminal : step (State.reset.setStatus .halted) = .fault (.terminated .halted) := rfl

-- ## Witnesses: a state and operands that meet every hypothesis of a statement, one per clause

/-- Reset with `w` placed at the pc: what `run` steps. -/
def placed (pc x1 x2 : Word) (w : Nat) : State := (start pc x1 x2).withFetchWord 32 w

/-- Reset with x1 at the k-th heap byte. -/
def heapAt (k : Nat) : State := State.reset.writeReg 1#5 (BitVec.ofNat 32 (Config.heapBase + k))

/-- Every bank taken. -/
def fullTags : Vector Word 128 := Vector.replicate 128 1#32

theorem effAddr_heapAt {k : Nat} (h : k < 8192) : u32 (effAddr (heapAt k) 1#5 0#12) = params.heapBase + k := by
  have h1 := heapBase_le
  have h2 : effAddr (heapAt k) 1#5 0#12 = BitVec.ofNat 32 (Config.heapBase + k) := by
    simp [effAddr, heapAt, State.readReg_writeReg, immWord12]
  rw [h2, params_heapBase, u32, BitVec.toNat_ofNat]
  omega

theorem inHeap_heapAt {k : Nat} (h : k < 8192) : inHeap params (effAddr (heapAt k) 1#5 0#12) := by
  rw [inHeap_iff params_wf, effAddr_heapAt h]
  omega

-- EncodedInstructionDecodesBack: the largest operands.
theorem witness_well_formed :
    (Instr.beq 31#5 30#5 (-4096)).wellFormed = true ∧ (Instr.jal 31#5 (-1048576)).wellFormed = true ∧
      (Instr.addi 31#5 31#5 (-2048)).wellFormed = true := by decide

-- DecodedWordEncodesBack
theorem witness_decoded_word : decode 0x8020F063#32 = some (.bgeu 1#5 2#5 (-4096)) := by decide

-- DecoderAgreesWithTheOpcodeTable: a word of no row.
theorem witness_no_row : ∀ r ∈ opcodeTable, ¬ r.matches 0x00000073#32 := by decide

-- StepRunsTheDecodedInstruction, at the last pc of the instruction store.
theorem witness_step_runs :
    (placed 1020#32 0#32 0#32 0x00A00293).status = .running ∧ u32 (placed 1020#32 0#32 0#32 0x00A00293).pc < 1024 ∧
      u32 (placed 1020#32 0#32 0#32 0x00A00293).pc % 4 = 0 ∧
      decodeBytes [(placed 1020#32 0#32 0#32 0x00A00293).istoreByte 1020,
        (placed 1020#32 0#32 0#32 0x00A00293).istoreByte 1021, (placed 1020#32 0#32 0#32 0x00A00293).istoreByte 1022,
        (placed 1020#32 0#32 0#32 0x00A00293).istoreByte 1023] = .instr (.addi 5#5 0#5 10#12) [] := by decide

-- StepTestsStatusAndPcFirst: one state per clause.
theorem witness_terminal : (State.reset.setStatus .exited).status ≠ .running := by decide
theorem witness_exit : (start 1024#32 0#32 0#32).status = .running ∧ 1024 ≤ u32 (start 1024#32 0#32 0#32).pc := by decide
theorem witness_misaligned :
    (start 1023#32 0#32 0#32).status = .running ∧ u32 (start 1023#32 0#32 0#32).pc < 1024 ∧
      u32 (start 1023#32 0#32 0#32).pc % 4 ≠ 0 := by decide

-- UnimplementedInstructionIsRaisedByDispatchAlone
theorem witness_unimplemented :
    (placed 1020#32 0#32 0#32 0).status = .running ∧ u32 (placed 1020#32 0#32 0#32 0).pc < 1024 ∧
      u32 (placed 1020#32 0#32 0#32 0).pc % 4 = 0 ∧ decode ((placed 1020#32 0#32 0#32 0).fetch32 1020) = none := by decide
theorem witness_unimplemented_kept :
    ∃ t, exec (.add 3#5 1#5 2#5) (State.reset.setStatus (.fatal .unimplementedInstruction 0#32 0#32)) = .next t ∧
      t.status = .fatal .unimplementedInstruction 0#32 0#32 := ⟨_, rfl, by decide⟩

-- FatalStepLeavesTheStateBeforeIt: both causes.
theorem witness_fatal_illegal :
    (placed 0#32 0#32 0#32 0x4000006F).status = .running ∧
      ∃ t, step (placed 0#32 0#32 0#32 0x4000006F) = .next t ∧ t.status = .fatal .illegalOperation 0x400#32 0#32 :=
  ⟨by decide, _, rfl, by decide⟩
theorem witness_fatal_unimplemented :
    (placed 0#32 0#32 0#32 0x73).status = .running ∧
      ∃ t, step (placed 0#32 0#32 0#32 0x73) = .next t ∧ t.status = .fatal .unimplementedInstruction 0x73#32 0#32 :=
  ⟨by decide, _, rfl, by decide⟩

-- InstructionsAreRefusedOnlyForTheSpecsReasons: one instruction per reason, and beside each reason one that completes.
theorem witness_refused_cross_bank :
    exec (.lh 2#5 1#5 0#12) (heapAt 63) = .refused .crossBankAccess ∧
      exec (.sw 1#5 2#5 0#12) (heapAt 8189) = .refused .crossBankAccess := by
  have h1 : crossesBank params (effAddr (heapAt 63) 1#5 0#12) 2 := by
    rw [crossesBank, bankOffset, effAddr_heapAt (by omega)]
    omega
  have h2 : crossesBank params (effAddr (heapAt 8189) 1#5 0#12) 4 := by
    rw [crossesBank, bankOffset, effAddr_heapAt (by omega), Nat.add_sub_cancel_left]
    decide
  have h3 := inHeap_heapAt (k := 8189) (by omega)
  simp only [exec, execLh, execSw]
  exact ⟨load_of_crossesBank (by decide) (inHeap_heapAt (by omega)) h1,
    store_of_crossesBank h3 h2⟩
theorem witness_wide_access_completes : ¬ Refuses (heapAt 62) (.lh 2#5 1#5 0#12) .crossBankAccess := by
  have h : ¬ crossesBank params (effAddr (heapAt 62) 1#5 0#12) 2 := by
    rw [crossesBank, bankOffset, effAddr_heapAt (by omega)]
    omega
  rintro (⟨-, ⟨rd, rs1, imm, n, ⟨he, rfl⟩ | ⟨he, -⟩, -, -, hc⟩ | ⟨rs1, rs2, imm, n, ⟨he, -⟩ | ⟨he, -⟩, -⟩⟩ | ⟨hr, -⟩ |
    ⟨hr, -⟩)
  · cases he; exact h hc
  all_goals first | cases he | cases hr
theorem witness_refused_dump :
    exec (.sb 1#5 2#5 40#12) (start 0#32 0x800#32 0#32) = .refused .dumpAddressOutOfHeap := rfl
theorem witness_refused_alloc :
    exec (.sb 1#5 2#5 48#12) ((start 0#32 0x800#32 0#32).setBanks State.reset.tags 4294967296) =
      .refused .allocIdExhausted := rfl

-- RdZeroSkipsAllButTheJumps, JumpsInTheWindowLinkAndGo, JumpsOutOfTheWindowAreFatal: the last target inside the window,
-- and the first outside it that the offset reaches.
theorem witness_jal_in_window : u32 ((start 0#32 0#32 0#32).pc + (1020#21).signExtend 32) ≤ 1020 := by decide
theorem witness_jal_out_of_window : 1020 < u32 ((start 0#32 0#32 0#32).pc + (1022#21).signExtend 32) := by decide
theorem witness_jalr_in_window :
    u32 ((start 0#32 1021#32 0#32).readReg 1#5 + (-1 : BitVec 12).signExtend 32) ≤ 1020 := by decide
theorem witness_jalr_out_of_window :
    1020 < u32 ((start 0#32 1021#32 0#32).readReg 1#5 + (0#12).signExtend 32) := by decide
theorem witness_jumps_in_window :
    u32 (BitVec.ofInt 32 ((u32 (start 0#32 1021#32 0#32).pc : Int) + (1020#21).toInt)) ≤ 1020 ∧
      u32 (BitVec.ofInt 32 ((u32 ((start 0#32 1021#32 0#32).readReg 1#5) : Int) + (-1 : BitVec 12).toInt)) ≤ 1020 := by
  decide
theorem witness_jumps_out_of_window :
    1020 < u32 (BitVec.ofInt 32 ((u32 (start 0#32 1021#32 0#32).pc : Int) + (-2 : BitVec 21).toInt)) ∧
      1020 < u32 (BitVec.ofInt 32 ((u32 ((start 0#32 1021#32 0#32).readReg 1#5) : Int) + (0#12).toInt)) := by decide

-- RegisterZeroIsHardwired and RegistersChangeOnlyAtRdOrX28
theorem witness_next : ∃ t, exec (.add 0#5 1#5 2#5) (start 0#32 3#32 4#32) = .next t := ⟨_, rfl⟩
theorem witness_rd_changes :
    ∃ t, exec (.add 31#5 1#5 2#5) (start 0#32 3#32 4#32) = .next t ∧
      t.readReg 31#5 ≠ (start 0#32 3#32 4#32).readReg 31#5 := ⟨_, rfl, by decide⟩
theorem witness_x28_changes :
    ∃ t, exec (.sw 1#5 2#5 48#12) (((start 0#32 0x800#32 0#32).writeReg 28#5 5#32).setBanks fullTags 2) = .next t ∧
      t.readReg 28#5 ≠ (((start 0#32 0x800#32 0#32).writeReg 28#5 5#32).setBanks fullTags 2).readReg 28#5 :=
  ⟨_, rfl, by decide⟩

-- The branch statements: the last target inside, the first outside, and the same for the doubled offset of beq.
theorem witness_branch_in_window :
    u32 (BitVec.ofInt 32 ((u32 (start 1016#32 0#32 0#32).pc : Int) + (4#13).toInt)) ≤ 1020 := by decide
theorem witness_branch_out_of_window :
    1020 < u32 (BitVec.ofInt 32 ((u32 (start 1016#32 0#32 0#32).pc : Int) + (6#13).toInt)) := by decide
theorem witness_beq_in_window :
    u32 (BitVec.ofInt 32 ((u32 (start 512#32 0#32 0#32).pc : Int) + 2 * (254#13).toInt)) ≤ 1020 := by decide
theorem witness_beq_out_of_window :
    1020 < u32 (BitVec.ofInt 32 ((u32 (start 512#32 0#32 0#32).pc : Int) + 2 * (256#13).toInt)) := by decide
theorem witness_beq_check : u32 (start 1020#32 0#32 0#32).pc ≤ 1020 := by decide

-- ByteLoadsExtendTheHeapByte, WideLoadsOrTheirBytes, AccessesAcrossBanksAreRefused, StoresWriteTheirBytesLittleEndian:
-- the last byte of the heap, the last half and the last word of a bank, and the first that cross.
theorem witness_heap_address {k : Nat} (h : k < 8192) :
    params.heapBase ≤ u32 (effAddr (heapAt k) 1#5 0#12) ∧
      u32 (effAddr (heapAt k) 1#5 0#12) < params.heapBase + 8192 ∧
      (u32 (effAddr (heapAt k) 1#5 0#12) - params.heapBase) % 64 = k % 64 := by
  rw [effAddr_heapAt h]
  omega
theorem witness_last_byte :
    params.heapBase ≤ u32 (effAddr (heapAt 8191) 1#5 0#12) ∧
      u32 (effAddr (heapAt 8191) 1#5 0#12) < params.heapBase + 8192 ∧
      (u32 (effAddr (heapAt 8191) 1#5 0#12) - params.heapBase) % 64 = 63 := witness_heap_address (by omega)
theorem witness_last_half :
    params.heapBase ≤ u32 (effAddr (heapAt 62) 1#5 0#12) ∧
      u32 (effAddr (heapAt 62) 1#5 0#12) < params.heapBase + 8192 ∧
      (u32 (effAddr (heapAt 62) 1#5 0#12) - params.heapBase) % 64 + 2 ≤ 64 := by
  rw [effAddr_heapAt (by omega)]
  omega
theorem witness_last_word :
    params.heapBase ≤ u32 (effAddr (heapAt 60) 1#5 0#12) ∧
      u32 (effAddr (heapAt 60) 1#5 0#12) < params.heapBase + 8192 ∧
      (u32 (effAddr (heapAt 60) 1#5 0#12) - params.heapBase) % 64 + 4 ≤ 64 := by
  rw [effAddr_heapAt (by omega)]
  omega
theorem witness_crossing_word :
    params.heapBase ≤ u32 (effAddr (heapAt 61) 1#5 0#12) ∧
      u32 (effAddr (heapAt 61) 1#5 0#12) < params.heapBase + 8192 ∧
      61 ≤ (u32 (effAddr (heapAt 61) 1#5 0#12) - params.heapBase) % 64 := by
  rw [effAddr_heapAt (by omega)]
  omega

-- LoadsSeeTheStoredBytes: beside the address, the store completes.
theorem witness_store_completes : ∃ t, exec (.sw 1#5 2#5 0#12) (heapAt 60) = .next t := by
  have h : ¬ crossesBank params (effAddr (heapAt 60) 1#5 0#12) 4 := by
    rw [crossesBank, bankOffset, effAddr_heapAt (by omega)]
    omega
  simp only [exec, execSw]
  exact ⟨_, store_of_inHeap (inHeap_heapAt (by omega)) h⟩

-- IllegalAddressesAreFatal: a load from a write port, and a store to a read port.
theorem witness_illegal_load :
    ¬ (params.heapBase ≤ u32 (effAddr (start 0#32 2100#32 0#32) 1#5 0#12) ∧
        u32 (effAddr (start 0#32 2100#32 0#32) 1#5 0#12) < params.heapBase + 8192) ∧
      (2#5 : RegIdx) ≠ 0#5 ∧ u32 (effAddr (start 0#32 2100#32 0#32) 1#5 0#12) ∉ [2066, 2070] := by
  refine ⟨fun h => ?_, by decide, by decide⟩
  have h1 := heapBase_ge
  have h2 : u32 (effAddr (start 0#32 2100#32 0#32) 1#5 0#12) = 2100 := by decide
  rw [h2, params_heapBase] at h
  omega
theorem witness_illegal_store :
    ¬ (params.heapBase ≤ u32 (effAddr (start 0#32 2066#32 0#32) 1#5 0#12) ∧
        u32 (effAddr (start 0#32 2066#32 0#32) 1#5 0#12) < params.heapBase + 8192) ∧
      u32 (effAddr (start 0#32 2066#32 0#32) 1#5 0#12) ∉ [2048, 2052, 2056, 2060, 2080, 2084, 2088, 2096, 2100] := by
  refine ⟨fun h => ?_, by decide⟩
  have h1 := heapBase_ge
  have h2 : u32 (effAddr (start 0#32 2066#32 0#32) 1#5 0#12) = 2066 := by decide
  rw [h2, params_heapBase] at h
  omega

-- CharacterPortReadsPastWhitespace: a character of code 127, and one above.
theorem witness_read_character :
    (2#5 : RegIdx) ≠ 0#5 ∧ effAddr atPorts 1#5 18#12 = 2066#32 ∧
      atPorts.unread (inputParams [0x20#8, 0x0D#8, 0x7F#8, 0x41#8] false) = [0x20#8, 0x0D#8] ++ 0x7F#8 :: [0x41#8] ∧
      (∀ b ∈ [0x20#8, 0x0D#8], isSpace b = true) ∧ isSpace 0x7F#8 = false ∧ (0x7F#8).toNat ≤ 127 := by decide
theorem witness_read_high_character :
    (31#5 : RegIdx) ≠ 0#5 ∧ effAddr atPorts 1#5 18#12 = 2066#32 ∧
      atPorts.unread (inputParams [0x80#8] false) = [] ++ 0x80#8 :: [] ∧
      (∀ b ∈ ([] : List Byte), isSpace b = true) ∧ isSpace 0x80#8 = false := by decide

/-- The digits of 2147483648. -/
def minDigits : List Byte :=
  [0x32#8, 0x31#8, 0x34#8, 0x37#8, 0x34#8, 0x38#8, 0x33#8, 0x36#8, 0x34#8, 0x38#8]

-- IntegerPortReadsANumeral: "-2147483648" ended by the end of input, and "+7" after a newline, ended by a space.
theorem witness_read_integer_end :
    (2#5 : RegIdx) ≠ 0#5 ∧ effAddr atPorts 1#5 22#12 = 2070#32 ∧
      atPorts.unread (inputParams (0x2D#8 :: minDigits) true) = [] ++ [0x2D#8] ++ minDigits ++ [] ∧
      atPorts.inputEnded (inputParams (0x2D#8 :: minDigits) true) = true ∧
      [0x2D#8] ∈ [[], [0x2B#8], [0x2D#8]] ∧ minDigits ≠ [] ∧ (∀ d ∈ minDigits, isDigit d = true) ∧
      -(digitsValue minDigits : Int) = -2147483648 := by decide
theorem witness_read_integer_space :
    (2#5 : RegIdx) ≠ 0#5 ∧ effAddr atPorts 1#5 22#12 = 2070#32 ∧
      atPorts.unread (inputParams [0x0A#8, 0x2B#8, 0x37#8, 0x20#8] false) =
        [0x0A#8] ++ [0x2B#8] ++ [0x37#8] ++ [0x20#8] ∧
      (∀ b ∈ [0x0A#8], isSpace b = true) ∧ [0x2B#8] ∈ [[], [0x2B#8], [0x2D#8]] ∧ [0x37#8] ≠ [] ∧
      (∀ d ∈ [0x37#8], isDigit d = true) ∧ (∀ d ∈ [0x20#8].head?, isDigit d = false) ∧ [0x20#8] ≠ [] ∧
      (digitsValue [0x37#8] : Int) = 7 := by decide

-- ReadPortsHoldUntilTheHostAnswers: whitespace alone at either port, and " -7" at port 2070.
theorem witness_read_held :
    (2#5 : RegIdx) ≠ 0#5 ∧ effAddr atPorts 1#5 22#12 ∈ [2066#32, 2070#32] ∧
      effAddr atPorts 1#5 18#12 ∈ [2066#32, 2070#32] ∧
      (∀ b ∈ atPorts.unread (inputParams [0x20#8] false), isSpace b = true) ∧
      atPorts.inputEnded (inputParams [0x20#8] false) = false := by decide
theorem witness_numeral_held :
    (2#5 : RegIdx) ≠ 0#5 ∧ effAddr atPorts 1#5 22#12 = 2070#32 ∧
      atPorts.unread (inputParams [0x20#8, 0x2D#8, 0x37#8] false) = [0x20#8] ++ [0x2D#8] ++ [0x37#8] ∧
      (∀ b ∈ [0x20#8], isSpace b = true) ∧ [0x2D#8] ∈ [[], [0x2B#8], [0x2D#8]] ∧
      (∀ d ∈ [0x37#8], isDigit d = true) ∧
      atPorts.inputEnded (inputParams [0x20#8, 0x2D#8, 0x37#8] false) = false := by decide

-- ReadPortsCompleteAfterTheInputEnds: ended input, no digits at all ("x"), a sign alone ("+ "), and 2147483648 before a space.
theorem witness_read_ended :
    (2#5 : RegIdx) ≠ 0#5 ∧ effAddr atPorts 1#5 18#12 ∈ [2066#32, 2070#32] ∧
      atPorts.inputEnded (inputParams [] true) = true := by decide
theorem witness_read_no_digits :
    (2#5 : RegIdx) ≠ 0#5 ∧ effAddr atPorts 1#5 22#12 = 2070#32 ∧
      atPorts.unread (inputParams [0x78#8] false) = [] ++ [] ++ [] ++ 0x78#8 :: [] ∧ isDigit 0x78#8 = false ∧
      isSpace 0x78#8 = false ∧ 0x78#8 ≠ 0x2B#8 ∧ 0x78#8 ≠ 0x2D#8 := by decide
theorem witness_read_sign_alone :
    (2#5 : RegIdx) ≠ 0#5 ∧ effAddr atPorts 1#5 22#12 = 2070#32 ∧
      atPorts.unread (inputParams [0x2B#8, 0x20#8] false) = [] ++ [0x2B#8] ++ [] ++ 0x20#8 :: [] ∧
      isDigit 0x20#8 = false ∧ [0x2B#8] ∈ [[], [0x2B#8], [0x2D#8]] ∧ [0x2B#8] ≠ [] := by decide
theorem witness_read_out_of_range :
    (2#5 : RegIdx) ≠ 0#5 ∧ effAddr atPorts 1#5 22#12 = 2070#32 ∧
      atPorts.unread (inputParams (minDigits ++ [0x20#8]) false) = [] ++ [] ++ minDigits ++ 0x20#8 :: [] ∧
      (∀ d ∈ minDigits, isDigit d = true) ∧ isDigit 0x20#8 = false ∧ minDigits ≠ [] ∧
      ¬ fitsS32 (digitsValue minDigits : Int) := by decide

-- ConsolePortsEmitTheRegister, HaltPortEndsTheRun, DumpPortsShowPcAndRegisters, DumpBytePortShowsAHeapByte,
-- AllocatePortTakesTheLowestFreeBank, FreePortReleasesFromTheOwningBank: the nine write ports are reached.
theorem witness_write_ports :
    [0#12, 4#12, 8#12, 12#12, 32#12, 36#12, 40#12, 48#12, 52#12].map (effAddr (start 0#32 0x800#32 0#32) 1#5) =
      [2048#32, 2052#32, 2056#32, 2060#32, 2080#32, 2084#32, 2088#32, 2096#32, 2100#32] := by decide

/-- Reset with x1 at the first port and x2 at the k-th heap byte. -/
def portAt (k : Nat) : State := (State.reset.writeReg 1#5 0x800#32).writeReg 2#5 (BitVec.ofNat 32 (Config.heapBase + k))

theorem effAddr_portAt {k : Nat} (imm : BitVec 12) :
    effAddr (portAt k) 1#5 imm = 0x800#32 + immWord12 imm := by
  simp [effAddr, portAt, State.readReg_writeReg]

-- DumpBytePortShowsAHeapByte and FreePortReleasesFromTheOwningBank: x[rs2] a heap address, k up from HEAP_BASE.
theorem witness_port_heap_address {k : Nat} (h : k < 8192) :
    effAddr (portAt k) 1#5 40#12 = 2088#32 ∧ effAddr (portAt k) 1#5 52#12 = 2100#32 ∧
      u32 ((portAt k).readReg 2#5) = params.heapBase + k := by
  have h1 := heapBase_le
  refine ⟨by rw [effAddr_portAt]; decide, by rw [effAddr_portAt]; decide, ?_⟩
  have h2 : (portAt k).readReg 2#5 = BitVec.ofNat 32 (Config.heapBase + k) := by
    simp [portAt, State.readReg_writeReg]
  rw [h2, params_heapBase, u32, BitVec.toNat_ofNat]
  omega
theorem witness_port_heap_base :
    effAddr (portAt 0) 1#5 40#12 = 2088#32 ∧ effAddr (portAt 0) 1#5 52#12 = 2100#32 ∧
      params.heapBase ≤ u32 ((portAt 0).readReg 2#5) ∧ u32 ((portAt 0).readReg 2#5) < params.heapBase + 8192 := by
  obtain ⟨h1, h2, h3⟩ := witness_port_heap_address (k := 0) (by omega)
  exact ⟨h1, h2, by omega, by omega⟩
theorem witness_port_heap_end :
    effAddr (portAt 8191) 1#5 40#12 = 2088#32 ∧ effAddr (portAt 8191) 1#5 52#12 = 2100#32 ∧
      params.heapBase ≤ u32 ((portAt 8191).readReg 2#5) ∧
      u32 ((portAt 8191).readReg 2#5) < params.heapBase + 8192 := by
  obtain ⟨h1, h2, h3⟩ := witness_port_heap_address (k := 8191) (by omega)
  exact ⟨h1, h2, by omega, by omega⟩
-- The same two, where x[rs2] is no heap address.
theorem witness_port_no_heap_address :
    ¬ (params.heapBase ≤ u32 (atPorts.readReg 2#5) ∧ u32 (atPorts.readReg 2#5) < params.heapBase + 8192) := by
  have h1 := heapBase_ge
  have h2 : u32 (atPorts.readReg 2#5) = 0 := by decide
  rw [h2, params_heapBase]
  omega

/-- Banks 0 to 126 taken, the last one free. -/
def lastFree : Vector Word 128 := fullTags.set 127 0#32

-- AllocatePortTakesTheLowestFreeBank: the last bank with the last id, no bank, and no id left.
theorem witness_allocate_last :
    effAddr ((start 0#32 0x800#32 0#32).setBanks lastFree 4294967295) 1#5 48#12 = 2096#32 ∧
      tagAt lastFree 127 = 0#32 ∧ (∀ j, j < 127 → tagAt lastFree j ≠ 0#32) ∧ 4294967295 < 4294967296 := by
  refine ⟨by decide, by decide, fun j hj => ?_, by decide⟩
  have h : tagAt lastFree j = 1#32 := by
    rw [tagAt, dif_pos (by omega)]
    simp only [lastFree, fullTags]
    rw [Vector.getElem_set_ne _ _ (by omega), Vector.getElem_replicate]
  rw [h]
  decide
theorem witness_allocate_full :
    effAddr ((start 0#32 0x800#32 0#32).setBanks fullTags 2) 1#5 48#12 = 2096#32 ∧
      ∀ k, k < 128 → tagAt fullTags k ≠ 0#32 := by
  refine ⟨by decide, fun k hk => ?_⟩
  rw [tagAt, dif_pos hk]
  simp [fullTags]
theorem witness_allocate_ids_used :
    effAddr ((start 0#32 0x800#32 0#32).setBanks State.reset.tags 4294967296) 1#5 48#12 = 2096#32 ∧
      (∃ k, k < 128 ∧ tagAt State.reset.tags k = 0#32) ∧ 4294967296 ≤ (4294967296 : Nat) :=
  ⟨by decide, ⟨0, by decide, by decide⟩, le_refl _⟩

-- FailedAllocationOnlyClearsX28: a full heap, and under MALLOC_SIZE_FROM_VALUE a request above the heap's size.
theorem witness_failed_allocation :
    allocScan fullTags (banksNeeded (allocSize params 0#32)) = none ∧
      allocScan State.reset.tags (banksNeeded (allocSize { vecParams with mallocSizeFromValue := true } 8193#32)) = none := by
  decide

-- AllocationTakesTheLowestFittingRun: the whole heap in one request, with the first id; the scan answers bank 0.
theorem allocScan_whole_heap : allocScan State.reset.tags (banksNeeded 8192) = some 0 := by decide +kernel
theorem witness_allocation_of_all : ∃ g, alloc State.reset.tags 1 8192 = .took 0 g 2 := by
  have h : allocScan State.reset.tags (banksNeeded 8192) = some 0 := allocScan_whole_heap
  refine ⟨stamp State.reset.tags 0 (banksNeeded 8192) (BitVec.ofNat 32 1), ?_⟩
  unfold alloc
  rw [h]
  exact if_neg (by decide)

-- AllocationsFromResetAscend and ReleaseFreesTheForwardRun: the last bank, free and taken.
theorem witness_last_bank : tagAt State.reset.tags 127 = 0#32 ∧ tagAt fullTags 127 ≠ 0#32 := by decide +kernel

-- StepKeepsMemoriesCanonical, StepKeepsBanksConsistent (a full heap), StepKeepsPcInRange: a state that meets the
-- invariant and steps. Any step will do for the whole-machine rules.
theorem witness_memories :
    MemoriesCanonical (placed 0#32 0#32 0#32 0x00A00293) ∧ ∃ t, step (placed 0#32 0#32 0#32 0x00A00293) = .next t := by
  refine ⟨⟨by decide, by decide, List.Pairwise.nil, ?_⟩, _, rfl⟩
  intro c hc
  cases hc
theorem tagAt_fullTags {k : Nat} (hk : k < 128) : tagAt fullTags k = 1#32 := by
  rw [tagAt, dif_pos hk]
  simp [fullTags]
theorem witness_banks :
    BanksConsistent ((placed 0#32 0x800#32 0#32 0x0220A823).setBanks fullTags 2) ∧
      ∃ t, step ((placed 0#32 0x800#32 0#32 0x0220A823).setBanks fullTags 2) = .next t := by
  refine ⟨⟨by decide, by decide, fun k hk => ?_, fun i j k h1 h2 h3 _ _ => ?_⟩, _, rfl⟩
  · simp only [State.setBanks_tags, State.setBanks_nextId, tagAt_fullTags hk]
    decide
  · simp only [State.setBanks_tags, tagAt_fullTags (show i < 128 by omega), tagAt_fullTags (show j < 128 by omega)]
theorem witness_pc_in_range :
    PcInRange (placed 1020#32 0#32 0#32 0x00A00293) ∧ ∃ t, step (placed 1020#32 0#32 0#32 0x00A00293) = .next t :=
  ⟨by unfold PcInRange; decide, _, rfl⟩

-- IdsAreNeverStampedTwice: a step that stamps bank 0.
theorem witness_tag_changes :
    ∃ t, step (placed 0#32 0x800#32 0#32 0x0220A823) = .next t ∧
      tagAt t.tags 0 ≠ tagAt (placed 0#32 0x800#32 0#32 0x0220A823).tags 0 := ⟨_, rfl, by decide⟩

-- RunsEndOnlyInTheListedWays: one step per way.
theorem witness_ends_exited :
    ∃ t, step (start 1024#32 0#32 0#32) = .next t ∧ t.status ≠ .running := ⟨_, rfl, by decide⟩
theorem witness_ends_halted :
    ∃ t, step (placed 0#32 0x800#32 0#32 0x0020A623) = .next t ∧ t.status ≠ .running := ⟨_, rfl, by decide⟩
theorem witness_ends_unimplemented :
    ∃ t, step (placed 0#32 0#32 0#32 0) = .next t ∧ t.status ≠ .running := ⟨_, rfl, by decide⟩
theorem witness_ends_illegal :
    ∃ t, step (placed 0#32 0#32 0#32 0x4000006F) = .next t ∧ t.status ≠ .running := ⟨_, rfl, by decide⟩
theorem witness_refused_step :
    ∃ r, step (start 42#32 0#32 0#32) = .refused r ∧ (start 42#32 0#32 0#32).status = .running :=
  ⟨_, rfl, by decide⟩
theorem witness_refused_instruction :
    step (placed 0#32 0x800#32 0#32 0x0220A423) = .refused .dumpAddressOutOfHeap := rfl

-- EveryOpcodeMapDecodesWhatItEncodes: the default map and another.
theorem witness_opcode_maps :
    opcodeMap.wf ∧ otherMap.wf ∧ (Instr.jal 31#5 (-1048576)).wellFormed = true ∧
      (Instr.lui 31#5 0xFFFFF#20).wellFormed = true := by decide


end Sys2Proof.Tests
end

namespace Sys2Proof.Machine

/-- Settles O23, by the two laws of x0. No state can hold another value of x0, so the state an instruction leaves needs no
look at the instruction. -/
theorem registerZeroIsHardwired : Obligations.RegisterZeroIsHardwired :=
  ⟨State.readReg_zero, State.writeReg_zero, fun _ _ t _ => State.readReg_zero t⟩

end Sys2Proof.Machine

namespace Sys2Proof.Machine

-- ## A failed allocation (rule R85)

theorem State.setsReg_retire (s : State) (rd : RegIdx) (v : Word) : SetsReg s (s.retire rd v) rd v :=
  fun r => s.readReg_retire rd r v

theorem State.keepsMemory_retire (s : State) (rd : RegIdx) (v : Word) : KeepsMemory s (s.retire rd v) where
  heap := State.heapByte_congr (s.retire_heap rd v)
  istore _ := by simp [State.istoreByte]

theorem State.keepsInput_retire (s : State) (rd : RegIdx) (v : Word) : KeepsInput s (s.retire rd v) :=
  ⟨s.retire_inputPos rd v, s.retire_reads rd v⟩

theorem State.keepsOutput_retire (s : State) (rd : RegIdx) (v : Word) : KeepsOutput s (s.retire rd v) :=
  ⟨s.retire_out rd v, s.retire_status rd v⟩

/-- Retiring a value in x28 is an allocation's effect that leaves every tag and the id generator as they are. -/
theorem State.bankEffect_retire (s : State) (v : Word) :
    BankEffect s (s.retire 28#5 v) (some v) s.tags s.nextId where
  regs := s.setsReg_retire 28#5 v
  tags := s.retire_tags 28#5 v
  nextId := s.retire_nextId 28#5 v
  pc := s.retire_pc 28#5 v
  memory := s.keepsMemory_retire 28#5 v
  input := s.keepsInput_retire 28#5 v
  output := s.keepsOutput_retire 28#5 v

theorem portAlloc_of_allocScan_none {p : Params} {v : Word} {s : State}
    (h : allocScan s.tags (banksNeeded (allocSize p v)) = none) :
    portAlloc p v s = .next (s.retire 28#5 0#32) := by
  rw [portAlloc, alloc_full.2 h]

/-- Settles O45: where the scan finds nothing the port retires 0 in x28, and a retired value touches no bank. -/
theorem failedAllocationOnlyClearsX28 : Obligations.FailedAllocationOnlyClearsX28 :=
  fun _ _ s h => ⟨s.retire 28#5 0#32, portAlloc_of_allocScan_none h, s.bankEffect_retire 0#32⟩

-- ## The walk of a release (rule R92)

/-- The banks from `k` to `i` all carry `id`: the walk from bank `k` reaches bank `i`. -/
def CarriesIdTo (t : Vector Word 128) (id : Word) (k i : Nat) : Prop :=
  k ≤ i ∧ ∀ j, k ≤ j → j ≤ i → tagAt t j = id

theorem carriesIdTo_self {t : Vector Word 128} {id : Word} {k : Nat} : CarriesIdTo t id k k ↔ tagAt t k = id := by
  refine ⟨fun h => h.2 k le_rfl le_rfl, fun h => ⟨le_rfl, fun j h1 h2 => ?_⟩⟩
  rwa [Nat.le_antisymm h2 h1]

/-- Where bank `k` carries the id, the walk reaches a later bank exactly if, with bank `k` cleared, it does so from `k + 1`. -/
theorem carriesIdTo_setTag_succ {t : Vector Word 128} {id v : Word} {k i : Nat} (h : tagAt t k = id) (hki : k ≠ i) :
    CarriesIdTo (setTag t k v) id (k + 1) i ↔ CarriesIdTo t id k i := by
  have tag_above : ∀ j, k + 1 ≤ j → tagAt (setTag t k v) j = tagAt t j := fun j hj => by
    rw [tagAt_setTag, if_neg (by omega)]
  constructor
  · rintro ⟨hle, htags⟩
    refine ⟨by omega, fun j h1 h2 => ?_⟩
    obtain rfl | hj := Nat.eq_or_lt_of_le h1
    · exact h
    · exact tag_above j hj ▸ htags j hj h2
  · rintro ⟨hle, htags⟩
    exact ⟨by omega, fun j h1 h2 => (tag_above j h1).trans (htags j (by omega) h2)⟩

/-- The walk leaves every bank that it does not reach. -/
theorem tagAt_clearRun_of_not_carriesIdTo {id : Word} {i : Nat} : ∀ {fuel k : Nat} {t : Vector Word 128},
    ¬ CarriesIdTo t id k i → tagAt (clearRun id fuel k t) i = tagAt t i := by
  intro fuel
  induction fuel with
  | zero => intro k t _; rfl
  | succ fuel ih =>
    intro k t hi
    rw [clearRun]
    split
    next hk =>
      have hki : k ≠ i := fun e => hi (e ▸ carriesIdTo_self.2 hk.2)
      rw [ih fun h => hi ((carriesIdTo_setTag_succ hk.2 hki).1 h), tagAt_setTag, if_neg fun h => hki h.1.symm]
    next => rfl

/-- The walk frees every bank that it reaches, given one step for each bank up to there. -/
theorem tagAt_clearRun_of_carriesIdTo {id : Word} {i : Nat} (hi : i < 128) : ∀ {fuel k : Nat} {t : Vector Word 128},
    i < k + fuel → CarriesIdTo t id k i → tagAt (clearRun id fuel k t) i = 0#32 := by
  intro fuel
  induction fuel with
  | zero => intro k t hf h; exact absurd h.1 (by omega)
  | succ fuel ih =>
    intro k t hf h
    obtain ⟨hle, htags⟩ := h
    have hk : tagAt t k = id := htags k le_rfl hle
    rw [clearRun, if_pos ⟨by omega, hk⟩]
    by_cases hki : k = i
    · subst hki
      rw [tagAt_clearRun_of_not_carriesIdTo fun h => absurd h.1 (by omega), tagAt_setTag, if_pos ⟨rfl, hi⟩]
    · exact ih (by omega) ((carriesIdTo_setTag_succ hk hki).2 ⟨hle, htags⟩)

theorem release_of_free {t : Vector Word 128} {k : Nat} (h : tagAt t k = 0#32) : release t k = t := if_pos h

theorem release_of_taken {t : Vector Word 128} {k : Nat} (h : tagAt t k ≠ 0#32) :
    release t k = clearRun (tagAt t k) 128 k t := if_neg h

/-- Settles O50, by what the walk does to the banks it reaches and to the others; 128 steps reach every bank. -/
theorem releaseFreesTheForwardRun : Obligations.ReleaseFreesTheForwardRun := by
  refine fun t k _ => ⟨release_of_free, fun hk i hi => ?_⟩
  rw [release_of_taken hk]
  exact ⟨tagAt_clearRun_of_carriesIdTo hi (by omega), tagAt_clearRun_of_not_carriesIdTo⟩

end Sys2Proof.Machine

namespace Sys2Proof.Machine

-- ## Instructions with rd = 0 (rule R113)

theorem writeResult_zero {v : Word} {s : State} : writeResult 0#5 v s = .next s.advance := if_pos rfl

theorem aluReg_zero {op : Word → Word → Word} {rs1 rs2 : RegIdx} {s : State} :
    aluReg op 0#5 rs1 rs2 s = .next s.advance := writeResult_zero

theorem aluImm_zero {op : Word → Word → Word} {rs1 : RegIdx} {imm : BitVec 12} {s : State} :
    aluImm op 0#5 rs1 imm s = .next s.advance := writeResult_zero

theorem jumpAndLink_zero_of_inWindow {t : Word} {s : State} (h : inWindow t) :
    jumpAndLink 0#5 t s = .next (s.setPc t) := by
  rw [jumpAndLink_of_inWindow h, State.writeReg_zero]

theorem State.keepsMemory_raiseFatal (s : State) (c : FatalCause) (v : Word) : KeepsMemory s (s.raiseFatal c v) where
  heap := State.heapByte_congr (s.raiseFatal_heap c v)
  istore _ := by simp [State.istoreByte]

/-- Raising a fatal condition has the condition's full effect and no other. -/
theorem State.fatalEffect_raiseFatal (s : State) (c : FatalCause) (v : Word) : FatalEffect s (s.raiseFatal c v) c v where
  status := s.raiseFatal_status c v
  out := s.raiseFatal_out c v
  pc := s.raiseFatal_pc c v
  regs := s.readReg_raiseFatal c v
  memory := s.keepsMemory_raiseFatal c v
  banks := ⟨s.raiseFatal_tags c v, s.raiseFatal_nextId c v⟩
  input := ⟨s.raiseFatal_inputPos c v, s.raiseFatal_reads c v⟩

theorem jumpAndLink_fatalEffect {rd : RegIdx} {u : Word} {s : State} (h : 1020 < u32 u) :
    ∃ t, jumpAndLink rd u s = .next t ∧ FatalEffect s t .illegalOperation u :=
  ⟨_, jumpAndLink_of_not_inWindow (Nat.not_le.2 h), s.fatalEffect_raiseFatal .illegalOperation u⟩

/-- Settles O22, by what the shared operations do at rd = 0: the two ALU forms, lui and the loads only advance the pc,
while a jump keeps its window check and loses only its link. -/
theorem rdZeroSkipsAllButTheJumps : Obligations.RdZeroSkipsAllButTheJumps := by
  refine fun rs1 rs2 imm imm20 off s => ⟨?_, ?_⟩
  · simp only [List.forall_mem_cons, exec, execAdd, execSub, execXor, execOr, execAnd, execSll, sllWith, execSrl, srlWith,
      execSra, sraWith, execSlt, execSltu, execAddi, execXori, execOri, execAndi, execSlti, execSltiu, execLb, lbWith,
      execLbu, lbuWith, execLh, lhWith, execLw, lwWith, execLui]
    exact ⟨aluReg_zero, aluReg_zero, aluReg_zero, aluReg_zero, aluReg_zero, aluReg_zero, aluReg_zero, aluReg_zero,
      aluReg_zero, aluReg_zero, aluImm_zero, aluImm_zero, aluImm_zero, aluImm_zero, aluImm_zero, aluImm_zero,
      load_zero, load_zero, load_zero, load_zero, writeResult_zero, nofun⟩
  · simp only [List.forall_mem_cons]
    exact ⟨⟨jumpAndLink_zero_of_inWindow, jumpAndLink_fatalEffect⟩,
      ⟨jumpAndLink_zero_of_inWindow, jumpAndLink_fatalEffect⟩, nofun⟩

end Sys2Proof.Machine

namespace Sys2Proof.Machine

-- ## UnimplementedInstruction (rule R301)

theorem fetch_of_decode_none {s : State} (hpc : u32 s.pc < 1024) (hmod : u32 s.pc % 4 = 0)
    (hd : decode (s.fetch32 (u32 s.pc)) = none) : s.fetch = .unimplemented (s.fetch32 (u32 s.pc)) := by
  rw [State.fetch, State.fetchBy, if_neg (Nat.not_le.2 hpc), if_neg (not_not.2 hmod), hd]

theorem step_of_fetch_unimplemented {s : State} {w : Word} (hs : s.status = .running)
    (hf : s.fetch = .unimplemented w) : step s = .next (s.raiseFatal .unimplementedInstruction w) := by
  rw [State.fetch] at hf
  simp only [step, stepBy, hs, runningBy, hf, raiseUnimplemented]

/-- An instruction leaves the run status as it was, or ends the run by the halt port or by IllegalOperation. -/
theorem InstrEffect.status {s t : State} (h : InstrEffect s t) :
    t.status = s.status ∨ t.status = .halted ∨ ∃ a, t.status = .fatal .illegalOperation a s.pc := by
  cases h with
  | fatal a => exact .inr (.inr ⟨a, s.raiseFatal_status .illegalOperation a⟩)
  | halt => exact .inr (.inl s.halt_status)
  | _ => exact .inl (by simp)

/-- Settles O9: an undecodable word is fetched as such and the step raises the condition; an executed instruction has no
other fatal status to give than IllegalOperation, so this one was there before. -/
theorem unimplementedInstructionIsRaisedByDispatchAlone : Obligations.UnimplementedInstructionIsRaisedByDispatchAlone := by
  constructor
  · intro s hs hpc hmod hd
    exact ⟨_, step_of_fetch_unimplemented hs (fetch_of_decode_none hpc hmod hd),
      s.fatalEffect_raiseFatal .unimplementedInstruction _⟩
  · intro i s t w a hexec ht
    obtain hkeep | hhalt | ⟨v, hillegal⟩ := (exec_effect hexec).status
    · exact hkeep ▸ ht
    · rw [ht] at hhalt
      cases hhalt
    · rw [ht] at hillegal
      cases hillegal

end Sys2Proof.Machine

namespace Sys2Proof

-- ## The class an opcode selects (rule R126)

section Dispatch
variable {m : OpcodeMap} {f : Fields}

theorem dispatch_opcR (h : f.opcode = m.opcR) : dispatch m f = dispatchR m f := if_pos h

theorem dispatch_opcI (hm : m.wf) (h : f.opcode = m.opcI) : dispatch m f = dispatchI m f := by
  simp only [OpcodeMap.wf, List.nodup_cons, List.mem_cons, not_or] at hm
  simp [dispatch, h, hm, eq_comm]

theorem dispatch_opcLoad (hm : m.wf) (h : f.opcode = m.opcLoad) : dispatch m f = dispatchLoad m f := by
  simp only [OpcodeMap.wf, List.nodup_cons, List.mem_cons, not_or] at hm
  simp [dispatch, h, hm, eq_comm]

theorem dispatch_opcJalr (hm : m.wf) (h : f.opcode = m.opcJalr) : dispatch m f = dispatchJalr m f := by
  simp only [OpcodeMap.wf, List.nodup_cons, List.mem_cons, not_or] at hm
  simp [dispatch, h, hm, eq_comm]

theorem dispatch_opcS (hm : m.wf) (h : f.opcode = m.opcS) : dispatch m f = dispatchS m f := by
  simp only [OpcodeMap.wf, List.nodup_cons, List.mem_cons, not_or] at hm
  simp [dispatch, h, hm, eq_comm]

theorem dispatch_opcSB (hm : m.wf) (h : f.opcode = m.opcSB) : dispatch m f = dispatchSB m f := by
  simp only [OpcodeMap.wf, List.nodup_cons, List.mem_cons, not_or] at hm
  simp [dispatch, h, hm, eq_comm]

theorem dispatch_opcU (hm : m.wf) (h : f.opcode = m.opcU) : dispatch m f = some (.lui f.rd f.immU) := by
  simp only [OpcodeMap.wf, List.nodup_cons, List.mem_cons, not_or] at hm
  simp [dispatch, h, hm, eq_comm]

theorem dispatch_opcUJ (hm : m.wf) (h : f.opcode = m.opcUJ) : dispatch m f = some (.jal f.rd f.immUJ) := by
  simp only [OpcodeMap.wf, List.nodup_cons, List.mem_cons, not_or] at hm
  simp [dispatch, h, hm, eq_comm]

end Dispatch

/-- Settles O60: the opcode of a format's word selects its class, func3 and func7 the instruction, since a map without a clash
gives no earlier row the same numbers, and the fields of the word are the operands. -/
theorem everyOpcodeMapDecodesWhatItEncodes : Obligations.EveryOpcodeMapDecodesWhatItEncodes := by
  intro m i hm hi
  obtain ⟨-, hR, hI, hL, hS, hB⟩ := id hm
  simp only [List.nodup_cons, List.mem_cons, not_or] at hR hI hL hS hB
  cases i
  case add | sub | xor | or | and | sll | srl | sra | slt | sltu =>
    simp [decodeWith, encodeWith, fieldsOf, dispatch_opcR, dispatchR, Fields.rKey, hR, eq_comm]
  case addi | xori | ori | andi | slti | sltiu =>
    simp [decodeWith, encodeWith, fieldsOf, dispatch_opcI hm, dispatchI, hI, eq_comm]
  case lb | lbu | lh | lw =>
    simp [decodeWith, encodeWith, fieldsOf, dispatch_opcLoad hm, dispatchLoad, hL, eq_comm]
  case jalr => simp [decodeWith, encodeWith, fieldsOf, dispatch_opcJalr hm, dispatchJalr]
  case sb | sh | sw =>
    simp [decodeWith, encodeWith, fieldsOf, dispatch_opcS hm, dispatchS, hS, eq_comm]
  case beq | bne | blt | bge | bltu | bgeu =>
    simp [decodeWith, encodeWith, fieldsOf, dispatch_opcSB hm, dispatchSB, hB, eq_comm, immSBOf_encSB _ _ _ _ _ hi]
  case lui => simp [decodeWith, encodeWith, fieldsOf, dispatch_opcU hm]
  case jal => simp [decodeWith, encodeWith, fieldsOf, dispatch_opcUJ hm, immUJOf_encUJ _ _ _ hi]

theorem opcodeMap_wf : opcodeMap.wf := by decide

/-- Settles O1: the map in force has no clash. -/
theorem encodedInstructionDecodesBack : Obligations.EncodedInstructionDecodesBack :=
  fun i hi => everyOpcodeMapDecodesWhatItEncodes opcodeMap i opcodeMap_wf hi

-- ## Encoding a decoding: the fields a format reads are all of the word (rules R116 and R123)

theorem encR_fields (w : Word) :
    encR (opcodeOf w) (rdOf w) (func3Of w) (rs1Of w) (rs2Of w) (func7Of w) = w := by
  ext i hi
  interval_cases i <;> simp [encR, opcodeOf, rdOf, func3Of, rs1Of, rs2Of, func7Of]

theorem encI_fields (w : Word) : encI (opcodeOf w) (rdOf w) (func3Of w) (rs1Of w) (immIOf w) = w := by
  ext i hi
  interval_cases i <;> simp [encI, opcodeOf, rdOf, func3Of, rs1Of, immIOf]

theorem encS_fields (w : Word) : encS (opcodeOf w) (func3Of w) (rs1Of w) (rs2Of w) (immSOf w) = w := by
  ext i hi
  interval_cases i <;> simp [encS, opcodeOf, func3Of, rs1Of, rs2Of, immSOf]

theorem encSB_fields (w : Word) : encSB (opcodeOf w) (func3Of w) (rs1Of w) (rs2Of w) (immSBOf w) = w := by
  ext i hi
  interval_cases i <;> simp [encSB, opcodeOf, func3Of, rs1Of, rs2Of, immSBOf]

theorem encU_fields (w : Word) : encU (opcodeOf w) (rdOf w) (immUOf w) = w := by
  ext i hi
  interval_cases i <;> simp [encU, opcodeOf, rdOf, immUOf]

theorem encUJ_fields (w : Word) : encUJ (opcodeOf w) (rdOf w) (immUJOf .present w) = w := by
  ext i hi
  interval_cases i <;> simp [encUJ, opcodeOf, rdOf, immUJOf, immUJMid]

theorem evenBranchOffset_immSBOf (w : Word) : evenBranchOffset (immSBOf w) = true := by
  simp [evenBranchOffset, immSBOf]

theorem evenJumpOffset_immUJOf (u : UjMidBits) (w : Word) : evenJumpOffset (immUJOf u w) = true := by
  simp [evenJumpOffset, immUJOf]

section
variable {m : OpcodeMap} {f : Fields} {i : Instr}

/-- The word of an instruction of class R that was selected by the fields `f`: those fields. -/
theorem encodeWith_of_dispatchR (h : dispatchR m f = some i) :
    i.wellFormed = true ∧ encodeWith m i = encR m.opcR f.rd f.func3 f.rs1 f.rs2 f.func7 := by
  have key : ∀ k : RKey, f.rKey = k → k.func3 = f.func3 ∧ k.func7 = f.func7 := by rintro _ rfl; exact ⟨rfl, rfl⟩
  unfold dispatchR at h
  split_ifs at h with hk hk hk hk hk hk hk hk hk hk <;> cases h <;> simp [Instr.wellFormed, encodeWith, key _ hk]

theorem encodeWith_of_dispatchI (h : dispatchI m f = some i) :
    i.wellFormed = true ∧ encodeWith m i = encI m.opcI f.rd f.func3 f.rs1 f.immI := by
  unfold dispatchI at h
  split_ifs at h with hk hk hk hk hk hk <;> cases h <;> exact ⟨rfl, by rw [encodeWith, hk]⟩

theorem encodeWith_of_dispatchLoad (h : dispatchLoad m f = some i) :
    i.wellFormed = true ∧ encodeWith m i = encI m.opcLoad f.rd f.func3 f.rs1 f.immI := by
  unfold dispatchLoad at h
  split_ifs at h with hk hk hk hk <;> cases h <;> exact ⟨rfl, by rw [encodeWith, hk]⟩

theorem encodeWith_of_dispatchJalr (h : dispatchJalr m f = some i) :
    i.wellFormed = true ∧ encodeWith m i = encI m.opcJalr f.rd f.func3 f.rs1 f.immI := by
  unfold dispatchJalr at h
  split_ifs at h with hk
  cases h
  exact ⟨rfl, by rw [encodeWith, hk]⟩

theorem encodeWith_of_dispatchS (h : dispatchS m f = some i) :
    i.wellFormed = true ∧ encodeWith m i = encS m.opcS f.func3 f.rs1 f.rs2 f.immS := by
  unfold dispatchS at h
  split_ifs at h with hk hk hk <;> cases h <;> exact ⟨rfl, by rw [encodeWith, hk]⟩

theorem encodeWith_of_dispatchSB (h : dispatchSB m f = some i) :
    i.wellFormed = evenBranchOffset f.immSB ∧ encodeWith m i = encSB m.opcSB f.func3 f.rs1 f.rs2 f.immSB := by
  unfold dispatchSB at h
  split_ifs at h with hk hk hk hk hk hk <;> cases h <;> exact ⟨rfl, by rw [encodeWith, hk]⟩

end

/-- Under any OPCODE_MAP, with or without a clash, a word that decodes is the encoding of what it decodes to. -/
theorem encodeWith_of_decodeWith {m : OpcodeMap} {w : Word} {i : Instr} (h : decodeWith m .present w = some i) :
    i.wellFormed = true ∧ encodeWith m i = w := by
  unfold decodeWith dispatch at h
  split_ifs at h with ho ho ho ho ho ho ho ho
  · exact encodeWith_of_dispatchR h |>.imp_right fun he => by rw [he, ← ho]; exact encR_fields w
  · exact encodeWith_of_dispatchI h |>.imp_right fun he => by rw [he, ← ho]; exact encI_fields w
  · exact encodeWith_of_dispatchLoad h |>.imp_right fun he => by rw [he, ← ho]; exact encI_fields w
  · exact encodeWith_of_dispatchJalr h |>.imp_right fun he => by rw [he, ← ho]; exact encI_fields w
  · exact encodeWith_of_dispatchS h |>.imp_right fun he => by rw [he, ← ho]; exact encS_fields w
  · obtain ⟨hwf, he⟩ := encodeWith_of_dispatchSB h
    exact ⟨hwf.trans (evenBranchOffset_immSBOf w), by rw [he, ← ho]; exact encSB_fields w⟩
  · cases h
    exact ⟨rfl, by rw [encodeWith, ← ho]; exact encU_fields w⟩
  · cases h
    exact ⟨evenJumpOffset_immUJOf .present w, by rw [encodeWith, ← ho]; exact encUJ_fields w⟩

/-- Settles O2: every format reads all 32 bits of the word, and the class of the decoder is the format of the encoder. -/
theorem decodedWordEncodesBack : Obligations.DecodedWordEncodesBack :=
  fun _ _ h => encodeWith_of_decodeWith h

-- ## The opcode table (rules R126 to R131)

theorem encodesRow : ∀ i : Instr, Laws.EncodesRow.Statement i
  | .add .. => Laws.EncodesRow.add ..
  | .sub .. => Laws.EncodesRow.sub ..
  | .xor .. => Laws.EncodesRow.xor ..
  | .or .. => Laws.EncodesRow.or ..
  | .and .. => Laws.EncodesRow.and ..
  | .sll .. => Laws.EncodesRow.sll ..
  | .srl .. => Laws.EncodesRow.srl ..
  | .sra .. => Laws.EncodesRow.sra ..
  | .slt .. => Laws.EncodesRow.slt ..
  | .sltu .. => Laws.EncodesRow.sltu ..
  | .addi .. => Laws.EncodesRow.addi ..
  | .xori .. => Laws.EncodesRow.xori ..
  | .ori .. => Laws.EncodesRow.ori ..
  | .andi .. => Laws.EncodesRow.andi ..
  | .slti .. => Laws.EncodesRow.slti ..
  | .sltiu .. => Laws.EncodesRow.sltiu ..
  | .lb .. => Laws.EncodesRow.lb ..
  | .lbu .. => Laws.EncodesRow.lbu ..
  | .lh .. => Laws.EncodesRow.lh ..
  | .lw .. => Laws.EncodesRow.lw ..
  | .jalr .. => Laws.EncodesRow.jalr ..
  | .sb .. => Laws.EncodesRow.sb ..
  | .sh .. => Laws.EncodesRow.sh ..
  | .sw .. => Laws.EncodesRow.sw ..
  | .beq .. => Laws.EncodesRow.beq ..
  | .bne .. => Laws.EncodesRow.bne ..
  | .blt .. => Laws.EncodesRow.blt ..
  | .bge .. => Laws.EncodesRow.bge ..
  | .bltu .. => Laws.EncodesRow.bltu ..
  | .bgeu .. => Laws.EncodesRow.bgeu ..
  | .lui .. => Laws.EncodesRow.lui ..
  | .jal .. => Laws.EncodesRow.jal ..

/-- A word that decodes is of the row of its own mnemonic. -/
theorem matches_of_decode {w : Word} {i : Instr} (h : decode w = some i) :
    ∃ r ∈ opcodeTable, r.mnemonic = mnemonicOf i ∧ r.matches w := by
  obtain ⟨r, hr, hn, hmatch⟩ := encodesRow i
  exact ⟨r, hr, hn, (decodedWordEncodesBack w i h).2 ▸ hmatch⟩

/-- The mask keeps the fields that dispatch the class of the row's value. -/
abbrev OpcodeRow.KeepsDispatchFields (r : OpcodeRow) : Prop :=
  opcodeOf r.mask = BitVec.allOnes 7 ∧
    (func3Of r.mask = BitVec.allOnes 3 ∨ opcodeOf r.value = opcodeMap.opcU ∨ opcodeOf r.value = opcodeMap.opcUJ) ∧
    (func7Of r.mask = BitVec.allOnes 7 ∨ opcodeOf r.value ≠ opcodeMap.opcR)

/-- A field that the mask keeps is the same in a word and in the masked word. -/
theorem extractLsb'_and_of_allOnes {w v : Word} {k n : Nat} (h : v.extractLsb' k n = BitVec.allOnes n) :
    (w &&& v).extractLsb' k n = w.extractLsb' k n := by
  rw [BitVec.extractLsb'_and, h, BitVec.and_allOnes]

theorem mnemonic_dispatchR_congr {m : OpcodeMap} {f g : Fields} (h : f.rKey = g.rKey) :
    (dispatchR m f).map mnemonicOf = (dispatchR m g).map mnemonicOf := by
  simp only [dispatchR, h, apply_ite (Option.map mnemonicOf), Option.map_some, mnemonicOf]

/-- Two words of one opcode that agree in the other numbers which dispatch its class decode to one mnemonic. -/
theorem mnemonic_dispatch_congr {m : OpcodeMap} {f g : Fields} (hm : m.wf) (ho : f.opcode = g.opcode)
    (h3 : f.func3 = g.func3 ∨ g.opcode = m.opcU ∨ g.opcode = m.opcUJ)
    (h7 : f.func7 = g.func7 ∨ g.opcode ≠ m.opcR) :
    (dispatch m f).map mnemonicOf = (dispatch m g).map mnemonicOf := by
  obtain h3 | hU | hUJ := h3
  · by_cases hR : g.opcode = m.opcR
    · have hkey : f.rKey = g.rKey := by simp only [Fields.rKey, h3, h7.resolve_right (not_not.2 hR)]
      rw [dispatch_opcR hR, dispatch_opcR (ho.trans hR), mnemonic_dispatchR_congr hkey]
    · simp only [dispatch, ho, hR, if_false, dispatchI, dispatchLoad, dispatchJalr, dispatchS, dispatchSB, h3,
        apply_ite (Option.map mnemonicOf), Option.map_some, mnemonicOf]
  · rw [dispatch_opcU hm hU, dispatch_opcU hm (ho.trans hU)]
    rfl
  · rw [dispatch_opcUJ hm hUJ, dispatch_opcUJ hm (ho.trans hUJ)]
    rfl

theorem opcodeTable_keepsDispatchFields : ∀ r ∈ opcodeTable, r.KeepsDispatchFields := by decide

theorem mnemonic_decode_value : ∀ r ∈ opcodeTable, (decode r.value).map mnemonicOf = some r.mnemonic := by decide

theorem opcodeTable_mnemonic_inj : ∀ r ∈ opcodeTable, ∀ q ∈ opcodeTable, r.mnemonic = q.mnemonic → r = q := by decide

/-- A word of a row decodes to the mnemonic of the row's value, since the mask keeps every field that dispatches it. -/
theorem mnemonic_of_matches {r : OpcodeRow} {w : Word} (hr : r ∈ opcodeTable) (hw : r.matches w) :
    (decode w).map mnemonicOf = some r.mnemonic := by
  obtain ⟨ho, h3, h7⟩ := opcodeTable_keepsDispatchFields r hr
  rw [← mnemonic_decode_value r hr, ← hw]
  rw [← hw] at h3 h7
  refine mnemonic_dispatch_congr opcodeMap_wf (extractLsb'_and_of_allOnes ho).symm ?_ ?_
  · exact h3.imp_left fun h => (extractLsb'_and_of_allOnes h).symm
  · exact h7.imp_left fun h => (extractLsb'_and_of_allOnes h).symm

/-- Settles O5: a row's mask keeps what dispatches the row's value; and a word that decodes is the encoding of its instruction,
which is of the row of that mnemonic, the only one. -/
theorem decoderAgreesWithTheOpcodeTable : Obligations.DecoderAgreesWithTheOpcodeTable := by
  refine fun w => ⟨fun r hr => ⟨mnemonic_of_matches hr, fun hd => ?_⟩, fun hnone => ?_⟩
  · obtain ⟨i, hi, hn⟩ := Option.map_eq_some_iff.1 hd
    obtain ⟨q, hq, hqn, hqw⟩ := matches_of_decode hi
    exact opcodeTable_mnemonic_inj q hq r hr (hqn.trans hn) ▸ hqw
  · refine Option.eq_none_iff_forall_ne_some.2 fun i hi => ?_
    obtain ⟨q, hq, -, hqw⟩ := matches_of_decode hi
    exact hnone q hq hqw

/-- Settles O6, by running the decoder. -/
theorem vectorWordsDecode : Obligations.VectorWordsDecode := by
  unfold Obligations.VectorWordsDecode
  decide

end Sys2Proof

namespace Sys2Proof.Machine
-- ## The source's byte formulas (rules R10 and R115 to R122)

theorem or_shiftLeft_eq_add {a b i : Nat} (h : a < 2 ^ i) : a ||| b <<< i = a + b * 2 ^ i := by
  rw [Nat.or_comm, ← Nat.shiftLeft_add_eq_or_of_lt h, Nat.shiftLeft_eq, Nat.add_comm]

theorem toNat_wordOfBytes (b0 b1 b2 b3 : Byte) :
    (wordOfBytes b0 b1 b2 b3).toNat = b0.toNat + 256 * b1.toNat + 65536 * b2.toNat + 16777216 * b3.toNat := by
  have toNat_shifted {b : Byte} {k : Nat} (hk : k ≤ 24) : (b.setWidth 32 <<< k).toNat = b.toNat <<< k := by
    have hb : b.toNat * 2 ^ k < 2 ^ 8 * 2 ^ 24 :=
      Nat.mul_lt_mul_of_lt_of_le b.isLt (Nat.pow_le_pow_right (by decide) hk) (by decide)
    rw [BitVec.toNat_shiftLeft, BitVec.toNat_setWidth_of_le (by decide), Nat.shiftLeft_eq]
    exact Nat.mod_eq_of_lt hb
  have h0 := b0.isLt
  have h1 := b1.isLt
  have h2 := b2.isLt
  rw [wordOfBytes, BitVec.toNat_or, BitVec.toNat_or, BitVec.toNat_or, BitVec.toNat_setWidth_of_le (by decide),
    toNat_shifted (by decide), toNat_shifted (by decide), toNat_shifted (by decide), or_shiftLeft_eq_add (i := 8) (by omega),
    or_shiftLeft_eq_add (i := 16) (by omega), or_shiftLeft_eq_add (i := 24) (by omega)]
  omega

/-- Settles O3: in numbers, a mask of low bits is a remainder and an OR of bits that do not overlap a sum, so that both sides are
linear in the four bytes. -/
theorem fieldsFollowTheByteFormulas : Obligations.FieldsFollowTheByteFormulas := by
  intro b0 b1 b2 b3
  have h0 := b0.isLt
  have h1 := b1.isLt
  have h2 := b2.isLt
  have h3 := b3.isLt
  have mask7 (x : Nat) : x &&& 0x7F = x % 128 := Nat.and_two_pow_sub_one_eq_mod x 7
  have mask4 (x : Nat) : x &&& 0x0F = x % 16 := Nat.and_two_pow_sub_one_eq_mod x 4
  have mask1 (x : Nat) : x &&& 0x01 = x % 2 := Nat.and_two_pow_sub_one_eq_mod x 1
  have mask3 (x : Nat) : (x &&& 0x70) >>> 4 = x >>> 4 % 8 :=
    (Nat.shiftRight_and_distrib ..).trans (Nat.and_two_pow_sub_one_eq_mod _ 3)
  refine ⟨toNat_wordOfBytes b0 b1 b2 b3, ?_⟩
  simp only [opcodeOf, rdOf, func3Of, rs1Of, rs2Of, func7Of, BitVec.extractLsb'_toNat, toNat_wordOfBytes, mask7, mask4,
    mask1, mask3]
  rw [← Nat.shiftLeft_add_eq_or_of_lt (show b0.toNat >>> 7 < 2 ^ 1 by omega),
    ← Nat.shiftLeft_add_eq_or_of_lt (show b1.toNat >>> 7 < 2 ^ 1 by omega),
    or_shiftLeft_eq_add (show b2.toNat >>> 4 < 2 ^ 4 by omega)]
  omega

/-- Sign extension from bit `n` is OR-ing ones above it (rules R118 to R122), where `t` is the unextended value. -/
theorem signExtend_eq_or {n : Nat} {x : BitVec (n + 1)} {t : Word} (hn : n < 32) (ht : x.setWidth 32 = t) :
    x.signExtend 32 = if t.getLsbD n then t ||| BitVec.allOnes 32 <<< (n + 1) else t := by
  subst ht
  have hmsb : x.msb = (x.setWidth 32).getLsbD n := by simp [BitVec.msb_eq_getLsbD_last, hn]
  rw [← hmsb]
  ext i hi
  by_cases hin : i < n + 1
  · cases x.msb <;> simp [BitVec.getElem_signExtend, hin]
  · cases hx : x.msb <;> simp [BitVec.getElem_signExtend, hin, hx, not_lt.1, -BitVec.reduceAllOnes]

theorem setWidth_immUJMid (c0 c1 c2 c3 : Byte) (m : UjMidBits) :
    ((immUJMid m (wordOfBytes c0 c1 c2 c3)).setWidth 21 <<< 4).setWidth 32 =
      if m = .present then (c3.setWidth 32 &&& 0x7F#32) <<< 4 else 0#32 := by
  cases m
  · ext i hi
    interval_cases i <;> simp [immUJMid, wordOfBytes]
  · rfl

theorem setWidth_immUJOf_absent (c0 c1 c2 c3 : Byte) :
    (immUJOf .absent (wordOfBytes c0 c1 c2 c3)).setWidth 32 =
      ((c3.setWidth 32 >>> 7) <<< 20) ||| ((c1.setWidth 32 >>> 4) <<< 12) |||
        ((c2.setWidth 32 &&& 0x0F#32) <<< 16) ||| (((c2.setWidth 32 >>> 4) &&& 1#32) <<< 11) |||
        ((c2.setWidth 32 >>> 5) <<< 1) := by
  ext i hi
  interval_cases i <;> simp [immUJOf, immUJMid, wordOfBytes]

/-- The middle bits of immUJ are the only ones that its reading decides (rule R122). -/
theorem immUJOf_eq_absent_or (m : UjMidBits) (w : Word) :
    immUJOf m w = immUJOf .absent w ||| (immUJMid m w).setWidth 21 <<< 4 := by
  rw [immUJOf, immUJOf, show immUJMid .absent w = 0#7 from rfl, BitVec.setWidth_zero, BitVec.zero_shiftLeft, BitVec.or_zero]

/-- Settles O4: the unextended values agree bit by bit, and the extension is one law for the four signed immediates. -/
theorem immediatesFollowTheByteFormulas : Obligations.ImmediatesFollowTheByteFormulas := by
  intro c0 c1 c2 c3 m
  refine ⟨signExtend_eq_or (by decide) ?_, signExtend_eq_or (by decide) ?_, signExtend_eq_or (by decide) ?_, ?_,
    signExtend_eq_or (by decide) ?_⟩
  · ext i hi
    interval_cases i <;> simp [immIOf, wordOfBytes]
  · ext i hi
    interval_cases i <;> simp [immSOf, wordOfBytes]
  · ext i hi
    interval_cases i <;> simp [immSBOf, wordOfBytes]
  · ext i hi
    interval_cases i <;> simp [immWordU, immUOf, wordOfBytes]
  · rw [immUJOf_eq_absent_or, BitVec.setWidth_or, setWidth_immUJOf_absent, setWidth_immUJMid]
end Sys2Proof.Machine

namespace Sys2Proof.Machine

-- ## A result in a register (rules R150, R170 and R260)

theorem State.registerEffect_retire (s : State) (rd : RegIdx) (v : Word) : RegisterEffect s (s.retire rd v) rd v where
  regs := s.setsReg_retire rd v
  pc := s.retire_pc rd v
  memory := s.keepsMemory_retire rd v
  banks := ⟨s.retire_tags rd v, s.retire_nextId rd v⟩
  input := s.keepsInput_retire rd v
  output := s.keepsOutput_retire rd v

theorem writeResult_registerEffect {rd : RegIdx} {v w : Word} {s : State} (h : v = w) :
    ∃ t, writeResult rd v s = .next t ∧ RegisterEffect s t rd w :=
  ⟨_, writeResult_eq rd v s, h ▸ s.registerEffect_retire rd v⟩

theorem aluReg_registerEffect {op : Word → Word → Word} {rd rs1 rs2 : RegIdx} {s : State} {v : Word}
    (h : op (s.readReg rs1) (s.readReg rs2) = v) : ∃ t, aluReg op rd rs1 rs2 s = .next t ∧ RegisterEffect s t rd v :=
  writeResult_registerEffect h

theorem aluImm_registerEffect {op : Word → Word → Word} {rd rs1 : RegIdx} {imm : BitVec 12} {s : State} {v : Word}
    (h : op (s.readReg rs1) (immWord12 imm) = v) : ∃ t, aluImm op rd rs1 imm s = .next t ∧ RegisterEffect s t rd v :=
  writeResult_registerEffect h

/-- A number read unsigned and made a word again is the word. -/
theorem ofInt_toNat (a : Word) : BitVec.ofInt 32 (a.toNat : Int) = a := by
  rw [BitVec.ofInt_natCast, BitVec.ofNat_toNat, BitVec.setWidth_eq]

/-- Adding a sign-extended number is adding its value, modulo 2^32. -/
theorem add_signExtend {n : Nat} (a : Word) (x : BitVec n) :
    a + x.signExtend 32 = BitVec.ofInt 32 ((u32 a : Int) + x.toInt) := by
  rw [BitVec.ofInt_add, ofInt_toNat, BitVec.signExtend]

theorem sub_eq_ofInt (a b : Word) : a - b = BitVec.ofInt 32 ((u32 a : Int) - u32 b) := by
  rw [sub_eq_iff_eq_add, ← ofInt_toNat b, ← BitVec.ofInt_add, ofInt_toNat b, sub_add_cancel, ofInt_toNat]

theorem shiftLeft_eq_ofNat (a : Word) (n : Nat) : a <<< n = BitVec.ofNat 32 (u32 a * 2 ^ n) := by
  refine BitVec.eq_of_toNat_eq ?_
  rw [BitVec.toNat_shiftLeft, Nat.shiftLeft_eq, BitVec.toNat_ofNat]

theorem ushiftRight_eq_ofNat (a : Word) (n : Nat) : a >>> n = BitVec.ofNat 32 (u32 a / 2 ^ n) := by
  refine BitVec.eq_of_toNat_eq ?_
  rw [BitVec.toNat_ushiftRight, Nat.shiftRight_eq_div_pow, BitVec.toNat_ofNat,
    Nat.mod_eq_of_lt (Nat.lt_of_le_of_lt (Nat.div_le_self ..) a.isLt)]

/-- Settles O13: both are one register operation, and the 32-bit sum and difference are those of the numbers modulo 2^32. -/
theorem addAndSubWrapModulo32Bits : Obligations.AddAndSubWrapModulo32Bits := by
  refine fun rd rs1 rs2 s => ⟨aluReg_registerEffect ?_, aluReg_registerEffect (sub_eq_ofInt _ _)⟩
  rw [BitVec.ofNat_add, BitVec.ofNat_toNat, BitVec.ofNat_toNat, BitVec.setWidth_eq, BitVec.setWidth_eq]

/-- Settles O14: the three are one register operation, and its value is read bit by bit. -/
theorem xorOrAndAreBitwise : Obligations.XorOrAndAreBitwise :=
  fun rd rs1 rs2 s =>
    ⟨⟨_, _, aluReg_eq _ rd rs1 rs2 s, s.registerEffect_retire rd _, fun _ => BitVec.getLsbD_xor⟩,
      ⟨_, _, aluReg_eq _ rd rs1 rs2 s, s.registerEffect_retire rd _, fun _ => BitVec.getLsbD_or⟩,
      ⟨_, _, aluReg_eq _ rd rs1 rs2 s, s.registerEffect_retire rd _, fun _ => BitVec.getLsbD_and⟩⟩

/-- Settles O15: up to 31 the two shifts are a product and a quotient; the open value stands on both sides. -/
theorem logicalShiftsUseTheWholeAmount : Obligations.LogicalShiftsUseTheWholeAmount := by
  refine fun rd rs1 rs2 s => ⟨aluReg_registerEffect ?_, aluReg_registerEffect ?_⟩
  · rw [shiftLeftLogical, shiftLeft_eq_ofNat]
    rfl
  · rw [shiftRightLogical, ushiftRight_eq_ofNat]
    rfl

/-- Settles O16: an arithmetic shift is the floor of a division by a power of two. -/
theorem sraSaturatesAtTheSign : Obligations.SraSaturatesAtTheSign := by
  refine fun rd rs1 rs2 s => aluReg_registerEffect ?_
  rw [params_sraReinsert, shiftRightArith, BitVec.sshiftRight_eq, Int.shiftRight_eq_div_pow]
  norm_cast

-- ## The loop of sra (rule R159)

/-- A pass shifts every bit down by one and puts `b` at the top. -/
theorem getElem_shiftInTop (v : Word) (b : Bool) {i : Nat} (hi : i < 32) :
    ((v >>> 1) ||| (if b then 0x80000000#32 else 0#32))[i] = if i = 31 then b else v.getLsbD (1 + i) := by
  cases b <;> interval_cases i <;> simp

theorem sraPass_sign (v : Word) : sraPass .sign v = v.sshiftRight 1 := by
  ext i hi
  rw [sraPass, getElem_shiftInTop, BitVec.getElem_sshiftRight]
  by_cases h : i = 31
  · simp [h, BitVec.msb_eq_getLsbD_last]
  · have hlt : 1 + i < 32 := by omega
    simp [h, hlt]

theorem getElem_rotateRight_eq (v : Word) (n : Nat) {i : Nat} (hi : i < 32) :
    (v.rotateRight n)[i] = v.getLsbD ((n + i) % 32) := by
  rw [BitVec.getElem_rotateRight]
  split
  · rw [← BitVec.getLsbD_eq_getElem]
    congr 1
    omega
  · rw [← BitVec.getLsbD_eq_getElem]
    congr 1
    omega

theorem sraPass_low (v : Word) : sraPass .low v = v.rotateRight 1 := by
  ext i hi
  rw [sraPass, getElem_shiftInTop, getElem_rotateRight_eq]
  split
  · subst i
    rfl
  · rw [Nat.mod_eq_of_lt (by omega)]

theorem rotateRight_rotateRight (v : Word) (m n : Nat) : (v.rotateRight m).rotateRight n = v.rotateRight (m + n) := by
  ext i hi
  rw [getElem_rotateRight_eq, getElem_rotateRight_eq, BitVec.getLsbD_eq_getElem (Nat.mod_lt _ (by decide)),
    getElem_rotateRight_eq]
  congr 1
  omega

theorem sraLoop_sign : ∀ (n : Nat) (v : Word), sraLoop .sign n v = v.sshiftRight n
  | 0, v => BitVec.sshiftRight_zero.symm
  | n + 1, v => by rw [sraLoop, sraPass_sign, sraLoop_sign n, ← BitVec.sshiftRight_add, Nat.add_comm]

theorem sraLoop_low : ∀ (n : Nat) (v : Word), sraLoop .low n v = v.rotateRight n
  | 0, v => by ext i hi; rw [sraLoop, getElem_rotateRight_eq, Nat.zero_add, Nat.mod_eq_of_lt hi, BitVec.getLsbD_eq_getElem]
  | n + 1, v => by rw [sraLoop, sraPass_low, sraLoop_low n, rotateRight_rotateRight, Nat.add_comm]

/-- After 31 passes every bit is the sign. -/
theorem getElem_sshiftRight_of_le (v : Word) {n i : Nat} (hn : 31 ≤ n) (hi : i < 32) : (v.sshiftRight n)[i] = v.msb := by
  rw [BitVec.getElem_sshiftRight, BitVec.msb_eq_getLsbD_last]
  split
  · rw [← BitVec.getLsbD_eq_getElem]
    congr 1
    omega
  · rfl

theorem sshiftRight_min (v : Word) (n : Nat) : v.sshiftRight (min n 31) = v.sshiftRight n := by
  obtain h | h := Nat.le_total n 31
  · rw [min_eq_left h]
  · ext i hi
    rw [min_eq_right h, getElem_sshiftRight_of_le v le_rfl hi, getElem_sshiftRight_of_le v h hi]

/-- Settles O17: a pass is an arithmetic shift or a rotation by one, and `n` of them are one by `n`. -/
theorem sraClosedFormIsTheLoop : Obligations.SraClosedFormIsTheLoop
  | .sign, a, n => (sshiftRight_min a (u32 n)).trans (sraLoop_sign (u32 n) a).symm
  | .low, a, n => BitVec.rotateRight_mod_eq_rotateRight.trans (sraLoop_low (u32 n) a).symm

/-- Settles O18: the flag word is 1 or 0 by the comparison. -/
theorem sltAndSltuCompare : Obligations.SltAndSltuCompare := by
  refine fun rd rs1 rs2 s => ⟨aluReg_registerEffect (op := fun a b => flagWord (lessSigned a b)) ?_,
    aluReg_registerEffect (op := fun a b => flagWord (lessUnsigned a b)) ?_⟩
  · simp only [flagWord, lessSigned, decide_eq_true_iff]
  · simp only [flagWord, lessUnsigned, decide_eq_true_iff]

theorem getLsbD_immWord12 (imm : BitVec 12) {k : Nat} (hk : k < 32) :
    (immWord12 imm).getLsbD k = imm.getLsbD (min k 11) := by
  rw [immWord12, BitVec.getLsbD_signExtend, BitVec.msb_eq_getLsbD_last, decide_eq_true hk, Bool.true_and]
  split
  · rw [min_eq_left (by omega)]
  · rw [min_eq_right (by omega)]

theorem s32_immWord12 (imm : BitVec 12) : s32 (immWord12 imm) = imm.toInt :=
  BitVec.toInt_signExtend_of_le (by decide)

theorem u32_immWord12 (imm : BitVec 12) : (u32 (immWord12 imm) : Int) = imm.toInt % 4294967296 := by
  rw [immWord12, BitVec.signExtend, u32, BitVec.toNat_ofInt, Int.toNat_of_nonneg (Int.emod_nonneg _ (by decide))]
  rfl

/-- Settles O19: the extended immediate has the value of the 12-bit one, and bit 11 in every bit above it. -/
theorem immediateAluUsesTheExtendedImmediate : Obligations.ImmediateAluUsesTheExtendedImmediate :=
  fun rd rs1 imm s =>
    ⟨aluImm_registerEffect (add_signExtend _ imm),
      ⟨_, _, aluImm_eq _ rd rs1 imm s, s.registerEffect_retire rd _, fun k hk => by
        rw [BitVec.getLsbD_xor, getLsbD_immWord12 imm hk]⟩,
      ⟨_, _, aluImm_eq _ rd rs1 imm s, s.registerEffect_retire rd _, fun k hk => by
        rw [BitVec.getLsbD_or, getLsbD_immWord12 imm hk]⟩,
      ⟨_, _, aluImm_eq _ rd rs1 imm s, s.registerEffect_retire rd _, fun k hk => by
        rw [BitVec.getLsbD_and, getLsbD_immWord12 imm hk]⟩⟩

/-- Settles O20: the extended immediate has the signed value of the 12-bit one, and unsigned that value modulo 2^32. -/
theorem sltiAndSltiuCompareTheExtendedImmediate : Obligations.SltiAndSltiuCompareTheExtendedImmediate := by
  refine fun rd rs1 imm s => ⟨aluImm_registerEffect (op := fun a i => flagWord (lessSigned a i)) ?_,
    aluImm_registerEffect (op := fun a i => flagWord (lessUnsigned a i)) ?_⟩
  · simp only [flagWord, lessSigned, s32_immWord12, decide_eq_true_iff]
  · simp only [flagWord, lessUnsigned, ← u32_immWord12, Nat.cast_lt, decide_eq_true_iff]

/-- Settles O21: the shift by 12 is a product with 4096. -/
theorem luiPlacesTheTopTwentyBits : Obligations.LuiPlacesTheTopTwentyBits := by
  refine fun rd imm s => writeResult_registerEffect ?_
  rw [immWordU, shiftLeft_eq_ofNat, u32, BitVec.toNat_setWidth_of_le (by decide)]
  rfl

end Sys2Proof.Machine

namespace Sys2Proof.Machine

-- ## Jumps and branches (rules R210 to R270)

theorem keepsMemory_of_eq {s t : State} (hheap : t.heap = s.heap) (histore : t.istore = s.istore) : KeepsMemory s t :=
  ⟨State.heapByte_congr hheap, fun _ => by rw [State.istoreByte, histore, State.istoreByte]⟩

theorem effAddr_eq_ofInt (s : State) (rs1 : RegIdx) (imm : BitVec 12) :
    effAddr s rs1 imm = BitVec.ofInt 32 ((u32 (s.readReg rs1) : Int) + imm.toInt) := add_signExtend _ imm

theorem jalTarget_eq_ofInt (s : State) (off : BitVec 21) :
    jalTarget s off = BitVec.ofInt 32 ((u32 s.pc : Int) + off.toInt) := add_signExtend _ off

theorem branchTarget_eq_ofInt (s : State) (off : BitVec 13) :
    branchTarget s off = BitVec.ofInt 32 ((u32 s.pc : Int) + off.toInt) := add_signExtend _ off

theorem beqCheck_eq_ofInt (s : State) (off : BitVec 13) :
    beqCheck s off = BitVec.ofInt 32 ((u32 s.pc : Int) + 2 * off.toInt) := by
  have hdouble : immWordSB off <<< 1 = BitVec.ofInt 32 (2 * off.toInt) := by
    rw [BitVec.shiftLeft_eq_mul_twoPow, mul_comm, BitVec.ofInt_mul]
    rfl
  rw [beqCheck, hdouble, BitVec.ofInt_add, ofInt_toNat]

theorem State.jumpEffect_setPc (s : State) (rd : RegIdx) (u : Word) :
    JumpEffect s ((s.writeReg rd (s.pc + 4#32)).setPc u) rd u where
  regs r := by rw [State.readReg_setPc, State.readReg_writeReg]
  pc := rfl
  memory := keepsMemory_of_eq (by simp) (by simp)
  banks := ⟨by simp, by simp⟩
  input := ⟨by simp, by simp⟩
  output := ⟨by simp, by simp⟩

theorem State.flowEffect_setPc (s : State) (u : Word) : FlowEffect s (s.setPc u) u :=
  ⟨fun _ => rfl, rfl, keepsMemory_of_eq rfl rfl, ⟨rfl, rfl⟩, ⟨rfl, rfl⟩, ⟨rfl, rfl⟩⟩

theorem jumpAndLink_jumpEffect {rd : RegIdx} {u : Word} {s : State} (h : inWindow u) :
    ∃ t, jumpAndLink rd u s = .next t ∧ JumpEffect s t rd u :=
  ⟨_, jumpAndLink_of_inWindow h, s.jumpEffect_setPc rd u⟩

theorem branch_flowEffect {taken : Bool} {u c : Word} {s : State} (h : inWindow c) :
    ∃ t, branch params taken u c s = .next t ∧ FlowEffect s t (if taken = true then u else s.pc + 4#32) :=
  ⟨_, branch_of_inWindow h, s.flowEffect_setPc _⟩

theorem branch_fatalEffect {taken : Bool} {u c : Word} {s : State} (h : 1020 < u32 c) :
    ∃ t, branch params taken u c s = .next t ∧ FatalEffect s t .illegalOperation c :=
  ⟨_, branch_of_not_inWindow (Nat.not_le.2 h), s.fatalEffect_raiseFatal .illegalOperation c⟩

theorem branchOn_flowEffect {cond : Word → Word → Bool} {taken : Bool} {rs1 rs2 : RegIdx} {off : BitVec 13} {s : State}
    (h : inWindow (branchTarget s off)) (hc : cond (s.readReg rs1) (s.readReg rs2) = taken) :
    ∃ t, branchOn params cond rs1 rs2 off s = .next t ∧
      FlowEffect s t (if taken = true then branchTarget s off else s.pc + 4#32) :=
  hc ▸ branch_flowEffect h

theorem not_lessSigned (a b : Word) : (!lessSigned a b) = decide (s32 b ≤ s32 a) :=
  decide_not.symm.trans (decide_eq_decide.2 Int.not_lt)

theorem not_lessUnsigned (a b : Word) : (!lessUnsigned a b) = decide (u32 b ≤ u32 a) :=
  decide_not.symm.trans (decide_eq_decide.2 Nat.not_lt)

/-- Settles O25: jal and jalr are one operation, at the address that the sum modulo 2^32 gives. -/
theorem jumpsInTheWindowLinkAndGo : Obligations.JumpsInTheWindowLinkAndGo := by
  refine fun rd rs1 imm off s => ⟨?_, ?_⟩
  · rw [← jalTarget_eq_ofInt]
    exact jumpAndLink_jumpEffect
  · rw [← effAddr_eq_ofInt]
    exact jumpAndLink_jumpEffect

/-- Settles O26: the check comes before the link, so that nothing has been written. -/
theorem jumpsOutOfTheWindowAreFatal : Obligations.JumpsOutOfTheWindowAreFatal := by
  refine fun rd rs1 imm off s => ⟨?_, ?_⟩
  · rw [← jalTarget_eq_ofInt]
    exact jumpAndLink_fatalEffect
  · rw [← effAddr_eq_ofInt]
    exact jumpAndLink_fatalEffect

/-- Settles O27: the five branches are one operation under five conditions. -/
theorem branchesGoToTheTargetOrOn : Obligations.BranchesGoToTheTargetOrOn := by
  intro rs1 rs2 off s
  rw [← branchTarget_eq_ofInt]
  intro h
  simp only [List.forall_mem_cons, exec, execBne, bneWith, execBlt, bltWith, execBge, bgeWith, execBltu, bltuWith,
    execBgeu, bgeuWith]
  exact ⟨branchOn_flowEffect h rfl, branchOn_flowEffect h rfl, branchOn_flowEffect h (not_lessSigned _ _),
    branchOn_flowEffect h rfl, branchOn_flowEffect h (not_lessUnsigned _ _), nofun⟩

/-- Settles O28: the check is on the doubled offset, the jump by the offset itself. -/
theorem beqChecksTheDoubledOffset : Obligations.BeqChecksTheDoubledOffset := by
  intro rs1 rs2 off s
  rw [← beqCheck_eq_ofInt, ← branchTarget_eq_ofInt]
  intro h
  obtain ⟨t, ht, hflow⟩ := branch_flowEffect (taken := decide (s.readReg rs1 = s.readReg rs2)) (u := branchTarget s off) h
  simp only [decide_eq_true_iff] at hflow
  exact ⟨t, ht, hflow⟩

/-- Settles O29: each of the six is one operation that checks its address before it looks whether it is taken. -/
theorem branchesOutOfTheWindowAreFatal : Obligations.BranchesOutOfTheWindowAreFatal := by
  intro rs1 rs2 off s
  rw [← beqCheck_eq_ofInt, ← branchTarget_eq_ofInt]
  simp only [List.forall_mem_cons, exec, execBeq, beqWith, execBne, bneWith, execBlt, bltWith, execBge, bgeWith, execBltu,
    bltuWith, execBgeu, bgeuWith, branchOn]
  exact ⟨branch_fatalEffect, branch_fatalEffect, branch_fatalEffect, branch_fatalEffect, branch_fatalEffect,
    branch_fatalEffect, nofun⟩

/-- Settles O30: the doubled offset is too small to wrap into the window. -/
theorem beqCheckPassesInHalfTheWindow : Obligations.BeqCheckPassesInHalfTheWindow := by
  intro s off hpc
  have hlo := BitVec.le_toInt off
  have hhi := BitVec.toInt_lt (x := off)
  rw [inWindow, beqCheck_eq_ofInt, u32, BitVec.toNat_ofInt]
  simp only [u32] at hpc ⊢
  split <;> omega

end Sys2Proof.Machine

namespace Sys2Proof.Machine

-- ## The step before the instruction (rules R25, R26, R35, R110)

theorem step_of_not_running {s : State} (h : s.status ≠ .running) : step s = .fault (.terminated s.status) := by
  cases hs : s.status with
  | running => exact absurd hs h
  | _ => simp only [step, stepBy, hs]

theorem step_of_running {s : State} (h : s.status = .running) : step s = runningBy decode exec s := by
  simp only [step, stepBy, h]

theorem step_of_exit {s : State} (h : s.status = .running) (hpc : 1024 ≤ u32 s.pc) :
    step s = .next (s.setStatus .exited) := by
  simp only [step_of_running h, runningBy, State.fetchBy, if_pos hpc]

theorem step_of_misaligned {s : State} (h : s.status = .running) (hpc : u32 s.pc < 1024) (hmod : u32 s.pc % 4 ≠ 0) :
    step s = .refused .misalignedFetch := by
  simp only [step_of_running h, runningBy, State.fetchBy, if_neg (Nat.not_le.2 hpc), if_pos hmod]

theorem step_of_decode {s : State} {i : Instr} (h : s.status = .running) (hpc : u32 s.pc < 1024)
    (hmod : u32 s.pc % 4 = 0) (hd : decode (s.fetch32 (u32 s.pc)) = some i) : step s = exec i s := by
  simp only [step_of_running h, runningBy, State.fetchBy, if_neg (Nat.not_le.2 hpc), if_neg (not_not.2 hmod), hd]

theorem decode_of_decodeBytes {b0 b1 b2 b3 : Byte} {i : Instr} {rest : List Byte}
    (h : decodeBytes [b0, b1, b2, b3] = .instr i rest) : decode (wordOfBytes b0 b1 b2 b3) = some i := by
  rw [decodeBytes] at h
  split at h
  next hd => cases h; exact hd
  next => cases h

/-- Settles O7: none of the tests before the execution stops. -/
theorem stepRunsTheDecodedInstruction : Obligations.StepRunsTheDecodedInstruction :=
  fun _ _ hs hpc hmod hd => step_of_decode hs hpc hmod (decode_of_decodeBytes hd)

/-- Settles O8: the step tests the status, then the bound of the pc, then its alignment. -/
theorem stepTestsStatusAndPcFirst : Obligations.StepTestsStatusAndPcFirst :=
  fun _ => ⟨step_of_not_running, fun hs hpc => ⟨step_of_exit hs hpc, rfl⟩, step_of_misaligned⟩

-- ## Reset, and the parameters in force (rules R7 and R37)

theorem tagAt_reset (k : Nat) : tagAt State.reset.tags k = 0#32 := by
  simp [tagAt, State.reset]

theorem readReg_reset (r : RegIdx) : State.reset.readReg r = 0#32 := by
  simp [State.readReg, State.reset]

/-- Settles O11: both memories list nothing at reset, so that their bytes are those of the launch. -/
theorem resetLeavesTheSpecsValues : Obligations.ResetLeavesTheSpecsValues :=
  ⟨readReg_reset, rfl, fun _ => rfl, fun _ => rfl, fun k _ => tagAt_reset k, rfl, rfl, rfl, rfl, rfl⟩

/-- Settles O54: nothing is listed in either memory and no bank is taken. -/
theorem invariantsHoldAtReset : Obligations.InvariantsHoldAtReset := by
  refine ⟨⟨Memory.wf_nil, nofun, Memory.wf_nil, nofun⟩, ⟨le_rfl, by decide, fun k _ => ?_, ?_⟩, Nat.zero_le _⟩
  · rw [tagAt_reset]
    decide
  · exact fun i _ _ _ _ _ h _ => absurd (tagAt_reset i) h

theorem exec_eq_execWith (i : Instr) (s : State) : exec i s = execWith params i s := by
  cases i <;> rfl

/-- Settles O59: each instruction is its parametric form at the parameters in force. -/
theorem theMachineRunsAtTheParametersInForce : Obligations.TheMachineRunsAtTheParametersInForce :=
  ⟨exec_eq_execWith, fun s => congrArg (stepBy decode · s) (funext₂ exec_eq_execWith)⟩

-- ## What every step keeps, from what an instruction can do

/-- A property that a step's own two next states keep, and every instruction fetched, is kept by every step. -/
theorem step_preserves {P : State → Prop} {s t : State} (h : step s = .next t) (hexit : P (s.setStatus .exited))
    (hfatal : ∀ w, P (s.raiseFatal .unimplementedInstruction w))
    (hinstr : u32 s.pc ≤ 1020 → InstrEffect s t → P t) : P t := by
  obtain ⟨-, ⟨-, rfl⟩ | ⟨w, -, rfl⟩ | ⟨i, hf, hexec⟩⟩ := step_next h
  · exact hexit
  · exact hfatal w
  · exact hinstr (fetch_instr hf).1 (exec_effect hexec)

theorem InstrEffect.istore {s t : State} (h : InstrEffect s t) : t.istore = s.istore := by
  cases h <;> simp

theorem InstrEffect.out {s t : State} (h : InstrEffect s t) : ∃ es : List OutEvent, es.length ≤ 1 ∧ t.out = s.out ++ es := by
  cases h with
  | fatal a => exact ⟨[_], le_rfl, rfl⟩
  | emit e => exact ⟨[e], le_rfl, rfl⟩
  | halt => exact ⟨[_], le_rfl, rfl⟩
  | _ => exact ⟨[], Nat.zero_le _, by simp⟩

/-- Settles O56: only a fatal condition, a halt and an output port append, one event each. -/
theorem outputOnlyGrows : Obligations.OutputOnlyGrows :=
  fun s t h => step_preserves (P := fun t => ∃ es : List OutEvent, es.length ≤ 1 ∧ t.out = s.out ++ es) h
    ⟨[], Nat.zero_le _, by simp⟩ (fun _ => ⟨[_], le_rfl, rfl⟩) fun _ => InstrEffect.out

theorem InstrEffect.pcInRange {s t : State} (hpc : u32 s.pc ≤ 1020) (h : InstrEffect s t) : PcInRange t := by
  have hnext : u32 (s.pc + 4#32) ≤ 1024 := by
    simp only [u32] at hpc ⊢
    rw [BitVec.toNat_add, BitVec.toNat_ofNat]
    omega
  have hstay : u32 s.pc ≤ 1024 := by omega
  have window {w : Word} (hw : inWindow w) : u32 w ≤ 1024 := le_trans hw (by decide)
  rw [PcInRange]
  cases h with
  | jump rd v u hu => exact window hu
  | branch u hu => exact window (hu hpc)
  | fatal a => exact hstay
  | held => exact hstay
  | halt => exact hstay
  | _ => simpa using hnext

/-- Settles O53: a target is in the window, and the advance starts at 1020 or below. -/
theorem stepKeepsPcInRange : Obligations.StepKeepsPcInRange :=
  fun _ _ hs h => step_preserves h hs (fun _ => hs) InstrEffect.pcInRange

theorem InstrEffect.memoriesCanonical {s t : State} (hs : MemoriesCanonical s) (h : InstrEffect s t) :
    MemoriesCanonical t := by
  obtain ⟨hiwf, hiin, hhwf, hhin⟩ := hs
  cases h with
  | storeHeap a bs hlo hhi =>
    exact ⟨by simpa using hiwf, by simpa using hiin, State.setHeapBytes_wf bs s a hhwf,
      State.setHeapBytes_within bs s a hhin hlo hhi⟩
  | _ => exact ⟨by simpa using hiwf, by simpa using hiin, by simpa using hhwf, by simpa using hhin⟩

/-- Settles O51: only a store changes a memory, and it writes inside the heap. -/
theorem stepKeepsMemoriesCanonical : Obligations.StepKeepsMemoriesCanonical :=
  fun _ _ hs h => step_preserves h hs (fun _ => hs) fun _ => InstrEffect.memoriesCanonical hs

/-- The only instructions that end a run in a fatal condition raise it, and do nothing else. -/
theorem InstrEffect.eq_raiseFatal {s t : State} {c : FatalCause} {v a : Word} (h : InstrEffect s t)
    (hs : s.status = .running) (ht : t.status = .fatal c v a) : t = s.raiseFatal c v := by
  cases h with
  | fatal a => cases ht; rfl
  | halt => cases ht
  | _ => simp [hs] at ht

/-- Settles O10: an undecodable word and an illegal target or address both raise the condition on the state before them. -/
theorem fatalStepLeavesTheStateBeforeIt : Obligations.FatalStepLeavesTheStateBeforeIt := by
  intro s t c v a hs h
  refine step_preserves (P := fun t => t.status = .fatal c v a → FatalEffect s t c v) h nofun (fun w hw => ?_)
    fun _ he ht => ?_
  · cases hw
    exact s.fatalEffect_raiseFatal _ _
  · exact he.eq_raiseFatal hs ht ▸ s.fatalEffect_raiseFatal c v

-- ## The tags of the banks (rules R84, R92 and R94)

theorem firstFree_eq_some_iff {t : Vector Word 128} {k : Nat} :
    firstFree t 128 0 = some k ↔ k < 128 ∧ tagAt t k = 0#32 ∧ ∀ j, j < k → tagAt t j ≠ 0#32 := by
  constructor
  · intro h
    obtain ⟨-, hk, hfree, hbelow⟩ := firstFree_some h
    exact ⟨by omega, hfree, fun j => hbelow j (Nat.zero_le j)⟩
  · rintro ⟨hk, hfree, hbelow⟩
    cases h : firstFree t 128 0 with
    | none => exact absurd hfree (firstFree_none h k (Nat.zero_le k) (by omega))
    | some j =>
      obtain ⟨-, -, hj, hjbelow⟩ := firstFree_some h
      obtain hlt | rfl | hgt := Nat.lt_trichotomy j k
      · exact absurd hj (hbelow j hlt)
      · rfl
      · exact absurd hfree (hjbelow k (Nat.zero_le k) hgt)

/-- A request of 4 bytes that succeeds takes the lowest free bank, under the next id. -/
theorem alloc_four_took {t g : Vector Word 128} {nextId k n : Nat} (h : alloc t nextId 4 = .took k g n) :
    firstFree t 128 0 = some k ∧ nextId < 4294967296 ∧ n = nextId + 1 ∧
      ∀ i, i < 128 → tagAt g i = if i = k then BitVec.ofNat 32 nextId else tagAt t i := by
  obtain ⟨hscan, hid, rfl, rfl⟩ := alloc_took h
  refine ⟨hscan, hid, rfl, fun i hi => ?_⟩
  rw [tagAt_stamp _ _ _ _ _ hi, show banksNeeded 4 = 1 from rfl]
  simp only [show k ≤ i ∧ i < k + 1 ↔ i = k by omega]

/-- The banks that a release from bank `k` frees. -/
def Released (t : Vector Word 128) (k i : Nat) : Prop := tagAt t k ≠ 0#32 ∧ CarriesIdTo t (tagAt t k) k i

theorem tagAt_release_of_released {t : Vector Word 128} {k i : Nat} (hi : i < 128) (h : Released t k i) :
    tagAt (release t k) i = 0#32 := by
  rw [release_of_taken h.1]
  exact tagAt_clearRun_of_carriesIdTo hi (by omega) h.2

theorem tagAt_release_of_not_released {t : Vector Word 128} {k i : Nat} (h : ¬ Released t k i) :
    tagAt (release t k) i = tagAt t i := by
  by_cases hk : tagAt t k = 0#32
  · rw [release_of_free hk]
  · rw [release_of_taken hk]
    exact tagAt_clearRun_of_not_carriesIdTo fun hc => h ⟨hk, hc⟩

theorem tagAt_release {t : Vector Word 128} {k i : Nat} (hi : i < 128) :
    tagAt (release t k) i = 0#32 ∨ tagAt (release t k) i = tagAt t i := by
  by_cases h : Released t k i
  · exact .inl (tagAt_release_of_released hi h)
  · exact .inr (tagAt_release_of_not_released h)

theorem freeTags_cases (p : Params) (t : Vector Word 128) (a : Word) :
    freeTags p t a = t ∨ ∃ k, freeTags p t a = release t k := by
  rw [freeTags]
  split
  · exact .inl rfl
  · exact .inr ⟨_, rfl⟩

/-- The banks of one id are consecutive (rule R94). -/
def Consecutive (t : Vector Word 128) : Prop :=
  ∀ i j k, i ≤ j → j ≤ k → k < 128 → tagAt t i ≠ 0#32 → tagAt t k = tagAt t i → tagAt t j = tagAt t i

/-- Stamping one free bank with an id that no bank carries keeps the banks of each id consecutive. -/
theorem Consecutive.stamp {t g : Vector Word 128} {b : Nat} {id : Word} (ht : Consecutive t) (hfree : tagAt t b = 0#32)
    (hnew : ∀ i, i < 128 → tagAt t i ≠ id) (hg : ∀ i, i < 128 → tagAt g i = if i = b then id else tagAt t i) :
    Consecutive g := by
  intro i j k hij hjk hk hi hki
  rw [hg i (by omega)] at hi hki ⊢
  rw [hg k hk] at hki
  rw [hg j (by omega)]
  by_cases hib : i = b
  · by_cases hkb : k = b
    · rw [if_pos (by omega), if_pos hib]
    · rw [if_pos hib, if_neg hkb] at hki
      exact absurd hki (hnew k hk)
  · rw [if_neg hib] at hi hki ⊢
    by_cases hkb : k = b
    · rw [if_pos hkb] at hki
      exact absurd hki.symm (hnew i (by omega))
    · rw [if_neg hkb] at hki
      have hj := ht i j k hij hjk hk hi hki
      have hjb : j ≠ b := fun e => hi (hj ▸ e ▸ hfree)
      rw [if_neg hjb, hj]

/-- Where a release reaches a bank, it reaches every later bank of the same id. -/
theorem Released.of_le {t : Vector Word 128} {b j k : Nat} (ht : Consecutive t) (h : Released t b j) (hjk : j ≤ k)
    (hk : k < 128) (heq : tagAt t k = tagAt t j) : Released t b k := by
  obtain ⟨hb, hle, htags⟩ := h
  have hj : tagAt t j = tagAt t b := htags j hle le_rfl
  exact ⟨hb, hle.trans hjk, fun i hbi hik => ht b i k hbi hik hk hb (heq.trans hj)⟩

theorem Consecutive.release {t : Vector Word 128} (ht : Consecutive t) (b : Nat) : Consecutive (release t b) := by
  intro i j k hij hjk hk hi hki
  have taken {l : Nat} (hl : l < 128) (h : tagAt (Machine.release t b) l ≠ 0#32) : ¬ Released t b l :=
    fun hr => h (tagAt_release_of_released hl hr)
  have hnk := taken hk (hki ▸ hi)
  have hni := taken (by omega) hi
  rw [tagAt_release_of_not_released hni] at hi hki ⊢
  rw [tagAt_release_of_not_released hnk] at hki
  have hj := ht i j k hij hjk hk hi hki
  have hnj : ¬ Released t b j := fun hr => hnk (hr.of_le ht hjk hk (hki.trans hj.symm))
  rw [tagAt_release_of_not_released hnj, hj]

theorem InstrEffect.banksConsistent {s t : State} (hs : BanksConsistent s) (h : InstrEffect s t) :
    BanksConsistent t := by
  obtain ⟨hpos, hmax, htags, hcons⟩ := id hs
  cases h with
  | alloc k g n h =>
    obtain ⟨hk, hid, rfl, hg⟩ := alloc_four_took h
    obtain ⟨-, hfree, -⟩ := firstFree_eq_some_iff.1 hk
    have u32_id : u32 (BitVec.ofNat 32 s.nextId) = s.nextId := Nat.mod_eq_of_lt hid
    have hnew : ∀ i, i < 128 → tagAt s.tags i ≠ BitVec.ofNat 32 s.nextId := fun i hi he => by
      have := htags i hi
      rw [he, u32_id] at this
      exact lt_irrefl _ this
    simp only [BanksConsistent, State.retire_nextId, State.retire_tags, State.setBanks_nextId, State.setBanks_tags]
    refine ⟨by omega, by omega, fun i hi => ?_, Consecutive.stamp hcons hfree hnew hg⟩
    rw [hg i hi]
    split
    · omega
    · exact (htags i hi).trans (Nat.lt_succ_self _)
  | free a =>
    obtain hkeep | ⟨k, hrel⟩ := freeTags_cases params s.tags a
    · rw [hkeep]
      exact hs
    · simp only [BanksConsistent, State.advance_nextId, State.advance_tags, State.setBanks_nextId, State.setBanks_tags, hrel]
      refine ⟨hpos, hmax, fun i hi => ?_, Consecutive.release hcons k⟩
      obtain h0 | heq := tagAt_release hi (t := s.tags) (k := k)
      · rw [h0]
        exact hpos
      · rw [heq]
        exact htags i hi
  | _ => simpa [BanksConsistent] using hs

/-- Settles O52: a stamped id is new, and a release clears the banks of one id from some bank on. -/
theorem stepKeepsBanksConsistent : Obligations.StepKeepsBanksConsistent :=
  fun _ _ hs h => step_preserves h hs (fun _ => hs) fun _ => InstrEffect.banksConsistent hs

/-- The id generator does not go down, and a changed tag is a freed one or the generator's old value on a free bank. -/
def StampsFreshIds (s t : State) : Prop :=
  s.nextId ≤ t.nextId ∧
    ∀ k, k < 128 → tagAt t.tags k ≠ tagAt s.tags k →
      tagAt t.tags k = 0#32 ∨
        (tagAt s.tags k = 0#32 ∧ tagAt t.tags k = BitVec.ofNat 32 s.nextId ∧ t.nextId = s.nextId + 1)

theorem stampsFreshIds_of_eq {s t : State} (htags : t.tags = s.tags) (hid : t.nextId = s.nextId) : StampsFreshIds s t :=
  ⟨hid.ge, fun _ _ hne => absurd (by rw [htags]) hne⟩

theorem InstrEffect.stampsFreshIds {s t : State} (h : InstrEffect s t) : StampsFreshIds s t := by
  cases h with
  | alloc b g n h =>
    obtain ⟨hb, -, rfl, hg⟩ := alloc_four_took h
    obtain ⟨-, hfree, -⟩ := firstFree_eq_some_iff.1 hb
    simp only [StampsFreshIds, State.retire_nextId, State.retire_tags, State.setBanks_nextId, State.setBanks_tags]
    refine ⟨Nat.le_succ _, fun k hk hne => .inr ?_⟩
    rw [hg k hk] at hne ⊢
    obtain rfl : k = b := by_contra fun h => hne (if_neg h)
    exact ⟨hfree, if_pos rfl, trivial⟩
  | free a =>
    refine ⟨le_rfl, fun k hk hne => .inl ?_⟩
    obtain hkeep | ⟨b, hrel⟩ := freeTags_cases params s.tags a
    · exact absurd (congrArg (tagAt · k) hkeep) hne
    · exact ((tagAt_release hk).resolve_right (hrel ▸ hne)).symm ▸ congrArg (tagAt · k) hrel
  | _ => exact stampsFreshIds_of_eq (by simp) (by simp)

/-- Settles O57: only the allocate port stamps, with the old value of the generator, and a release writes 0 alone. -/
theorem idsAreNeverStampedTwice : Obligations.IdsAreNeverStampedTwice :=
  fun s _ h => step_preserves (P := StampsFreshIds s) h (stampsFreshIds_of_eq rfl rfl)
    (fun _ => stampsFreshIds_of_eq rfl rfl) fun _ => InstrEffect.stampsFreshIds

end Sys2Proof.Machine

namespace Sys2Proof.Machine

-- ## No instruction depends on the instruction store (rule R30)

/-- The state with another instruction store. -/
def State.setIStore (s : State) (m : Memory) : State := { s with istore := m }

section IStore
variable {m : Memory} {s : State} {p : Params}

theorem State.setIStore_writeReg (r : RegIdx) (v : Word) :
    (s.setIStore m).writeReg r v = (s.writeReg r v).setIStore m := by
  unfold State.writeReg
  split <;> rfl

theorem State.setIStore_retire (r : RegIdx) (v : Word) : (s.setIStore m).retire r v = (s.retire r v).setIStore m := by
  rw [State.retire, State.setIStore_writeReg]
  rfl

theorem State.setIStore_setHeapBytes (bs : List Byte) :
    ∀ (s : State) (a : Nat), (s.setIStore m).setHeapBytes a bs = (s.setHeapBytes a bs).setIStore m := by
  induction bs with
  | nil => intro s a; rfl
  | cons b bs ih => exact fun s a => ih (s.setHeapByte a b) (a + 1)

theorem State.heapBytes_setIStore (n : Nat) : ∀ a, (s.setIStore m).heapBytes p a n = s.heapBytes p a n := by
  induction n with
  | zero => intro a; rfl
  | succ n ih => exact fun a => congrArg (s.heapByte p a :: ·) (ih (a + 1))

theorem writeResult_setIStore {rd : RegIdx} {v : Word} :
    writeResult rd v (s.setIStore m) = withIStore m (writeResult rd v s) := by
  rw [writeResult_eq, writeResult_eq, State.setIStore_retire]
  rfl

theorem jumpAndLink_setIStore {rd : RegIdx} {u : Word} :
    jumpAndLink rd u (s.setIStore m) = withIStore m (jumpAndLink rd u s) := by
  unfold jumpAndLink
  split
  · exact congrArg (fun t : State => Host.Outcome.next (t.setPc u)) (State.setIStore_writeReg rd (s.pc + 4#32))
  · rfl

theorem branch_setIStore {taken : Bool} {u c : Word} :
    branch p taken u c (s.setIStore m) = withIStore m (branch p taken u c s) := by
  unfold branch
  split_ifs <;> rfl

theorem portAnswer_setIStore {port : ReadPort} : portAnswer p port (s.setIStore m) = portAnswer p port s := by
  cases port <;> rfl

theorem portLoad_setIStore {port : ReadPort} {rd : RegIdx} :
    portLoad p port rd (s.setIStore m) = withIStore m (portLoad p port rd s) := by
  rw [portLoad, portLoad, portAnswer_setIStore]
  split
  · rfl
  · exact congrArg Host.Outcome.next (State.setIStore_retire (s := s.tookInput _) rd _)

theorem load_setIStore {n : Nat} {f : List Byte → Word} {rd rs1 : RegIdx} {imm : BitVec 12} :
    load p n f rd rs1 imm (s.setIStore m) = withIStore m (load p n f rd rs1 imm s) := by
  unfold load loadAt
  rw [State.heapBytes_setIStore]
  split
  · rfl
  · rw [show effAddr (s.setIStore m) rs1 imm = effAddr s rs1 imm from rfl]
    split
    · exact portLoad_setIStore
    · split_ifs
      · rfl
      · exact congrArg Host.Outcome.next (State.setIStore_retire rd _)
      · rfl

theorem portDumpByte_setIStore {v : Word} :
    portDumpByte p v (s.setIStore m) = withIStore m (portDumpByte p v s) := by
  unfold portDumpByte
  split <;> rfl

theorem portAlloc_setIStore {v : Word} : portAlloc p v (s.setIStore m) = withIStore m (portAlloc p v s) := by
  unfold portAlloc
  rw [show (s.setIStore m).tags = s.tags from rfl, show (s.setIStore m).nextId = s.nextId from rfl]
  split
  · exact congrArg Host.Outcome.next (State.setIStore_retire (s := s.setBanks _ _) 28#5 _)
  · exact congrArg Host.Outcome.next (State.setIStore_retire 28#5 _)
  · rfl

theorem portWrite_setIStore {port : WritePort} {v : Word} :
    portWrite p port v (s.setIStore m) = withIStore m (portWrite p port v s) := by
  cases port with
  | dumpByte => exact portDumpByte_setIStore
  | alloc => exact portAlloc_setIStore
  | _ => rfl

theorem store_setIStore {n : Nat} {rs1 rs2 : RegIdx} {imm : BitVec 12} :
    store p n rs1 rs2 imm (s.setIStore m) = withIStore m (store p n rs1 rs2 imm s) := by
  unfold store storeAt
  rw [show effAddr (s.setIStore m) rs1 imm = effAddr s rs1 imm from rfl]
  split
  · exact portWrite_setIStore
  · split_ifs
    · rfl
    · exact congrArg (fun t : State => Host.Outcome.next t.advance) (State.setIStore_setHeapBytes _ s _)
    · rfl

end IStore

theorem exec_setIStore (i : Instr) (s : State) (m : Memory) : exec i (s.setIStore m) = withIStore m (exec i s) := by
  cases i
  case add | sub | xor | or | and | sll | srl | sra | slt | sltu => exact writeResult_setIStore
  case addi | xori | ori | andi | slti | sltiu | lui => exact writeResult_setIStore
  case lb | lbu | lh | lw => exact load_setIStore
  case sb | sh | sw => exact store_setIStore
  case beq | bne | blt | bge | bltu | bgeu => exact branch_setIStore
  case jal | jalr => exact jumpAndLink_setIStore

/-- Settles O55: no operation of an instruction reads or writes the instruction store. -/
theorem instructionStoreIsOnlyFetched : Obligations.InstructionStoreIsOnlyFetched :=
  ⟨fun s _ h => step_preserves (P := fun t => t.istore = s.istore) h rfl (fun _ => rfl) fun _ => InstrEffect.istore,
    exec_setIStore⟩

end Sys2Proof.Machine

namespace Sys2Proof.Machine

-- ## The addresses of the ports (rules R60 and R72)

/-- The address of a write port. -/
def WritePort.addr : WritePort → Word
  | .char => 2048#32
  | .dec => 2052#32
  | .hex => 2056#32
  | .halt => 2060#32
  | .dumpPc => 2080#32
  | .dumpRegs => 2084#32
  | .dumpByte => 2088#32
  | .alloc => 2096#32
  | .free => 2100#32

/-- The address of a read port. -/
def ReadPort.addr : ReadPort → Word
  | .char => 2066#32
  | .int => 2070#32

theorem WritePort.ofAddr_addr (port : WritePort) : WritePort.ofAddr port.addr = some port := by
  cases port <;> rfl

theorem ReadPort.ofAddr_addr (port : ReadPort) : ReadPort.ofAddr port.addr = some port := by
  cases port <;> rfl

theorem WritePort.eq_addr {a : Word} {port : WritePort} (h : WritePort.ofAddr a = some port) : a = port.addr := by
  unfold WritePort.ofAddr at h
  split_ifs at h with ha ha ha ha ha ha ha ha ha <;> cases h <;> exact ha

theorem ReadPort.eq_addr {a : Word} {port : ReadPort} (h : ReadPort.ofAddr a = some port) : a = port.addr := by
  unfold ReadPort.ofAddr at h
  split_ifs at h with ha ha <;> cases h <;> exact ha

-- ## What an instruction can do, with the operand that says so

/-- The next states of the instruction `i`: which register it writes, why it is fatal, and which port it reaches. -/
inductive InstrCause (s : State) (i : Instr) : State → Prop
  | retire (rd : RegIdx) (v : Word) (hrd : destReg i = some rd) : InstrCause s i (s.retire rd v)
  | jump (rd : RegIdx) (v u : Word) (hrd : destReg i = some rd) : InstrCause s i ((s.writeReg rd v).setPc u)
  | flow (u : Word) : InstrCause s i (s.setPc u)
  | held : InstrCause s i s
  | read (k : Nat) (rd : RegIdx) (v : Word) (hrd : destReg i = some rd) : InstrCause s i ((s.tookInput k).retire rd v)
  | storeHeap (a : Nat) (bs : List Byte) : InstrCause s i (s.setHeapBytes a bs).advance
  | port (rs1 : RegIdx) (imm : BitVec 12) (port : WritePort) (v : Word) (t : State)
      (hst : storeOperands i = some (rs1, imm)) (ha : effAddr s rs1 imm = port.addr)
      (hw : portWrite params port v s = .next t) : InstrCause s i t
  | fatal (a : Word) (ha : IllegalAt s a i) : InstrCause s i (s.raiseFatal .illegalOperation a)

section Cause
variable {i : Instr} {rd rs1 rs2 : RegIdx} {imm : BitVec 12} {n : Nat} {s t : State}

theorem writeResult_cause {v : Word} (hrd : destReg i = some rd) (h : writeResult rd v s = .next t) :
    InstrCause s i t := by
  rw [writeResult_eq] at h
  cases h
  exact .retire rd v hrd

theorem jumpAndLink_cause {u : Word} (hrd : destReg i = some rd) (hill : ¬ inWindow u → IllegalAt s u i)
    (h : jumpAndLink rd u s = .next t) : InstrCause s i t := by
  obtain ⟨-, rfl⟩ | ⟨hu, rfl⟩ := jumpAndLink_next h
  · exact .jump rd _ u hrd
  · exact .fatal u (hill hu)

theorem branch_cause {taken : Bool} {u c : Word} (hill : ¬ inWindow c → IllegalAt s c i)
    (h : branch params taken u c s = .next t) : InstrCause s i t := by
  obtain ⟨-, rfl⟩ | ⟨hc, rfl⟩ := branch_next h
  · exact .flow _
  · exact .fatal c (hill hc)

theorem portLoad_cause {port : ReadPort} (hrd : destReg i = some rd) (h : portLoad params port rd s = .next t) :
    InstrCause s i t := by
  unfold portLoad at h
  split at h
  · cases h
    exact .held
  · cases h
    exact .read _ rd _ hrd

theorem load_cause {f : List Byte → Word} (hrd : destReg i = some rd)
    (hill : ∀ a, rd ≠ 0#5 ∧ a = effAddr s rs1 imm ∧ ReadPort.ofAddr a = none ∧ ¬ inHeap params a → IllegalAt s a i)
    (h : load params n f rd rs1 imm s = .next t) : InstrCause s i t := by
  unfold load at h
  split at h
  · cases h
    exact .flow _
  next h0 =>
    unfold loadAt at h
    split at h
    · exact portLoad_cause hrd h
    next hp =>
      split_ifs at h with hin hc
      · cases h
        exact .retire rd _ hrd
      · cases h
        exact .fatal _ (hill _ ⟨h0, rfl, hp, hin⟩)

theorem store_cause (hst : storeOperands i = some (rs1, imm))
    (hill : ∀ a, a = effAddr s rs1 imm ∧ WritePort.ofAddr a = none ∧ ¬ inHeap params a → IllegalAt s a i)
    (h : store params n rs1 rs2 imm s = .next t) : InstrCause s i t := by
  unfold store storeAt at h
  split at h
  next port hp => exact .port rs1 imm port _ t hst (WritePort.eq_addr hp) h
  next hp =>
    split_ifs at h with hin hc
    · cases h
      exact .storeHeap _ _
    · cases h
      exact .fatal _ (hill _ ⟨rfl, hp, hin⟩)

end Cause

theorem exec_cause {i : Instr} {s t : State} (h : exec i s = .next t) : InstrCause s i t := by
  cases i
  case add | sub | xor | or | and | sll | srl | sra | slt | sltu => exact writeResult_cause rfl h
  case addi | xori | ori | andi | slti | sltiu | lui => exact writeResult_cause rfl h
  case lb | lbu | lh | lw => exact load_cause rfl (fun _ ha => ha) h
  case jalr | jal => exact jumpAndLink_cause rfl (fun hu => ⟨rfl, hu⟩) h
  case sb | sh | sw => exact store_cause rfl (fun _ ha => ha) h
  case beq | bne | blt | bge | bltu | bgeu => exact branch_cause (fun hc => ⟨rfl, hc⟩) h

end Sys2Proof.Machine

namespace Sys2Proof.Machine

-- ## Which registers an instruction changes, and how a run ends

/-- What a store to a write port does, by port. -/
theorem portWrite_next {p : Params} {port : WritePort} {v : Word} {s t : State} (h : portWrite p port v s = .next t) :
    (port = .halt ∧ t = s.halt) ∨ (port = .alloc ∧ ∃ g n w, t = (s.setBanks g n).retire 28#5 w) ∨
      (∃ e, t = (s.emit e).advance) ∨ ∃ g, t = (s.setBanks g s.nextId).advance := by
  cases port with
  | halt => cases h; exact .inl ⟨rfl, rfl⟩
  | free => cases h; exact .inr (.inr (.inr ⟨_, rfl⟩))
  | alloc =>
    refine .inr (.inl ⟨rfl, ?_⟩)
    simp only [portWrite, portAlloc] at h
    split at h
    · cases h; exact ⟨_, _, _, rfl⟩
    · cases h; exact ⟨s.tags, s.nextId, _, rfl⟩
    · cases h
  | dumpByte =>
    simp only [portWrite, portDumpByte] at h
    split at h
    · cases h; exact .inr (.inr (.inl ⟨_, rfl⟩))
    · cases h
  | _ => cases h; exact .inr (.inr (.inl ⟨_, rfl⟩))

theorem State.eq_of_readReg_writeReg_ne {s : State} {rd r : RegIdx} {v : Word}
    (h : (s.writeReg rd v).readReg r ≠ s.readReg r) : r = rd := by
  by_contra hne
  exact h (by rw [State.readReg_writeReg, if_neg fun hr => hne hr.1])

/-- Settles O24: by the ways an instruction can complete, each of which names the register it writes. -/
theorem registersChangeOnlyAtRdOrX28 : Obligations.RegistersChangeOnlyAtRdOrX28 := by
  intro i s t r h hr
  cases exec_cause h with
  | retire rd v hrd => exact .inl (State.eq_of_readReg_writeReg_ne hr ▸ hrd)
  | jump rd v u hrd => exact .inl (State.eq_of_readReg_writeReg_ne hr ▸ hrd)
  | read k rd v hrd => exact .inl (State.eq_of_readReg_writeReg_ne (s := s.tookInput k) hr ▸ hrd)
  | flow => exact absurd rfl hr
  | held => exact absurd rfl hr
  | fatal => exact absurd rfl hr
  | storeHeap a bs => exact absurd (s.readReg_setHeapBytes a bs r) hr
  | port rs1 imm port v t hst ha hw =>
    obtain ⟨-, rfl⟩ | ⟨rfl, g, n, w, rfl⟩ | ⟨e, rfl⟩ | ⟨g, rfl⟩ := portWrite_next hw
    · exact absurd rfl hr
    · exact .inr ⟨State.eq_of_readReg_writeReg_ne (s := s.setBanks g n) hr, rs1, imm, hst, ha⟩
    · exact absurd rfl hr
    · exact absurd rfl hr

/-- An instruction ends a run by a store to port 2060 or by a target or address out of its range. -/
theorem InstrCause.ending {s t : State} {i : Instr} (h : InstrCause s i t) (hs : s.status = .running)
    (ht : t.status ≠ .running) :
    (t.status = .halted ∧ ∃ rs1 imm, storeOperands i = some (rs1, imm) ∧ effAddr s rs1 imm = 2060#32) ∨
      ∃ a, t.status = .fatal .illegalOperation a s.pc ∧ IllegalAt s a i := by
  cases h with
  | fatal a ha => exact .inr ⟨a, rfl, ha⟩
  | port rs1 imm port v t hst ha hw =>
    obtain ⟨rfl, rfl⟩ | ⟨-, g, n, w, rfl⟩ | ⟨e, rfl⟩ | ⟨g, rfl⟩ := portWrite_next hw
    · exact .inl ⟨rfl, rs1, imm, hst, ha⟩
    · exact absurd (by simpa using hs) ht
    · exact absurd hs ht
    · exact absurd hs ht
  | _ => exact absurd (by simpa using hs) ht

-- ## Refusals (rule R306)

theorem not_crossesBank_one (p : Params) (a : Word) : ¬ crossesBank p a 1 := by
  simp only [crossesBank, bankOffset]
  omega

theorem alloc_four_idExhausted {t : Vector Word 128} {nextId : Nat} :
    alloc t nextId 4 = .idExhausted ↔ (∃ k, k < 128 ∧ tagAt t k = 0#32) ∧ 4294967296 ≤ nextId := by
  rw [alloc_idExhausted]
  refine and_congr_left fun _ => ⟨fun ⟨k, hk⟩ => ?_, fun ⟨k, hk, hfree⟩ => ?_⟩
  · obtain ⟨hlt, hfree, -⟩ := firstFree_eq_some_iff.1 hk
    exact ⟨k, hlt, hfree⟩
  · refine Option.ne_none_iff_exists'.1 fun hnone => ?_
    exact firstFree_none hnone k (Nat.zero_le k) (by omega) hfree

theorem store_refused_iff {n : Nat} {rs1 rs2 : RegIdx} {imm : BitVec 12} {s : State} {r : Refusal} :
    store params n rs1 rs2 imm s = .refused r ↔
      (r = .crossBankAccess ∧ inHeap params (effAddr s rs1 imm) ∧ crossesBank params (effAddr s rs1 imm) n) ∨
        (r = .dumpAddressOutOfHeap ∧ effAddr s rs1 imm = 2088#32 ∧ ¬ inHeap params (s.readReg rs2)) ∨
        (r = .allocIdExhausted ∧ effAddr s rs1 imm = 2096#32 ∧ (∃ k, k < 128 ∧ tagAt s.tags k = 0#32) ∧
          4294967296 ≤ s.nextId) := by
  rw [store_stops.2 r]
  refine or_congr Iff.rfl ⟨?_, ?_⟩
  · rintro ⟨port, hp, hw⟩
    obtain ⟨hr, rfl, hv⟩ | ⟨hr, rfl, ha⟩ := (portWrite_stops.2 r).1 hw
    · exact .inl ⟨hr, WritePort.eq_addr hp, hv⟩
    · exact .inr ⟨hr, WritePort.eq_addr hp, alloc_four_idExhausted.1 ha⟩
  · rintro (⟨hr, ha, hv⟩ | ⟨hr, ha, hid⟩)
    · exact ⟨.dumpByte, ha ▸ rfl, (portWrite_stops.2 r).2 (.inl ⟨hr, rfl, hv⟩)⟩
    · exact ⟨.alloc, ha ▸ rfl, (portWrite_stops.2 r).2 (.inr ⟨hr, rfl, alloc_four_idExhausted.2 hid⟩)⟩

theorem refuses_load_iff {s : State} {i : Instr} {r : Refusal} {rd rs1 : RegIdx} {imm : BitVec 12} {n : Nat}
    (h : (i = .lh rd rs1 imm ∧ n = 2) ∨ (i = .lw rd rs1 imm ∧ n = 4)) :
    Refuses s i r ↔ r = .crossBankAccess ∧ rd ≠ 0#5 ∧ inHeap params (effAddr s rs1 imm) ∧
      crossesBank params (effAddr s rs1 imm) n := by
  rcases h with ⟨rfl, rfl⟩ | ⟨rfl, rfl⟩ <;> simp [Refuses]

theorem refuses_store_iff {s : State} {i : Instr} {r : Refusal} {rs1 rs2 : RegIdx} {imm : BitVec 12} {n : Nat}
    (h : (i = .sb rs1 rs2 imm ∧ n = 1) ∨ (i = .sh rs1 rs2 imm ∧ n = 2) ∨ (i = .sw rs1 rs2 imm ∧ n = 4)) :
    Refuses s i r ↔ store params n rs1 rs2 imm s = .refused r := by
  rw [store_refused_iff]
  rcases h with ⟨rfl, rfl⟩ | ⟨rfl, rfl⟩ | ⟨rfl, rfl⟩
  · rw [or_iff_right fun h => not_crossesBank_one _ _ h.2.2]
    simp [Refuses]
  · simp [Refuses]
  · simp [Refuses]

theorem jumpAndLink_isNext (rd : RegIdx) (u : Word) (s : State) : ∃ t, jumpAndLink rd u s = .next t := by
  unfold jumpAndLink
  split <;> exact ⟨_, rfl⟩

theorem branch_isNext (p : Params) (taken : Bool) (u c : Word) (s : State) : ∃ t, branch p taken u c s = .next t := by
  unfold branch
  split_ifs <;> exact ⟨_, rfl⟩

/-- The outcome is no fault, and a refusal exactly for a reason of `i`. -/
def StopsAs (s : State) (i : Instr) (o : Res) : Prop := (∀ f, o ≠ .fault f) ∧ ∀ r, o = .refused r ↔ Refuses s i r

theorem stopsAs_of_next {s : State} {i : Instr} {o : Res} (h : ∃ t, o = .next t) (hr : ∀ r, ¬ Refuses s i r) :
    StopsAs s i o := by
  obtain ⟨t, rfl⟩ := h
  exact ⟨nofun, fun r => ⟨nofun, fun hi => absurd hi (hr r)⟩⟩

theorem exec_stopsAs (i : Instr) (s : State) : StopsAs s i (exec i s) := by
  cases i
  case add | sub | xor | or | and | sll | srl | sra | slt | sltu | addi | xori | ori | andi | slti | sltiu | lui =>
    exact stopsAs_of_next ⟨_, writeResult_eq ..⟩ (by simp [Refuses])
  case jalr | jal => exact stopsAs_of_next (jumpAndLink_isNext ..) (by simp [Refuses])
  case beq | bne | blt | bge | bltu | bgeu => exact stopsAs_of_next (branch_isNext ..) (by simp [Refuses])
  case lb | lbu =>
    refine ⟨load_stops.1, fun r => (load_stops.2 r).trans ⟨fun h => (not_crossesBank_one _ _ h.2.2.2).elim, ?_⟩⟩
    simp [Refuses]
  case lh => exact ⟨load_stops.1, fun r => (load_stops.2 r).trans (refuses_load_iff (.inl ⟨rfl, rfl⟩)).symm⟩
  case lw => exact ⟨load_stops.1, fun r => (load_stops.2 r).trans (refuses_load_iff (.inr ⟨rfl, rfl⟩)).symm⟩
  case sb => exact ⟨store_stops.1, fun r => (refuses_store_iff (.inl ⟨rfl, rfl⟩)).symm⟩
  case sh => exact ⟨store_stops.1, fun r => (refuses_store_iff (.inr (.inl ⟨rfl, rfl⟩))).symm⟩
  case sw => exact ⟨store_stops.1, fun r => (refuses_store_iff (.inr (.inr ⟨rfl, rfl⟩))).symm⟩

/-- Settles O12: register operations, jumps and branches always complete; loads and stores stop only for the reasons
of their accesses. -/
theorem instructionsAreRefusedOnlyForTheSpecsReasons : Obligations.InstructionsAreRefusedOnlyForTheSpecsReasons :=
  exec_stopsAs

-- ## The ends of a run (rules R300 and R319)

theorem fetch_exit {s : State} (h : s.fetch = .exit) : 1024 ≤ u32 s.pc := by
  unfold State.fetch State.fetchBy at h
  split_ifs at h with hpc
  · exact hpc
  · split at h <;> cases h

theorem fetch_misaligned {s : State} (h : s.fetch = .misaligned) : u32 s.pc < 1024 ∧ u32 s.pc % 4 ≠ 0 := by
  unfold State.fetch State.fetchBy at h
  split_ifs at h with hpc hmod
  · exact ⟨Nat.not_le.1 hpc, hmod⟩
  · split at h <;> cases h

theorem fetch_unimplemented {s : State} {w : Word} (h : s.fetch = .unimplemented w) :
    u32 s.pc < 1024 ∧ w = s.fetch32 (u32 s.pc) ∧ decode w = none := by
  unfold State.fetch State.fetchBy at h
  split_ifs at h with hpc hmod
  split at h
  next hd => cases h; exact ⟨Nat.not_le.1 hpc, rfl, hd⟩
  next => cases h

theorem step_isNotFault {s : State} (hs : s.status = .running) (f : Fault) : step s ≠ .fault f := by
  rw [step_of_running hs, runningBy]
  split
  · nofun
  · nofun
  · nofun
  · exact (exec_stopsAs _ s).1 f

/-- Settles O58: a step that ends a run does so in its fetch or in the instruction fetched. -/
theorem runsEndOnlyInTheListedWays : Obligations.RunsEndOnlyInTheListedWays := by
  refine fun s hs => ⟨step_isNotFault hs, fun t h ht => ?_, fun r h => ?_⟩
  · obtain ⟨-, ⟨hf, rfl⟩ | ⟨w, hf, rfl⟩ | ⟨i, hf, hexec⟩⟩ := step_next h
    · exact .inl ⟨rfl, fetch_exit hf, rfl⟩
    · obtain ⟨hpc, rfl, hd⟩ := fetch_unimplemented hf
      exact .inr ⟨.inr (.inl ⟨_, _, _, rfl⟩), nofun, hpc, .inr (.inl ⟨rfl, hd⟩)⟩
    · obtain ⟨hpc, -, hd⟩ := fetch_instr hf
      have hlt : u32 s.pc < 1024 := by omega
      obtain ⟨hhalt, rs1, imm, hst, ha⟩ | ⟨a, hfatal, ha⟩ := (exec_cause hexec).ending hs ht
      · exact .inr ⟨.inl hhalt, fun e => (by rw [EndsWell, hhalt] at e; cases e), hlt,
          .inl ⟨hhalt, i, rs1, imm, hd, hst, ha⟩⟩
      · exact .inr ⟨.inr (.inl ⟨_, _, _, hfatal⟩), fun e => (by rw [EndsWell, hfatal] at e; cases e), hlt,
          .inr (.inr ⟨i, a, hd, hfatal, ha⟩)⟩
  · have hbad : EndsBadly s ∧ ¬ EndsWell s := ⟨.inr (.inr ⟨r, h⟩), fun e => by rw [EndsWell, hs] at e; cases e⟩
    obtain ⟨-, ⟨hf, rfl⟩ | ⟨i, hf, hexec⟩⟩ := step_refused h
    · obtain ⟨hpc, hmod⟩ := fetch_misaligned hf
      exact ⟨hbad.1, hbad.2, hpc, .inl ⟨rfl, hmod⟩⟩
    · obtain ⟨hpc, -, hd⟩ := fetch_instr hf
      exact ⟨hbad.1, hbad.2, by omega, .inr ⟨i, hd, ((exec_stopsAs i s).2 r).1 hexec⟩⟩

end Sys2Proof.Machine

namespace Sys2Proof.Machine

-- ## Loads from the heap (rules R190 to R198)

theorem inHeap_params {a : Word} (hlo : params.heapBase ≤ u32 a) (hhi : u32 a < params.heapBase + 8192) :
    inHeap params a := (inHeap_iff params_wf a).2 ⟨hlo, hhi⟩

theorem not_crossesBank_iff {p : Params} {a : Word} {n : Nat} :
    ¬ crossesBank p a n ↔ (u32 a - p.heapBase) % 64 + n ≤ 64 := Nat.not_lt

theorem load_registerEffect {n : Nat} {f : List Byte → Word} {rd rs1 : RegIdx} {imm : BitVec 12} {s : State} {v : Word}
    (hrd : rd ≠ 0#5) (hin : inHeap params (effAddr s rs1 imm)) (hc : ¬ crossesBank params (effAddr s rs1 imm) n)
    (hv : f (s.heapBytes params (u32 (effAddr s rs1 imm)) n) = v) :
    ∃ t, load params n f rd rs1 imm s = .next t ∧ RegisterEffect s t rd v :=
  ⟨_, load_of_inHeap hrd hin hc, hv ▸ s.registerEffect_retire rd _⟩

theorem combineSigned_singleton (b : Byte) :
    combineSigned [b] = if b.getLsbD 7 then b.setWidth 32 ||| 0xFFFFFF00#32 else b.setWidth 32 := by
  have h := signExtend_eq_or (x := b) (n := 7) (by decide) rfl
  rw [BitVec.getLsbD_setWidth, decide_eq_true (by decide), Bool.true_and] at h
  exact h

/-- Settles O31: a byte never leaves its bank, and the sign extension ORs ones above bit 7. -/
theorem byteLoadsExtendTheHeapByte : Obligations.ByteLoadsExtendTheHeapByte := by
  intro rd rs1 imm s hrd hlo hhi b
  have hin := inHeap_params hlo hhi
  have hc := not_crossesBank_one params (effAddr s rs1 imm)
  exact ⟨load_registerEffect hrd hin hc (combineSigned_singleton b),
    load_registerEffect hrd hin hc (BitVec.ofNat_toNat 32 b).symm⟩

theorem combineOr_heapBytes_two (p : Params) (s : State) (a : Nat) :
    combineOr (s.heapBytes p a 2) = (s.heapByte p (a + 0) ||| s.heapByte p (a + 1)).setWidth 32 := by
  simp [combineOr, State.heapBytes]

theorem combineOr_heapBytes_four (p : Params) (s : State) (a : Nat) :
    combineOr (s.heapBytes p a 4) =
      (s.heapByte p (a + 0) ||| s.heapByte p (a + 1) ||| s.heapByte p (a + 2) ||| s.heapByte p (a + 3)).setWidth 32 := by
  simp [combineOr, State.heapBytes]

/-- Settles O32: inside a bank a wide load combines the bytes it covers. -/
theorem wideLoadsOrTheirBytes : Obligations.WideLoadsOrTheirBytes := by
  intro rd rs1 imm s hrd hlo hhi a b
  have hin := inHeap_params hlo hhi
  exact ⟨fun h => load_registerEffect hrd hin (not_crossesBank_iff.2 h) (combineOr_heapBytes_two params s a),
    fun h => load_registerEffect hrd hin (not_crossesBank_iff.2 h) (combineOr_heapBytes_four params s a)⟩

/-- Settles O33: an offset past 64 - n is one whose n bytes leave the bank. -/
theorem accessesAcrossBanksAreRefused : Obligations.AccessesAcrossBanksAreRefused := by
  intro rd rs1 rs2 imm s hrd hlo hhi
  have hin := inHeap_params hlo hhi
  refine ⟨fun h => ?_, fun h => ?_⟩
  · have hc : crossesBank params (effAddr s rs1 imm) 2 := by simp only [crossesBank, bankOffset]; omega
    exact ⟨load_of_crossesBank hrd hin hc, store_of_crossesBank hin hc⟩
  · have hc : crossesBank params (effAddr s rs1 imm) 4 := by simp only [crossesBank, bankOffset]; omega
    exact ⟨load_of_crossesBank hrd hin hc, store_of_crossesBank hin hc⟩

-- ## Addresses outside the ports and the heap (rules R192, R222)

theorem ReadPort.ofAddr_eq_none_of_not_mem {a : Word} (h : u32 a ∉ [2066, 2070]) : ReadPort.ofAddr a = none := by
  refine Option.eq_none_iff_forall_ne_some.2 fun port hp => h ?_
  rw [ReadPort.eq_addr hp]
  cases port <;> decide

theorem WritePort.ofAddr_eq_none_of_not_mem {a : Word}
    (h : u32 a ∉ [2048, 2052, 2056, 2060, 2080, 2084, 2088, 2096, 2100]) : WritePort.ofAddr a = none := by
  refine Option.eq_none_iff_forall_ne_some.2 fun port hp => h ?_
  rw [WritePort.eq_addr hp]
  cases port <;> decide

/-- What holds of every load under the parameters `p` holds of the four load instructions. -/
theorem forall_loads {p : Params} {P : Res → Prop} {rd rs1 : RegIdx} {imm : BitVec 12} {s : State}
    (h : ∀ n f, P (load p n f rd rs1 imm s)) :
    ∀ i ∈ [Instr.lb rd rs1 imm, .lbu rd rs1 imm, .lh rd rs1 imm, .lw rd rs1 imm], P (execWith p i s) := by
  simp only [List.forall_mem_cons]
  exact ⟨h _ _, h _ _, h _ _, h _ _, nofun⟩

/-- What holds of every store under the parameters `p` holds of the three store instructions. -/
theorem forall_stores {p : Params} {P : Res → Prop} {rs1 rs2 : RegIdx} {imm : BitVec 12} {s : State}
    (h : ∀ n, P (store p n rs1 rs2 imm s)) :
    ∀ i ∈ [Instr.sb rs1 rs2 imm, .sh rs1 rs2 imm, .sw rs1 rs2 imm], P (execWith p i s) := by
  simp only [List.forall_mem_cons]
  exact ⟨h _, h _, h _, nofun⟩

/-- Settles O34: every load and every store tests its ports, then the heap, before it does anything. -/
theorem illegalAddressesAreFatal : Obligations.IllegalAddressesAreFatal := by
  intro rd rs1 rs2 imm s hout
  have hout : ¬ inHeap params (effAddr s rs1 imm) := fun h => hout ((inHeap_iff params_wf _).1 h)
  simp only [exec_eq_execWith]
  refine ⟨fun hrd hp => ?_, fun hp => ?_⟩
  · exact forall_loads (P := fun o => ∃ t, o = .next t ∧ FatalEffect s t .illegalOperation (effAddr s rs1 imm))
      fun n f => ⟨_, load_of_illegal hrd (ReadPort.ofAddr_eq_none_of_not_mem hp) hout, s.fatalEffect_raiseFatal _ _⟩
  · exact forall_stores (P := fun o => ∃ t, o = .next t ∧ FatalEffect s t .illegalOperation (effAddr s rs1 imm))
      fun n => ⟨_, store_of_illegal (WritePort.ofAddr_eq_none_of_not_mem hp) hout, s.fatalEffect_raiseFatal _ _⟩

-- ## Stores (rules R60 to R71, R220 to R227)

theorem heapByte_storeBytes (s : State) (a n : Nat) (v : Word) (a' : Nat) :
    (s.setHeapBytes a (storeBytes v n)).advance.heapByte params a' =
      if a ≤ a' ∧ a' < a + n then v.extractLsb' (8 * (a' - a)) 8 else s.heapByte params a' := by
  rw [State.heapByte_congr (State.advance_heap _), State.heapByte_setHeapBytes, storeBytes_length]
  split
  next h => exact storeBytes_getD v (by omega)
  next => rfl

theorem State.storeEffect (s : State) (a n : Nat) (v : Word) :
    StoreEffect s (s.setHeapBytes a (storeBytes v n)).advance a n v where
  heap := heapByte_storeBytes s a n v
  istore _ := by simp [State.istoreByte]
  pc := by simp
  regs r := by simp
  banks := ⟨by simp, by simp⟩
  input := ⟨by simp, by simp⟩
  output := ⟨by simp, by simp⟩

/-- Settles O39: the three stores are one operation of 1, 2 or 4 bytes. -/
theorem storesWriteTheirBytesLittleEndian : Obligations.StoresWriteTheirBytesLittleEndian := by
  intro rs1 rs2 imm s hlo hhi
  have store_storeEffect {n : Nat} (h : (u32 (effAddr s rs1 imm) - params.heapBase) % 64 + n ≤ 64) :
      ∃ t, store params n rs1 rs2 imm s = .next t ∧ StoreEffect s t (u32 (effAddr s rs1 imm)) n (s.readReg rs2) :=
    ⟨_, store_of_inHeap (inHeap_params hlo hhi) (not_crossesBank_iff.2 h), s.storeEffect _ n _⟩
  simp only [List.forall_mem_cons]
  exact ⟨store_storeEffect, store_storeEffect, store_storeEffect, nofun⟩

/-- A store of any width to a port is that port's write of the whole register. -/
theorem execWith_store_of_port {p : Params} {rs1 rs2 : RegIdx} {imm : BitVec 12} {s : State} {port : WritePort}
    (h : effAddr s rs1 imm = port.addr) :
    ∀ i ∈ [Instr.sb rs1 rs2 imm, .sh rs1 rs2 imm, .sw rs1 rs2 imm],
      execWith p i s = portWrite p port (s.readReg rs2) s :=
  forall_stores (P := (· = portWrite p port (s.readReg rs2) s)) fun _ => store_of_port (h ▸ port.ofAddr_addr)

theorem exec_store_of_port {rs1 rs2 : RegIdx} {imm : BitVec 12} {s : State} {port : WritePort} {i : Instr}
    (h : effAddr s rs1 imm = port.addr) (hi : i ∈ [Instr.sb rs1 rs2 imm, .sh rs1 rs2 imm, .sw rs1 rs2 imm]) :
    exec i s = portWrite params port (s.readReg rs2) s :=
  (exec_eq_execWith i s).trans (execWith_store_of_port h i hi)

theorem State.outputEffect_emit (s : State) (e : OutEvent) : OutputEffect s (s.emit e).advance e :=
  ⟨rfl, rfl, rfl, fun _ => rfl, keepsMemory_of_eq rfl rfl, ⟨rfl, rfl⟩, ⟨rfl, rfl⟩⟩

/-- Settles O40: a store to a port is the port's write, at any width. -/
theorem consolePortsEmitTheRegister : Obligations.ConsolePortsEmitTheRegister := by
  intro rs1 rs2 imm s i hi
  simp only [List.forall_mem_cons]
  exact ⟨fun h => ⟨_, exec_store_of_port (port := .char) h hi, s.outputEffect_emit _⟩,
    fun h => ⟨_, exec_store_of_port (port := .dec) h hi, s.outputEffect_emit _⟩,
    fun h => ⟨_, exec_store_of_port (port := .hex) h hi, s.outputEffect_emit _⟩, nofun⟩

/-- Settles O41: the halt port sets the status, at which a step is the fault terminated. -/
theorem haltPortEndsTheRun : Obligations.HaltPortEndsTheRun :=
  fun _ _ _ _ h _ hi => ⟨exec_store_of_port (port := .halt) h hi, rfl, step_of_not_running nofun⟩

/-- Settles O42: the pc is still that of the store, and the view of the registers lists what they read. -/
theorem dumpPortsShowPcAndRegisters : Obligations.DumpPortsShowPcAndRegisters :=
  fun _ _ _ s _ hi =>
    ⟨fun h => ⟨_, exec_store_of_port (port := .dumpPc) h hi, s.outputEffect_emit _⟩,
      fun h => ⟨_, _, exec_store_of_port (port := .dumpRegs) h hi, s.outputEffect_emit _, s.regView_get⟩⟩

theorem portDumpByte_of_inHeap {p : Params} {v : Word} {s : State} (h : inHeap p v) :
    portDumpByte p v s = .next (s.emit (.dumpByte (s.heapByte p (u32 v)))).advance := if_pos h

theorem portDumpByte_of_not_inHeap {p : Params} {v : Word} {s : State} (h : ¬ inHeap p v) :
    portDumpByte p v s = .refused .dumpAddressOutOfHeap := if_neg h

/-- Port 2088 under any parameters that meet rule R52: HEAP_BASE stays a variable, which no tactic tries to compute. -/
theorem execWith_dumpByte {p : Params} (hp : p.wf) (rs1 rs2 : RegIdx) (imm : BitVec 12) (s : State)
    (h : effAddr s rs1 imm = 2088#32) :
    ∀ i ∈ [Instr.sb rs1 rs2 imm, .sh rs1 rs2 imm, .sw rs1 rs2 imm],
      if p.heapBase ≤ u32 (s.readReg rs2) ∧ u32 (s.readReg rs2) < p.heapBase + 8192 then
        ∃ t, execWith p i s = .next t ∧ OutputEffect s t (.dumpByte (s.heapByte p (u32 (s.readReg rs2))))
      else execWith p i s = .refused .dumpAddressOutOfHeap := by
  intro i hi
  have hport := execWith_store_of_port (p := p) (port := .dumpByte) h i hi
  split
  next hin => exact ⟨_, hport.trans (portDumpByte_of_inHeap ((inHeap_iff hp _).2 hin)), s.outputEffect_emit _⟩
  next hout => exact hport.trans (portDumpByte_of_not_inHeap fun h => hout ((inHeap_iff hp _).1 h))

theorem exec_eq : exec = execWith params := funext₂ exec_eq_execWith

/-- Settles O43, for any HEAP_BASE. -/
theorem dumpBytePortShowsAHeapByte : Obligations.DumpBytePortShowsAHeapByte := by
  unfold Obligations.DumpBytePortShowsAHeapByte
  rw [exec_eq]
  have hp := params_wf
  generalize params = p at hp ⊢
  exact execWith_dumpByte hp

theorem alloc_of_allocScan {t : Vector Word 128} {nextId size k : Nat} (h : allocScan t (banksNeeded size) = some k)
    (hid : nextId < 4294967296) : ∃ g, alloc t nextId size = .took k g (nextId + 1) := by
  rw [alloc, h]
  exact ⟨_, if_neg (Nat.not_le.2 hid)⟩

theorem alloc_four_of_free {t : Vector Word 128} {nextId k : Nat} (hk : k < 128) (hfree : tagAt t k = 0#32)
    (hbelow : ∀ j, j < k → tagAt t j ≠ 0#32) (hid : nextId < 4294967296) :
    ∃ g, alloc t nextId 4 = .took k g (nextId + 1) :=
  alloc_of_allocScan (firstFree_eq_some_iff.2 ⟨hk, hfree, hbelow⟩) hid

theorem alloc_four_full {t : Vector Word 128} (h : ∀ k, k < 128 → tagAt t k ≠ 0#32) (nextId : Nat) :
    alloc t nextId 4 = .full := by
  refine alloc_full.2 (Option.eq_none_iff_forall_ne_some.2 fun k hk => ?_)
  obtain ⟨hlt, hfree, -⟩ := firstFree_eq_some_iff.1 hk
  exact h k hlt hfree

theorem portAlloc_params (v : Word) (s : State) :
    portAlloc params v s =
      match alloc s.tags s.nextId 4 with
      | .took k tags nextId => .next ((s.setBanks tags nextId).retire 28#5 (bankAddr params k))
      | .full => .next (s.retire 28#5 0#32)
      | .idExhausted => .refused .allocIdExhausted := rfl

theorem State.bankEffect_setBanks_retire (s : State) (g : Vector Word 128) (n : Nat) (v : Word) :
    BankEffect s ((s.setBanks g n).retire 28#5 v) (some v) g n :=
  have h := (s.setBanks g n).bankEffect_retire v
  ⟨h.regs, h.tags, h.nextId, h.pc, ⟨h.memory.heap, h.memory.istore⟩, ⟨h.input.inputPos, h.input.reads⟩,
    ⟨h.output.out, h.output.status⟩⟩

/-- Settles O44: under D17 every request is for one bank, and the scan for one bank finds the lowest free one. -/
theorem allocatePortTakesTheLowestFreeBank : Obligations.AllocatePortTakesTheLowestFreeBank := by
  intro rs1 rs2 imm s h i hi
  rw [show exec i s = portAlloc params (s.readReg rs2) s from exec_store_of_port (port := .alloc) h hi,
    portAlloc_params]
  refine ⟨fun k hk hfree hbelow hid => ?_, fun hfull => ?_, fun hsome hid => ?_⟩
  · obtain ⟨g, hg⟩ := alloc_four_of_free hk hfree hbelow hid
    obtain ⟨-, -, -, htags⟩ := alloc_four_took hg
    rw [hg]
    exact ⟨_, g, rfl, s.bankEffect_setBanks_retire g _ _, htags⟩
  · rw [alloc_four_full hfull]
    exact ⟨_, rfl, s.bankEffect_retire 0#32⟩
  · rw [alloc_four_idExhausted.2 ⟨hsome, hid⟩]

theorem State.bankEffect_setBanks (s : State) (g : Vector Word 128) :
    BankEffect s (s.setBanks g s.nextId).advance none g s.nextId :=
  ⟨fun _ => rfl, rfl, rfl, rfl, keepsMemory_of_eq rfl rfl, ⟨rfl, rfl⟩, ⟨rfl, rfl⟩⟩

theorem freeTags_params (t : Vector Word 128) (a : Word) :
    freeTags params t a = if params.heapBase ≤ u32 a ∧ u32 a < params.heapBase + 8192
      then release t ((u32 a - params.heapBase) / 64) else t := by
  rw [freeTags, freeBank]
  simp only [inHeap_iff params_wf, params_freeOutOfHeap]
  split_ifs <;> rfl

/-- Settles O46: under D19 an address outside the heap leaves the tags. -/
theorem freePortReleasesFromTheOwningBank : Obligations.FreePortReleasesFromTheOwningBank := by
  intro rs1 rs2 imm s h i hi
  rw [← freeTags_params]
  exact ⟨_, exec_store_of_port (port := .free) h hi, s.bankEffect_setBanks _⟩

-- ## A load after a store (rule R100)

theorem extractByte_setWidth (v : Word) (k : Nat) :
    (v.extractLsb' k 8).setWidth 32 = BitVec.ofNat 32 (u32 v / 2 ^ k % 256) := by
  refine BitVec.eq_of_toNat_eq ?_
  rw [BitVec.toNat_setWidth, BitVec.extractLsb'_toNat, Nat.shiftRight_eq_div_pow, BitVec.toNat_ofNat]

/-- The heap bytes from an address up are those of a list that holds each of them in its place. -/
theorem heapBytes_eq_of_getElem {p : Params} {t : State} : ∀ {bs : List Byte} {a : Nat},
    (∀ k (hk : k < bs.length), t.heapByte p (a + k) = bs[k]) → t.heapBytes p a bs.length = bs
  | [], _, _ => rfl
  | b :: bs, a, h => by
    have htail : t.heapBytes p (a + 1) bs.length = bs := heapBytes_eq_of_getElem fun k hk => by
      rw [show a + 1 + k = a + (k + 1) by omega]
      exact h (k + 1) (Nat.succ_lt_succ hk)
    rw [List.length_cons, State.heapBytes, htail]
    exact congrArg (· :: bs) (h 0 (by simp))

/-- The bytes from where a word was stored are the word's, least significant first. -/
theorem heapBytes_of_storeEffect {s t : State} {a n : Nat} {v : Word} (h : StoreEffect s t a 4 v) (hn : n ≤ 4) :
    t.heapBytes params a n = storeBytes v n := by
  have hb := heapBytes_eq_of_getElem (p := params) (t := t) (bs := storeBytes v n) (a := a) fun k hk => by
    rw [storeBytes_length] at hk
    rw [h.heap, if_pos (by omega), Nat.add_sub_cancel_left]
    simp [storeBytes]
  rwa [storeBytes_length] at hb

theorem combineUnsigned_storeBytes (v : Word) : combineUnsigned (storeBytes v 1) = BitVec.ofNat 32 (u32 v % 256) := by
  rw [show combineUnsigned (storeBytes v 1) = (v.extractLsb' 0 8).setWidth 32 from rfl, extractByte_setWidth, pow_zero,
    Nat.div_one]

theorem combineOr_storeBytes (v : Word) :
    combineOr (storeBytes v 4) = BitVec.ofNat 32 (u32 v % 256 ||| u32 v / 256 % 256 ||| u32 v / 65536 % 256 |||
      u32 v / 16777216) := by
  have hv : u32 v / 16777216 = u32 v / 16777216 % 256 := by
    have := v.isLt
    simp only [u32]
    omega
  rw [hv]
  have hbytes : combineOr (storeBytes v 4) = (0#8 ||| v.extractLsb' 0 8 ||| v.extractLsb' 8 8 ||| v.extractLsb' 16 8 |||
      v.extractLsb' 24 8).setWidth 32 := rfl
  rw [hbytes, BitVec.zero_or]
  simp only [BitVec.setWidth_or, extractByte_setWidth, BitVec.ofNat_or, pow_zero, Nat.div_one, Nat.reducePow]

/-- Settles O47: the bytes from the address up are those of the stored word. -/
theorem loadsSeeTheStoredBytes : Obligations.LoadsSeeTheStoredBytes := by
  intro rd rs1 rs2 imm s t hrd hlo hhi hbank h
  have hin := inHeap_params hlo hhi
  have hc := not_crossesBank_iff.2 hbank
  have hs : StoreEffect s t (u32 (effAddr s rs1 imm)) 4 (s.readReg rs2) := by
    cases (store_of_inHeap (rs2 := rs2) hin hc).symm.trans h
    exact s.storeEffect _ 4 _
  have ha : effAddr t rs1 imm = effAddr s rs1 imm := congrArg (· + immWord12 imm) (hs.regs rs1)
  rw [← ha] at hin hc hs
  refine ⟨load_registerEffect hrd hin (not_crossesBank_one _ _) ?_, load_registerEffect hrd hin hc ?_⟩
  · rw [heapBytes_of_storeEffect hs (by decide), combineUnsigned_storeBytes]
  · rw [heapBytes_of_storeEffect hs (by decide), combineOr_storeBytes]

end Sys2Proof.Machine

namespace Sys2Proof.Machine

-- ## The read ports (rules R72 to R75)

theorem State.readEffect (s : State) (rd : RegIdx) (v : Word) (k : Nat) :
    ReadEffect s ((s.tookInput k).retire rd v) rd v k where
  regs := (s.tookInput k).setsReg_retire rd v
  inputPos := by simp
  reads := by simp
  pc := by simp
  memory := keepsMemory_of_eq (by simp) (by simp)
  banks := ⟨by simp, by simp⟩
  output := ⟨by simp, by simp⟩

section ReadPort
variable {p : Params} {s : State}

theorem portLoad_readEffect {port : ReadPort} {v : Word} {k : Nat} (rd : RegIdx)
    (h : portAnswer p port s = .answer v k) : ∃ t, portLoad p port rd s = .next t ∧ ReadEffect s t rd v k := by
  rw [portLoad, h]
  exact ⟨_, rfl, s.readEffect rd v k⟩

theorem portLoad_held {port : ReadPort} {rd : RegIdx} (h : portAnswer p port s = .held) :
    portLoad p port rd s = .next s := by
  rw [portLoad, h]

/-- A load of any width from a read port, rd not 0, is that port's load. -/
theorem execWith_load_of_port {port : ReadPort} {rd rs1 : RegIdx} {imm : BitVec 12} (hrd : rd ≠ 0#5)
    (h : effAddr s rs1 imm = port.addr) :
    ∀ i ∈ [Instr.lb rd rs1 imm, .lbu rd rs1 imm, .lh rd rs1 imm, .lw rd rs1 imm],
      execWith p i s = portLoad p port rd s :=
  forall_loads (P := (· = portLoad p port rd s)) fun _ _ => load_of_port hrd (h ▸ port.ofAddr_addr)

-- ## Characters

theorem readChar_of_unread {ws rest : List Byte} {c : Byte} (h : s.unread p = ws ++ c :: rest)
    (hws : ∀ b ∈ ws, isSpace b = true) (hc : isSpace c = false) :
    readChar p s = .answer (if c.toNat ≤ 127 then c.setWidth 32 else s.drawn p) (ws.length + 1) := by
  have hlen : (ws ++ c :: rest).length - rest.length = ws.length + 1 := by simp; omega
  rw [readChar, h, List.dropWhile_append_of_pos hws, List.dropWhile_cons_of_neg (by simp [hc])]
  exact congrArg _ hlen

theorem readChar_of_spaces (h : ∀ b ∈ s.unread p, isSpace b = true) :
    readChar p s = if s.inputEnded p then drawAnswer p s else .held := by
  rw [readChar, List.dropWhile_eq_nil_iff.2 h]

/-- A read that answers consumes no more characters than remain. -/
def AnswersWithin (p : Params) (s : State) (a : ReadAnswer) : Prop :=
  ∃ v k, a = .answer v k ∧ k ≤ (s.unread p).length

theorem drawAnswer_eq : ∃ k, drawAnswer p s = .answer (s.drawn p) k ∧ k ≤ (s.unread p).length :=
  ⟨_, rfl, min_le_right _ _⟩

theorem answersWithin_drawAnswer : AnswersWithin p s (drawAnswer p s) := ⟨s.drawn p, drawAnswer_eq⟩

theorem readChar_of_inputEnded (h : s.inputEnded p = true) : AnswersWithin p s (readChar p s) := by
  rw [readChar]
  split
  · exact ⟨_, _, rfl, Nat.sub_le _ _⟩
  · rw [if_pos h]
    exact answersWithin_drawAnswer

-- ## Numerals

theorem isSpace_of_isDigit {b : Byte} (h : isDigit b = true) : isSpace b = false ∧ b ≠ 0x2B#8 ∧ b ≠ 0x2D#8 := by
  simp only [isDigit, Bool.and_eq_true, decide_eq_true_iff] at h
  have hne : ∀ c : Byte, c.toNat < 48 → b ≠ c := by
    rintro c hc rfl
    omega
  refine ⟨?_, hne _ (by decide), hne _ (by decide)⟩
  simp only [isSpace, hne 0x20#8 (by decide), decide_false, Bool.false_or, Bool.and_eq_false_iff, decide_eq_false_iff_not]
  omega

/-- Before the digits of a numeral stand whitespace and a sign, and where there is no sign, what follows is neither. -/
structure NumeralStart (ws sign t : List Byte) : Prop where
  spaces : ∀ b ∈ ws, isSpace b = true
  isSign : sign ∈ [[], [0x2B#8], [0x2D#8]]
  unsigned : sign = [] → ∀ b ∈ t.head?, isSpace b = false ∧ b ≠ 0x2B#8 ∧ b ≠ 0x2D#8

theorem isDigit_head {ds rest : List Byte} (hne : ds ≠ []) (hds : ∀ d ∈ ds, isDigit d = true) :
    ∀ b ∈ (ds ++ rest).head?, isSpace b = false ∧ b ≠ 0x2B#8 ∧ b ≠ 0x2D#8 := by
  cases ds with
  | nil => exact absurd rfl hne
  | cons d ds =>
    rintro b hb
    cases hb
    exact isSpace_of_isDigit (hds d List.mem_cons_self)

theorem signedValue_decide {c : Prop} [Decidable c] {ds : List Byte} :
    signedValue (decide c) ds = if c then -(digitsValue ds : Int) else (digitsValue ds : Int) := by
  simp [signedValue]

theorem splitSign_of_unsigned {t : List Byte} (h : ∀ b ∈ t.head?, isSpace b = false ∧ b ≠ 0x2B#8 ∧ b ≠ 0x2D#8) :
    splitSign (t.dropWhile isSpace) = (false, t) := by
  cases t with
  | nil => rfl
  | cons b t =>
    obtain ⟨hspace, hplus, hminus⟩ := h b rfl
    rw [List.dropWhile_cons_of_neg (by simp [hspace]), splitSign, if_neg hminus, if_neg hplus]

theorem readInt_of_unread {ws sign t : List Byte} (h : s.unread p = ws ++ sign ++ t) (hn : NumeralStart ws sign t) :
    readInt p s = readDigits p s (decide (sign = [0x2D#8])) t := by
  have hsplit : splitSign ((s.unread p).dropWhile isSpace) = (decide (sign = [0x2D#8]), t) := by
    rw [h, List.append_assoc, List.dropWhile_append_of_pos hn.spaces]
    have hsign := hn.isSign
    simp only [List.mem_cons, List.not_mem_nil, or_false] at hsign
    obtain rfl | rfl | rfl := hsign
    · exact splitSign_of_unsigned (hn.unsigned rfl)
    · rfl
    · rfl
  rw [readInt, hsplit]

theorem readDigits_of_inputEnded {neg : Bool} {t : List Byte} (h : s.inputEnded p = true) :
    AnswersWithin p s (readDigits p s neg t) := by
  rw [readDigits, if_neg (by simp [h])]
  split
  · exact ⟨_, _, rfl, Nat.sub_le _ _⟩
  · exact answersWithin_drawAnswer

theorem readDigits_held {neg : Bool} {ds : List Byte} (hds : ∀ d ∈ ds, isDigit d = true)
    (h : s.inputEnded p = false) : readDigits p s neg ds = .held :=
  if_pos ⟨List.dropWhile_eq_nil_iff.2 hds, h⟩

/-- The digits at the front and what ends them. -/
theorem span_digits {ds rest : List Byte} (hds : ∀ d ∈ ds, isDigit d = true)
    (hrest : ∀ d ∈ rest.head?, isDigit d = false) :
    (ds ++ rest).takeWhile isDigit = ds ∧ (ds ++ rest).dropWhile isDigit = rest := by
  rw [List.takeWhile_append_of_pos hds, List.dropWhile_append_of_pos hds]
  cases rest with
  | nil => simp
  | cons c rest => simp [hrest c rfl]

theorem readDigits_of_fits {neg : Bool} {ds rest : List Byte} (hne : ds ≠ []) (hds : ∀ d ∈ ds, isDigit d = true)
    (hrest : ∀ d ∈ rest.head?, isDigit d = false) (hend : rest = [] → s.inputEnded p = true)
    (hfits : fitsS32 (signedValue neg ds)) :
    readDigits p s neg (ds ++ rest) =
      .answer (BitVec.ofInt 32 (signedValue neg ds)) ((s.unread p).length - rest.length) := by
  obtain ⟨htake, hdrop⟩ := span_digits hds hrest
  rw [readDigits, htake, hdrop, if_neg fun h => by simp [hend h.1] at h, if_pos ⟨hne, hfits⟩]

theorem readDigits_of_malformed {neg : Bool} {ds rest : List Byte} {c : Byte} (hds : ∀ d ∈ ds, isDigit d = true)
    (hc : isDigit c = false) (hbad : ds = [] ∨ ¬ fitsS32 (signedValue neg ds)) :
    readDigits p s neg (ds ++ c :: rest) = drawAnswer p s := by
  obtain ⟨htake, hdrop⟩ := span_digits (rest := c :: rest) hds (by simpa using hc)
  rw [readDigits, htake, hdrop, if_neg (by simp), if_neg]
  exact fun h => hbad.elim h.1 fun hn => hn h.2

end ReadPort

/-- Settles O35: whitespace is dropped, and the next character is the answer. -/
theorem characterPortReadsPastWhitespace : Obligations.CharacterPortReadsPastWhitespace := by
  intro p rd rs1 imm s ws rest c hrd ha hunread hws hc i hi
  obtain ⟨t, ht, hread⟩ := portLoad_readEffect (port := .char) rd (readChar_of_unread hunread hws hc)
  refine ⟨t, _, (execWith_load_of_port (port := .char) hrd ha i hi).trans ht, hread, fun hle => ?_⟩
  rw [if_pos hle, BitVec.ofNat_toNat]

/-- Settles O36: whitespace and the sign are dropped, the digits end where the numeral does, and its value fits. -/
theorem integerPortReadsANumeral : Obligations.IntegerPortReadsANumeral := by
  intro p rd rs1 imm s ws sign ds rest hrd ha hunread hws hsign hne hds hrest hend n hn hlo hhi i hi
  rw [← signedValue_decide] at hn
  subst hn
  have hread := (readInt_of_unread (hunread.trans (List.append_assoc ..)) ⟨hws, hsign, fun _ => isDigit_head hne hds⟩).trans
    (readDigits_of_fits hne hds hrest hend ⟨hlo, hhi⟩)
  have hcount : (s.unread p).length - rest.length = ws.length + sign.length + ds.length := by
    rw [hunread]
    simp only [List.length_append]
    omega
  rw [hcount] at hread
  rw [execWith_load_of_port (port := .int) hrd ha i hi]
  exact portLoad_readEffect rd hread

/-- Settles O37: what remains is spaces, or a sign and digits that nothing ends. -/
theorem readPortsHoldUntilTheHostAnswers : Obligations.ReadPortsHoldUntilTheHostAnswers := by
  intro p rd rs1 imm s hrd hopen i hi
  have held {port : ReadPort} (ha : effAddr s rs1 imm = port.addr) (h : portAnswer p port s = .held) :
      execWith p i s = .next s := (execWith_load_of_port hrd ha i hi).trans (portLoad_held h)
  have int_held {ws sign ds : List Byte} (h : s.unread p = ws ++ sign ++ ds) (hws : ∀ b ∈ ws, isSpace b = true)
      (hsign : sign ∈ [[], [0x2B#8], [0x2D#8]]) (hds : ∀ d ∈ ds, isDigit d = true) : readInt p s = .held :=
    (readInt_of_unread h ⟨hws, hsign, fun _ b hb => isSpace_of_isDigit (hds b (List.mem_of_mem_head? hb))⟩).trans
      (readDigits_held hds hopen)
  refine ⟨fun ha hspaces => ?_, fun ws sign ds ha h hws hsign hds => held (port := .int) ha (int_held h hws hsign hds)⟩
  simp only [List.mem_cons, List.not_mem_nil, or_false] at ha
  obtain ha | ha := ha
  · refine held (port := .char) ha ?_
    rw [portAnswer, readChar_of_spaces hspaces, hopen]
    rfl
  · exact held (port := .int) ha (int_held (ws := s.unread p) (sign := []) (ds := []) (by simp) hspaces (by simp) (by simp))

/-- Settles O38: an ended input answers in every case, and a numeral that is malformed or does not fit draws. -/
theorem readPortsCompleteAfterTheInputEnds : Obligations.ReadPortsCompleteAfterTheInputEnds := by
  intro p rd rs1 imm s hrd i hi
  have completes {port : ReadPort} (ha : effAddr s rs1 imm = port.addr) (h : AnswersWithin p s (portAnswer p port s)) :
      ∃ t v k, execWith p i s = .next t ∧ ReadEffect s t rd v k ∧ k ≤ (s.unread p).length := by
    obtain ⟨v, k, hvk, hk⟩ := h
    obtain ⟨t, ht, hread⟩ := portLoad_readEffect rd hvk
    exact ⟨t, v, k, (execWith_load_of_port hrd ha i hi).trans ht, hread, hk⟩
  refine ⟨fun ha hended => ?_, fun ws sign ds rest c ha h hws hsign hds hc hunsigned hbad => ?_⟩
  · simp only [List.mem_cons, List.not_mem_nil, or_false] at ha
    obtain ha | ha := ha
    · exact completes (port := .char) ha (readChar_of_inputEnded hended)
    · exact completes (port := .int) ha (readDigits_of_inputEnded hended)
  · have hstart : NumeralStart ws sign (ds ++ c :: rest) := ⟨hws, hsign, fun hs => by
      by_cases hne : ds = []
      · subst hne
        simpa using hunsigned hs rfl
      · exact isDigit_head hne hds⟩
    rw [← signedValue_decide] at hbad
    have hdraw := (readInt_of_unread (h.trans (List.append_assoc ..)) hstart).trans (readDigits_of_malformed hds hc hbad)
    obtain ⟨k, hk, hle⟩ := drawAnswer_eq (p := p) (s := s)
    obtain ⟨t, ht, hread⟩ := portLoad_readEffect (port := .int) rd (hdraw.trans hk)
    exact ⟨t, k, (execWith_load_of_port (port := .int) hrd ha i hi).trans ht, hread, hle⟩

end Sys2Proof.Machine

namespace Sys2Proof.Machine

-- ## The allocation scans find the lowest fitting run (rules R80 to R86)

/-- The `need` banks from `k` on exist and are free. -/
def Fits (t : Vector Word 128) (need k : Nat) : Prop :=
  k + need ≤ 128 ∧ ∀ i, k ≤ i → i < k + need → tagAt t i = 0#32

/-- One of the `need` banks from `k` on is taken. -/
def Blocked (t : Vector Word 128) (need k : Nat) : Prop := ∃ i, k ≤ i ∧ i < k + need ∧ tagAt t i ≠ 0#32

theorem Blocked.not_fits {t : Vector Word 128} {need k : Nat} (h : Blocked t need k) : ¬ Fits t need k :=
  fun ⟨_, hfree⟩ => let ⟨i, hki, hi, htaken⟩ := h; htaken (hfree i hki hi)

/-- What a scan from bank `k` answers: the first bank from there that begins a fitting run, none where there is none. -/
def LowestFitFrom (t : Vector Word 128) (need k : Nat) : Option Nat → Prop
  | some m => k ≤ m ∧ Fits t need m ∧ ∀ k', k ≤ k' → k' < m → Blocked t need k'
  | none => ∀ k', k ≤ k' → k' + need ≤ 128 → Blocked t need k'

/-- A scan may start later by the banks at which no run can begin. -/
theorem LowestFitFrom.of_blocked {t : Vector Word 128} {need k j : Nat} {o : Option Nat} (hkj : k ≤ j)
    (hb : ∀ k', k ≤ k' → k' < j → Blocked t need k') (h : LowestFitFrom t need j o) : LowestFitFrom t need k o := by
  cases o with
  | some m =>
    obtain ⟨hjm, hfits, hbelow⟩ := h
    exact ⟨hkj.trans hjm, hfits, fun k' hk hm => (Nat.lt_or_ge k' j).elim (hb k' hk) (hbelow k' · hm)⟩
  | none => exact fun k' hk hfit => (Nat.lt_or_ge k' j).elim (hb k' hk) (h k' · hfit)

theorem fits_one {t : Vector Word 128} {k : Nat} : Fits t 1 k ↔ k < 128 ∧ tagAt t k = 0#32 := by
  refine ⟨fun ⟨hk, hfree⟩ => ⟨hk, hfree k le_rfl (Nat.lt_succ_self k)⟩, fun ⟨hk, hfree⟩ => ⟨hk, fun i hki hi => ?_⟩⟩
  rwa [show i = k by omega]

theorem blocked_one {t : Vector Word 128} {k : Nat} (h : tagAt t k ≠ 0#32) : Blocked t 1 k :=
  ⟨k, le_rfl, Nat.lt_succ_self k, h⟩

theorem lowestFitFrom_firstFree (t : Vector Word 128) : LowestFitFrom t 1 0 (firstFree t 128 0) := by
  cases h : firstFree t 128 0 with
  | some m =>
    obtain ⟨hm, hfree, hbelow⟩ := firstFree_eq_some_iff.1 h
    exact ⟨Nat.zero_le m, fits_one.2 ⟨hm, hfree⟩, fun k' _ hk => blocked_one (hbelow k' hk)⟩
  | none => exact fun k' _ hk => blocked_one (firstFree_none h k' (Nat.zero_le k') (by omega))

/-- The free banks `k .. j - 1` that the inner loop has counted. -/
structure CountedRun (t : Vector Word 128) (need k j run : Nat) : Prop where
  count : k + run = j
  inside : j ≤ 128
  atMost : run ≤ need
  free : ∀ i, k ≤ i → i < j → tagAt t i = 0#32

/-- The inner loop counts on until it has enough, or the banks end, or one is taken. -/
theorem freeRun_spec {t : Vector Word 128} {need k : Nat} : ∀ {fuel j run : Nat}, 128 ≤ j + fuel →
    CountedRun t need k j run →
    CountedRun t need k (freeRun t need fuel j run).1 (freeRun t need fuel j run).2 ∧
      ((freeRun t need fuel j run).2 = need ∨ (freeRun t need fuel j run).1 = 128 ∨
        tagAt t (freeRun t need fuel j run).1 ≠ 0#32) := by
  intro fuel
  induction fuel with
  | zero => exact fun hf h => ⟨h, .inr (.inl (Nat.le_antisymm h.inside hf))⟩
  | succ fuel ih =>
    intro j run hf h
    obtain ⟨hcount, hin, hmost, hfree⟩ := id h
    rw [freeRun]
    split
    next hgo =>
      obtain ⟨hj, hj0, hrun⟩ := hgo
      refine ih (by omega) ⟨by omega, by omega, by omega, fun i hki hij => ?_⟩
      obtain hlt | rfl := Nat.lt_succ_iff_lt_or_eq.1 hij
      · exact hfree i hki hlt
      · exact hj0
    next hstop =>
      refine ⟨h, ?_⟩
      by_contra hcon
      simp only [not_or, not_not] at hcon
      exact hstop ⟨by omega, hcon.2.2, by omega⟩

theorem lowestFitFrom_firstFit {t : Vector Word 128} {need : Nat} (hneed : 1 ≤ need) : ∀ {fuel k : Nat},
    128 ≤ k + fuel → LowestFitFrom t need k (firstFit t need fuel k) := by
  intro fuel
  induction fuel with
  | zero => exact fun hf k' hk hfit => by omega
  | succ fuel ih =>
    intro k hf
    rw [firstFit]
    split
    next hk => exact fun k' hk' hfit => by omega
    split
    next hk htaken =>
      refine (ih (k := k + 1) (by omega)).of_blocked (Nat.le_succ k) fun k' hk1 hk2 => ?_
      exact ⟨k, by omega, by omega, htaken⟩
    next hk hfree =>
      have hstart : CountedRun t need k k 0 := ⟨rfl, by omega, Nat.zero_le _, fun i h1 h2 => by omega⟩
      obtain ⟨⟨hcount, hin, hmost, hrun⟩, hstop⟩ := freeRun_spec (fuel := 128) (by omega) hstart
      split
      next henough =>
        refine ⟨le_rfl, ⟨by omega, fun i hki hi => hrun i hki (by omega)⟩, fun k' h1 h2 => by omega⟩
      split
      next hshort hend => exact fun k' hk' hfit => by omega
      next hshort hend =>
        have htaken := (hstop.resolve_left hshort).resolve_left (by omega)
        have hne : (freeRun t need 128 k 0).1 ≠ k := fun e => hfree (e ▸ htaken)
        refine (ih (by omega)).of_blocked (by omega) fun k' h1 h2 => ?_
        exact ⟨_, h2.le, by omega, htaken⟩

theorem lowestFitFrom_allocScan {t : Vector Word 128} {need : Nat} (hneed : 1 ≤ need) :
    LowestFitFrom t need 0 (allocScan t need) := by
  rw [allocScan]
  split
  next h => exact h ▸ lowestFitFrom_firstFree t
  next => exact lowestFitFrom_firstFit hneed (by decide)

theorem allocScan_eq_some_iff {t : Vector Word 128} {need k : Nat} (hneed : 1 ≤ need) :
    allocScan t need = some k ↔ Fits t need k ∧ ∀ k', k' < k → Blocked t need k' := by
  have hscan := lowestFitFrom_allocScan (t := t) hneed
  constructor
  · intro h
    rw [h] at hscan
    exact ⟨hscan.2.1, fun k' => hscan.2.2 k' (Nat.zero_le k')⟩
  · rintro ⟨hfits, hbelow⟩
    cases h : allocScan t need with
    | none =>
      rw [h] at hscan
      exact absurd hfits (hscan k (Nat.zero_le k) hfits.1).not_fits
    | some m =>
      rw [h] at hscan
      obtain ⟨-, hm, hmbelow⟩ := hscan
      obtain hlt | rfl | hgt := Nat.lt_trichotomy m k
      · exact absurd hm (hbelow m hlt).not_fits
      · rfl
      · exact absurd hfits (hmbelow k (Nat.zero_le k) hgt).not_fits

theorem allocScan_eq_none_iff {t : Vector Word 128} {need : Nat} (hneed : 1 ≤ need) :
    allocScan t need = none ↔ ∀ k, k + need ≤ 128 → Blocked t need k := by
  have hscan := lowestFitFrom_allocScan (t := t) hneed
  refine ⟨fun h k => ?_, fun h => Option.eq_none_iff_forall_ne_some.2 fun k hk => ?_⟩
  · rw [h] at hscan
    exact hscan k (Nat.zero_le k)
  · obtain ⟨hfits, -⟩ := (allocScan_eq_some_iff hneed).1 hk
    exact (h k hfits.1).not_fits hfits

/-- Settles O48: a scan skips only banks at which a taken bank blocks every run. -/
theorem allocationTakesTheLowestFittingRun : Obligations.AllocationTakesTheLowestFittingRun := by
  intro t nextId size need
  have hneed : 1 ≤ need ∧ size ≤ 64 * need ∧ (need = 1 ∨ 64 * (need - 1) < size) := by
    simp only [need, banksNeeded]
    omega
  refine ⟨hneed, fun k => ?_, allocScan_eq_none_iff hneed.1, fun k => alloc_of_allocScan, fun k g n h => ?_⟩
  · rw [allocScan_eq_some_iff hneed.1, Fits, and_assoc]
    rfl
  · obtain ⟨hscan, hid, hn, rfl⟩ := alloc_took h
    exact ⟨hscan, hid, hn, fun i hi => tagAt_stamp t k need i _ hi⟩

-- ## Allocations from reset (rule R86)

/-- The tags after `n` allocations from reset: banks 0 to n - 1 carry the ids 1 to n. -/
def CarriesFirstIds (n : Nat) (t : Vector Word 128) : Prop :=
  ∀ k, k < 128 → tagAt t k = if k < n then BitVec.ofNat 32 (k + 1) else 0#32

theorem firstId_ne_zero {k : Nat} (hk : k < 128) : BitVec.ofNat 32 (k + 1) ≠ 0#32 := fun h => by
  have htoNat := congrArg BitVec.toNat h
  simp only [BitVec.toNat_ofNat] at htoNat
  omega

theorem carriesFirstIds_reset : CarriesFirstIds 0 State.reset.tags := fun k _ => tagAt_reset k

/-- The next allocation takes bank `n` under the id `n + 1`. -/
theorem CarriesFirstIds.alloc {n : Nat} {t : Vector Word 128} (h : CarriesFirstIds n t) (hn : n < 128) :
    ∃ g, alloc t (n + 1) 4 = .took n g (n + 2) ∧ CarriesFirstIds (n + 1) g := by
  have hfree : tagAt t n = 0#32 := (h n hn).trans (if_neg (Nat.lt_irrefl n))
  have hbelow : ∀ j, j < n → tagAt t j ≠ 0#32 := fun j hj => by
    rw [h j (by omega), if_pos hj]
    exact firstId_ne_zero (by omega)
  obtain ⟨g, hg⟩ := alloc_four_of_free hn hfree hbelow (nextId := n + 1) (by omega)
  obtain ⟨-, -, -, htags⟩ := alloc_four_took hg
  refine ⟨g, hg, fun k hk => ?_⟩
  rw [htags k hk, h k hk]
  by_cases hkn : k = n
  · rw [if_pos hkn, if_pos (by omega), hkn]
  · simp only [hkn, if_false, show k < n + 1 ↔ k < n by omega]

theorem allocTimes_reset : ∀ n, n ≤ 128 →
    ∃ g, allocTimes n (State.reset.tags, State.reset.nextId) = some (g, n + 1) ∧ CarriesFirstIds n g
  | 0, _ => ⟨_, rfl, carriesFirstIds_reset⟩
  | n + 1, hn => by
    obtain ⟨g, htimes, hg⟩ := allocTimes_reset n (by omega)
    obtain ⟨g', halloc, hg'⟩ := hg.alloc (by omega)
    refine ⟨g', ?_, hg'⟩
    simp only [allocTimes, htimes, halloc]

/-- Settles O49: by induction on the number of allocations, n of which fill the banks below n. -/
theorem allocationsFromResetAscend : Obligations.AllocationsFromResetAscend := by
  refine ⟨fun n hn => ?_, ?_⟩
  · obtain ⟨g, htimes, hg⟩ := allocTimes_reset n hn.le
    obtain ⟨g', halloc, hg'⟩ := hg.alloc hn
    exact ⟨g, g', htimes, halloc, fun k hk => (hg' k hk).trans (by simp only [Nat.lt_succ_iff])⟩
  · obtain ⟨g, htimes, hg⟩ := allocTimes_reset 128 le_rfl
    refine ⟨g, htimes, alloc_four_full (fun k hk => ?_) 129⟩
    rw [hg k hk, if_pos hk]
    exact firstId_ne_zero hk

end Sys2Proof.Machine
